-- ==== Sys2Proof/Word.lean ====
section
/-! DEFINITION. The word types of the block: bytes, 32-bit words and the 20-bit argument. -/

namespace Sys2Proof

/-- A byte of a payload, a response or a buffer (00_scope.md R9). -/
abbrev Byte := BitVec 8

/-- A 32-bit register, header or CRC value (00_scope.md R7). -/
abbrev Word := BitVec 32

/-- `ceil(p/q)` for `q > 0`, as 00_scope.md R9 defines it. -/
def ceilDiv (p q : Nat) : Nat := (p + q - 1) / q

end Sys2Proof
end

