-- ==== Sys2Proof/Config.lean ====
section
/-! DEFINITION. What an implementation and its platform fix: the open parameters of 00_scope.md R8 and
20_memory.md R70. -/

namespace Sys2Proof

/-- The open parameters of the block (00_scope.md R8, 20_memory.md R70; 92_eei_decisions.md O1-O3). A model takes each as
an argument; here they are one record, held beside the state and written by no command. -/
structure Params where
  /-- `UNPK_BUF_BYTES`: capacity of the unpacker's input queue. -/
  unpkBufBytes : Nat
  /-- `MAX_ROW_BYTES`: the largest row, without its filter tag, that the filter unit holds. -/
  maxRowBytes : Nat
  /-- `DPB_BASE`: where the platform places the block in the host's address space, none if it is not
  memory-mapped there. No rule reads it (20_memory.md R70). -/
  dpbBase : Option Nat
  deriving DecidableEq, Repr

/-- The constraints 00_scope.md R8 puts on the open parameters. `DPB_BASE` has none. -/
abbrev Params.Legal (p : Params) : Prop :=
  2 ≤ p.unpkBufBytes ∧ p.unpkBufBytes ≤ 2 ^ 32 - 1 ∧
  1 ≤ p.maxRowBytes ∧ p.maxRowBytes ≤ 1048574

/-- The one concrete choice R8 offers, 4096 and 1 048 574 (DESIGN CHOICE where a state needs one, log
entry 3), in a block that is not memory-mapped (DESIGN CHOICE, log entry 12). -/
def Params.suggested : Params := { unpkBufBytes := 4096, maxRowBytes := 1048574, dpbBase := none }

/-- The largest payload of a command, 2^20 − 1 bytes (00_scope.md R7, 30_encoding.md R80). -/
def maxPayload : Nat := 1048575

end Sys2Proof
end

