-- ==== Sys2Proof/Syntax.lean ====
section
/-! DEFINITION. The command set DPB-1: a command as the port carries it, and the 26 commands as syntax. -/

namespace Sys2Proof

/-- A command on the port: the header word `H` and the payload `P` (30_encoding.md R80). -/
structure Command where
  header  : Word
  payload : List Byte
  deriving DecidableEq, Repr

/-- The 13 defined register slots (10_state.md R22). Slots 13-15 have no storage (R36), so no
constructor. -/
inductive Reg where
  | id | ctrl | status | width | height | format | crcState | unpkLevel | unpkCur | packAcc
  | filtPos | filtRow | filtByteWidth
  deriving DecidableEq, Repr

/-- What every command carries beside `OPCODE` and `MOD`: the 20-bit `ARG` field and the payload. How
the command reads them is its ARG kind (30_encoding.md R82), and whether they agree is checked when it
runs (R89, R90 step 3), not assumed. -/
structure Args where
  arg     : BitVec 20
  payload : List Byte
  deriving DecidableEq, Repr

/-- The 26 operations of the opcode map (30_encoding.md R86). -/
inductive Op where
  | ctlNop | ctlReset | ctlRdreg | ctlWrreg
  | crcInit | crcUpdate | crcFinish | crcCheck | crcOneshot
  | unpkStart | unpkLoad | unpkGet | unpkEndline | unpkEnd
  | packStart | packPut | packEndline | packEnd
  | a7Passes | a7Passinfo | a7Offset
  | fdecStart | fdecRow | filtPaeth
  | fencStart | fencRow
  deriving DecidableEq, Repr

/-- A decoded command: one constructor per row of the opcode table, with the meaning 30_encoding.md R83
gives `MOD` as its own operand (a register, `LAST`, a pass index). -/
inductive Instr where
  | ctlNop (a : Args)
  | ctlReset (a : Args)
  | ctlRdreg (r : Reg) (a : Args)
  | ctlWrreg (r : Reg) (a : Args)
  | crcInit (a : Args)
  | crcUpdate (a : Args)
  | crcFinish (a : Args)
  | crcCheck (a : Args)
  | crcOneshot (a : Args)
  | unpkStart (a : Args)
  | unpkLoad (last : Bool) (a : Args)
  | unpkGet (a : Args)
  | unpkEndline (a : Args)
  | unpkEnd (a : Args)
  | packStart (a : Args)
  | packPut (a : Args)
  | packEndline (a : Args)
  | packEnd (a : Args)
  | a7Passes (a : Args)
  | a7Passinfo (p : BitVec 3) (a : Args)
  | a7Offset (p : BitVec 3) (a : Args)
  | fdecStart (a : Args)
  | fdecRow (a : Args)
  | filtPaeth (a : Args)
  | fencStart (a : Args)
  | fencRow (a : Args)
  deriving DecidableEq, Repr

/-- The operation a decoded command performs. -/
def Instr.op : Instr → Op
  | .ctlNop _ => .ctlNop
  | .ctlReset _ => .ctlReset
  | .ctlRdreg _ _ => .ctlRdreg
  | .ctlWrreg _ _ => .ctlWrreg
  | .crcInit _ => .crcInit
  | .crcUpdate _ => .crcUpdate
  | .crcFinish _ => .crcFinish
  | .crcCheck _ => .crcCheck
  | .crcOneshot _ => .crcOneshot
  | .unpkStart _ => .unpkStart
  | .unpkLoad _ _ => .unpkLoad
  | .unpkGet _ => .unpkGet
  | .unpkEndline _ => .unpkEndline
  | .unpkEnd _ => .unpkEnd
  | .packStart _ => .packStart
  | .packPut _ => .packPut
  | .packEndline _ => .packEndline
  | .packEnd _ => .packEnd
  | .a7Passes _ => .a7Passes
  | .a7Passinfo _ _ => .a7Passinfo
  | .a7Offset _ _ => .a7Offset
  | .fdecStart _ => .fdecStart
  | .fdecRow _ => .fdecRow
  | .filtPaeth _ => .filtPaeth
  | .fencStart _ => .fencStart
  | .fencRow _ => .fencRow

/-- The `ARG` field and the payload of a decoded command. -/
def Instr.args : Instr → Args
  | .ctlNop a | .ctlReset a | .ctlRdreg _ a | .ctlWrreg _ a
  | .crcInit a | .crcUpdate a | .crcFinish a | .crcCheck a | .crcOneshot a
  | .unpkStart a | .unpkLoad _ a | .unpkGet a | .unpkEndline a | .unpkEnd a
  | .packStart a | .packPut a | .packEndline a | .packEnd a
  | .a7Passes a | .a7Passinfo _ a | .a7Offset _ a
  | .fdecStart a | .fdecRow a | .filtPaeth a | .fencStart a | .fencRow a => a

end Sys2Proof
end

