-- ==== Sys2Proof/WellFormed.lean ====
section
/-! DEFINITION. Which commands and decoded commands a transport can carry at all. -/

namespace Sys2Proof

/-- A payload the port can carry: at most 2^20 − 1 bytes (30_encoding.md R80). -/
abbrev Command.WellFormed (c : Command) : Prop := c.payload.length ≤ maxPayload

/-- A decoded command is well-formed when its payload fits the port. Register slots, pass indices and
`LAST` are well-formed by type. Whether `ARG` and the payload agree is the framing check of
30_encoding.md R89, which the machine runs; a badly framed command has a meaning too (it raises
LENGTH). -/
abbrev Instr.WellFormed (i : Instr) : Prop := i.args.payload.length ≤ maxPayload

end Sys2Proof
end

