-- ==== Sys2Proof/Decode.lean ====
section
/-! DEFINITION. The encoding of DPB-1: the opcode map, the ARG kinds and their framing check, the
decoder and after it the encoder, and the byte transport. -/

namespace Sys2Proof

/-! ## Byte order (00_scope.md R10, 20_memory.md R63) -/

/-- `BE_n(v)`: the `n`-byte big-endian list of `v`. -/
def be : Nat → Nat → List Byte
  | 0, _ => []
  | n + 1, v => be n (v / 256) ++ [BitVec.ofNat 8 v]

/-- `unBE(L)`: the unsigned value of a big-endian list. -/
def unBE (l : List Byte) : Nat := l.foldl (fun v b => v * 256 + b.toNat) 0

/-! ## The opcode map (30_encoding.md R86) -/

/-- The ARG kinds of 30_encoding.md R82. -/
inductive ArgKind where
  | z
  | l
  | e
  | f (n : Nat)
  | c
  deriving DecidableEq, Repr

/-- Column OPCODE of 30_encoding.md R86. -/
def Op.code : Op → BitVec 8
  | .ctlNop => 0x00#8
  | .ctlReset => 0x01#8
  | .ctlRdreg => 0x02#8
  | .ctlWrreg => 0x03#8
  | .crcInit => 0x10#8
  | .crcUpdate => 0x11#8
  | .crcFinish => 0x12#8
  | .crcCheck => 0x13#8
  | .crcOneshot => 0x14#8
  | .unpkStart => 0x20#8
  | .unpkLoad => 0x21#8
  | .unpkGet => 0x22#8
  | .unpkEndline => 0x23#8
  | .unpkEnd => 0x24#8
  | .packStart => 0x30#8
  | .packPut => 0x31#8
  | .packEndline => 0x32#8
  | .packEnd => 0x33#8
  | .a7Passes => 0x40#8
  | .a7Passinfo => 0x41#8
  | .a7Offset => 0x42#8
  | .fdecStart => 0x50#8
  | .fdecRow => 0x51#8
  | .filtPaeth => 0x52#8
  | .fencStart => 0x60#8
  | .fencRow => 0x61#8

/-- Column ARG of 30_encoding.md R86. -/
def Op.kind : Op → ArgKind
  | .ctlNop => .z
  | .ctlReset => .z
  | .ctlRdreg => .z
  | .ctlWrreg => .f 4
  | .crcInit => .z
  | .crcUpdate => .l
  | .crcFinish => .z
  | .crcCheck => .f 4
  | .crcOneshot => .l
  | .unpkStart => .z
  | .unpkLoad => .l
  | .unpkGet => .c
  | .unpkEndline => .z
  | .unpkEnd => .z
  | .packStart => .z
  | .packPut => .e
  | .packEndline => .z
  | .packEnd => .z
  | .a7Passes => .z
  | .a7Passinfo => .z
  | .a7Offset => .f 8
  | .fdecStart => .z
  | .fdecRow => .l
  | .filtPaeth => .f 3
  | .fencStart => .z
  | .fencRow => .l

/-- The rows of the opcode map, in its order. -/
def Op.all : List Op :=
  [.ctlNop, .ctlReset, .ctlRdreg, .ctlWrreg,
   .crcInit, .crcUpdate, .crcFinish, .crcCheck, .crcOneshot,
   .unpkStart, .unpkLoad, .unpkGet, .unpkEndline, .unpkEnd,
   .packStart, .packPut, .packEndline, .packEnd,
   .a7Passes, .a7Passinfo, .a7Offset,
   .fdecStart, .fdecRow, .filtPaeth,
   .fencStart, .fencRow]

/-- The operation an OPCODE value selects; none for the 230 undefined values (30_encoding.md R87). -/
def Op.ofCode? (c : BitVec 8) : Option Op := Op.all.find? (fun o => o.code == c)

/-- The slot number of a register (10_state.md R22). -/
def Reg.index : Reg → BitVec 4
  | .id => 0#4
  | .ctrl => 1#4
  | .status => 2#4
  | .width => 3#4
  | .height => 4#4
  | .format => 5#4
  | .crcState => 6#4
  | .unpkLevel => 7#4
  | .unpkCur => 8#4
  | .packAcc => 9#4
  | .filtPos => 10#4
  | .filtRow => 11#4
  | .filtByteWidth => 12#4

/-- The defined slots in index order (10_state.md R22). -/
def Reg.all : List Reg :=
  [.id, .ctrl, .status, .width, .height, .format, .crcState, .unpkLevel, .unpkCur, .packAcc,
   .filtPos, .filtRow, .filtByteWidth]

/-- The register of a slot number; none for the reserved slots 13-15 (10_state.md R36). -/
def Reg.ofIndex? (k : BitVec 4) : Option Reg := Reg.all.find? (fun r => r.index == k)

/-! ## Framing (30_encoding.md R82, R89) -/

/-- The framing check of 30_encoding.md R89 for a command of the given ARG kind. -/
def framed : ArgKind → Args → Bool
  | .z, a => a.arg == 0#20 && a.payload.length == 0
  | .l, a => a.payload.length == a.arg.toNat
  | .e, a => a.payload.length == a.arg.toNat && a.arg.toNat % 2 == 0
  | .f n, a => a.arg.toNat == n && a.payload.length == n
  | .c, a => a.payload.length == 0

/-- A decoded command whose `ARG` and payload agree with its ARG kind. -/
abbrev Instr.Framed (i : Instr) : Prop := framed i.op.kind i.args = true

/-! ## Decode (30_encoding.md R81, R83, R86-R88) -/

/-- Bits [31:24] of a header. -/
def opcodeField (h : Word) : BitVec 8 := h.extractLsb' 24 8

/-- Bits [23:20] of a header. -/
def modField (h : Word) : BitVec 4 := h.extractLsb' 20 4

/-- Bits [19:0] of a header. -/
def argField (h : Word) : BitVec 20 := h.extractLsb' 0 20

/-- Why a header selects no command. Each of them raises ILLEGAL (30_encoding.md R87, R88). -/
inductive DecodeError where
  /-- An OPCODE value outside the opcode map (R87). -/
  | undefinedOpcode
  /-- A 1 in a MOD bit that must be 0 (R88). -/
  | reservedMod
  /-- A register slot 13-15 (R88). -/
  | reservedSlot
  deriving DecidableEq, Repr

/-- A command that gives MOD no meaning: MOD must be 0 (30_encoding.md R83). -/
def noMod (m : BitVec 4) (i : Instr) : Except DecodeError Instr :=
  if m == 0#4 then .ok i else .error .reservedMod

/-- A command whose MOD names a register slot (30_encoding.md R83). -/
def slotMod (m : BitVec 4) (mk : Reg → Instr) : Except DecodeError Instr :=
  match Reg.ofIndex? m with
  | some r => .ok (mk r)
  | none => .error .reservedSlot

/-- A command whose MOD[0] is LAST and whose MOD[3:1] must be 0 (30_encoding.md R83). -/
def lastMod (m : BitVec 4) (mk : Bool → Instr) : Except DecodeError Instr :=
  if m.extractLsb' 1 3 == 0#3 then .ok (mk (m.getLsbD 0)) else .error .reservedMod

/-- A command whose MOD[2:0] is PASS and whose MOD[3] must be 0 (30_encoding.md R83). -/
def passMod (m : BitVec 4) (mk : BitVec 3 → Instr) : Except DecodeError Instr :=
  if m.getLsbD 3 == false then .ok (mk (m.extractLsb' 0 3)) else .error .reservedMod

/-- The MOD check of 30_encoding.md R88 and the decoded command, for a selected operation. -/
def Op.build (o : Op) (m : BitVec 4) (a : Args) : Except DecodeError Instr :=
  match o with
  | .ctlNop => noMod m (.ctlNop a)
  | .ctlReset => noMod m (.ctlReset a)
  | .ctlRdreg => slotMod m (fun r => .ctlRdreg r a)
  | .ctlWrreg => slotMod m (fun r => .ctlWrreg r a)
  | .crcInit => noMod m (.crcInit a)
  | .crcUpdate => noMod m (.crcUpdate a)
  | .crcFinish => noMod m (.crcFinish a)
  | .crcCheck => noMod m (.crcCheck a)
  | .crcOneshot => noMod m (.crcOneshot a)
  | .unpkStart => noMod m (.unpkStart a)
  | .unpkLoad => lastMod m (fun b => .unpkLoad b a)
  | .unpkGet => noMod m (.unpkGet a)
  | .unpkEndline => noMod m (.unpkEndline a)
  | .unpkEnd => noMod m (.unpkEnd a)
  | .packStart => noMod m (.packStart a)
  | .packPut => noMod m (.packPut a)
  | .packEndline => noMod m (.packEndline a)
  | .packEnd => noMod m (.packEnd a)
  | .a7Passes => noMod m (.a7Passes a)
  | .a7Passinfo => passMod m (fun p => .a7Passinfo p a)
  | .a7Offset => passMod m (fun p => .a7Offset p a)
  | .fdecStart => noMod m (.fdecStart a)
  | .fdecRow => noMod m (.fdecRow a)
  | .filtPaeth => noMod m (.filtPaeth a)
  | .fencStart => noMod m (.fencStart a)
  | .fencRow => noMod m (.fencRow a)

/-- The decoder: opcode, then MOD (30_encoding.md R90 step 2). Total on every command. -/
def decode (c : Command) : Except DecodeError Instr :=
  match Op.ofCode? (opcodeField c.header) with
  | none => .error .undefinedOpcode
  | some o => o.build (modField c.header) { arg := argField c.header, payload := c.payload }

/-! ## Encode (30_encoding.md R81, R83, R86) -/

/-- The MOD field of a decoded command. -/
def Instr.modBits : Instr → BitVec 4
  | .ctlRdreg r _ => r.index
  | .ctlWrreg r _ => r.index
  | .unpkLoad last _ => 0#3 ++ BitVec.ofBool last
  | .a7Passinfo p _ => 0#1 ++ p
  | .a7Offset p _ => 0#1 ++ p
  | .ctlNop _ | .ctlReset _ | .crcInit _ | .crcUpdate _ | .crcFinish _
  | .crcCheck _ | .crcOneshot _ | .unpkStart _ | .unpkGet _ | .unpkEndline _
  | .unpkEnd _ | .packStart _ | .packPut _ | .packEndline _ | .packEnd _
  | .a7Passes _ | .fdecStart _ | .fdecRow _ | .filtPaeth _ | .fencStart _
  | .fencRow _ => 0#4

/-- A header from its three fields (30_encoding.md R81). -/
def headerOf (op : BitVec 8) (m : BitVec 4) (arg : BitVec 20) : Word := op ++ m ++ arg

/-- The command that spells a decoded command. -/
def encode (i : Instr) : Command :=
  { header := headerOf i.op.code i.modBits i.args.arg, payload := i.args.payload }

/-! ## The byte transport (20_memory.md R66, 30_encoding.md R92) -/

/-- The payload length the header alone gives (30_encoding.md R92): ARG for kinds L and E, `n` for F(n),
0 for Z and C. For an undefined opcode R92 gives none, and the model reads none (DESIGN CHOICE, log
entry 5). -/
def payloadLength (h : Word) : Nat :=
  match Op.ofCode? (opcodeField h) with
  | none => 0
  | some o =>
    match o.kind with
    | .l => (argField h).toNat
    | .e => (argField h).toNat
    | .f n => n
    | .z => 0
    | .c => 0

/-- A command as a transport carries it: the header big-endian, then the payload. -/
def Command.toBytes (c : Command) : List Byte := be 4 c.header.toNat ++ c.payload

/-- The transport's reader: four header bytes, then as many payload bytes as the header gives
(30_encoding.md R92). It answers the command and the bytes left, or none if the bytes run out. -/
def readCommand (bs : List Byte) : Option (Command × List Byte) :=
  match bs with
  | b0 :: b1 :: b2 :: b3 :: rest =>
    let h : Word := BitVec.ofNat 32 (unBE [b0, b1, b2, b3])
    if payloadLength h ≤ rest.length then
      some ({ header := h, payload := rest.take (payloadLength h) }, rest.drop (payloadLength h))
    else none
  | _ => none

/-! ## Table words -/

/-- Byte `k` of the payload in a number whose bits 31..0 are the header and whose payload bytes count on
from bit 32. -/
def tableByte (w k : Nat) : Byte := BitVec.ofNat 8 (w >>> (32 + 8 * k))

/-- The command whose bits are `w` as spec/opcode_table.json numbers them, every bit from `nbits` up
being 0, with as many payload bytes as its header gives (log entry 6). -/
def tableCommand (nbits w : Nat) : Command :=
  let v := w % 2 ^ nbits
  let h : Word := BitVec.ofNat 32 v
  { header := h, payload := (List.range (payloadLength h)).map (tableByte v) }

/-- What the decoder reads from a table word. -/
def decodeTableWord (nbits w : Nat) : Option Instr :=
  match decode (tableCommand nbits w) with
  | .ok i => some i
  | .error _ => none

end Sys2Proof
end

