-- ==== Sys2Proof/Machine/State.lean ====
section
/-! DEFINITION. The state of the block (spec/10_state.md), its responses and error codes, the outcomes of a
step, and the state after reset (70_reset_and_hazards.md R271). -/

namespace Sys2Proof.Machine

/-- The error causes of 60_exceptions.md R240. Their numbers are `ErrCode.code`. -/
inductive ErrCode where
  | format | integrity | truncation | trailing | state | range | illegal | capacity | length | halted
  deriving DecidableEq, Repr

/-- A response (30_encoding.md R84): OK with its result bytes, WAIT, or ERR with its code. WAIT and ERR
carry no data. The header word of a response is `Response.header`. -/
inductive Response where
  | ok (data : List Byte)
  | wait
  | err (e : ErrCode)
  deriving DecidableEq, Repr

/-- The modes of the filter unit (10_state.md R40). -/
inductive FiltMode where
  | idle | decode | encode | done
  deriving DecidableEq, Repr

/-- One entry of the filter's pass list: the Adam7 index, the pass width and the pass height
(10_state.md R40). -/
structure Pass where
  idx : Nat
  pw  : Nat
  ph  : Nat
  deriving DecidableEq, Repr

/-- The unpacker (10_state.md R38). -/
structure Unpk where
  active : Bool
  /-- The latched bit depth, or 0 when inactive. -/
  depth  : Nat
  /-- Loaded, unconsumed input bytes, oldest first. -/
  buf    : List Byte
  /-- The host has marked the input complete. -/
  eos    : Bool
  /-- The byte being split. -/
  cur    : Byte
  /-- Samples of `cur` not yet delivered. -/
  rem    : Nat
  deriving DecidableEq, Repr

/-- The packer (10_state.md R39). -/
structure Pack where
  active : Bool
  /-- The latched bit depth, or 0 when inactive. -/
  depth  : Nat
  /-- The sample bits of the incomplete output byte, right-aligned. -/
  acc    : Nat
  /-- How many bits of `acc` are valid. -/
  bits   : Nat
  deriving DecidableEq, Repr

/-- The filter unit (10_state.md R40). -/
structure Filt where
  mode    : FiltMode
  /-- The passes that have rows, in order. -/
  passes  : List Pass
  /-- The position in `passes` of the current pass. -/
  pi      : Nat
  /-- The row of the current pass expected next. -/
  row     : Nat
  /-- The byteWidth of the current pass. -/
  bw      : Nat
  bpp     : Nat
  depth   : Nat
  stride  : Nat
  /-- The FILTSEL value latched at FENC_START. -/
  sel     : BitVec 4
  hasPrev : Bool
  /-- The previous unfiltered row, the empty list while `hasPrev` is false (10_state.md R41). -/
  prev    : List Byte
  deriving DecidableEq, Repr

/-- The state of the machine: the block's own state (10_state.md), and three fields of the model that
carry the inputs and the output of the spec's `step(S, cmd)` (00_scope.md R4; log entries 1-3). -/
structure State where
  /-- The open parameters of this block (00_scope.md R8, 20_memory.md R70). No command writes them. -/
  params      : Params
  /-- `CTRL` (R24): bit 0 is `CHECK_CRC`, the other bits are reserved. -/
  ctrl        : Word
  /-- `STATUS.HALT` (R25). -/
  halt        : Bool
  /-- `STATUS.ERRCODE` (R25). -/
  errcode     : BitVec 4
  /-- `STATUS.CRC_MISMATCH` (R25). -/
  crcMismatch : Bool
  /-- `WIDTH` (R26). -/
  width       : Word
  /-- `HEIGHT` (R27). -/
  height      : Word
  /-- `FORMAT` (R28). -/
  format      : Word
  /-- `CRC.state` (R37), the register `CRC_STATE` (R29). -/
  crc         : Word
  unpk        : Unpk
  pack        : Pack
  filt        : Filt
  /-- Commands the host has issued that have not been executed, oldest first (model's own, log entry 1). -/
  port        : List Command
  /-- The response to the last command executed (model's own, log entry 2). -/
  resp        : Option Response
  deriving DecidableEq, Repr

/-- Why the machine stops with a fault. Nothing raises one: every command has exactly one outcome, OK,
WAIT or ERR (00_scope.md R4), and an error is a response that latches HALT (60_exceptions.md R241), so
the type is empty. -/
inductive Fault where
  deriving DecidableEq, Repr

/-- Why a step is refused. -/
inductive Refusal where
  /-- Raised by an arm of `exec` whose command has no meaning yet; safe. No arm uses it: all 26 commands
  are modelled. -/
  | notModelled (mnemonic : String)
  deriving DecidableEq, Repr

/-- The outcome of a command. -/
abbrev Result := Host.Outcome State Fault Refusal

/-- The unpacker's reset values (70_reset_and_hazards.md R271). -/
def Unpk.reset : Unpk :=
  { active := false, depth := 0, buf := [], eos := false, cur := 0#8, rem := 0 }

/-- The packer's reset values (70_reset_and_hazards.md R271). -/
def Pack.reset : Pack := { active := false, depth := 0, acc := 0, bits := 0 }

/-- The filter unit's reset values (70_reset_and_hazards.md R271). -/
def Filt.reset : Filt :=
  { mode := .idle, passes := [], pi := 0, row := 0, bw := 0, bpp := 0, depth := 0, stride := 0,
    sel := 15#4, hasPrev := false, prev := [] }

/-- `ResetState` (70_reset_and_hazards.md R271) of a block with parameters `p`, no command pending and no
response given. -/
def State.resetOf (p : Params) : State :=
  { params := p, ctrl := 0x00000001#32, halt := false, errcode := 0#4, crcMismatch := false,
    width := 0#32, height := 0#32, format := 0x0F000000#32, crc := 0xFFFFFFFF#32,
    unpk := Unpk.reset, pack := Pack.reset, filt := Filt.reset, port := [], resp := none }

/-- The machine right after power-on (70_reset_and_hazards.md R270, R271), with the parameter values that
00_scope.md R8 offers for a concrete model (log entries 3 and 12). -/
def State.reset : State := State.resetOf Params.suggested

end Sys2Proof.Machine
end

