-- ==== Sys2Proof/Machine/Operands.lean ====
section
/-! DEFINITION. How operands are read: the fields of FORMAT and CTRL, payload values, sample lists, error
numbers, and the response as the port carries it. -/

namespace Sys2Proof.Machine

/-! ## Register fields (10_state.md R24, R28) -/

/-- `CTRL.CHECK_CRC`. -/
def State.checkCrc (s : State) : Bool := s.ctrl.getLsbD 0

/-- `FORMAT.BITDEPTH`, bits [4:0]. -/
def State.bitDepth (s : State) : Nat := (s.format.extractLsb' 0 5).toNat

/-- `FORMAT.COLORTYPE`, bits [10:8]. -/
def State.colorType (s : State) : Nat := (s.format.extractLsb' 8 3).toNat

/-- `FORMAT.INTERLACE`, bit [16]. -/
def State.interlace (s : State) : Bool := s.format.getLsbD 16

/-- `FORMAT.FILTSEL`, bits [27:24]. -/
def State.filtSel (s : State) : BitVec 4 := s.format.extractLsb' 24 4

/-- The writable bits of `FORMAT` (10_state.md R28). -/
def formatMask : Word := 0x0F01071F#32

/-- The bit depths the block knows (42_bitpack.md R140). -/
def legalDepth (d : Nat) : Bool := d == 1 || d == 2 || d == 4 || d == 8 || d == 16

/-! ## Payload operands -/

/-- The 32-bit value of a 4-byte payload (40_control.md R113, 41_crc.md R126). -/
def word32 (p : List Byte) : Word := BitVec.ofNat 32 (unBE p)

/-- The 16-bit samples of a `PACK_PUT` payload (42_bitpack.md R149): `s_j = unBE(P[2j .. 2j+2))`. -/
def samplesOf : List Byte → List Nat
  | b0 :: b1 :: rest => unBE [b0, b1] :: samplesOf rest
  | [_] => []
  | [] => []

/-! ## Error numbers (60_exceptions.md R240) -/

/-- The code of an error. -/
def ErrCode.code : ErrCode → BitVec 4
  | .format => 1#4
  | .integrity => 2#4
  | .truncation => 3#4
  | .trailing => 4#4
  | .state => 5#4
  | .range => 6#4
  | .illegal => 7#4
  | .capacity => 8#4
  | .length => 9#4
  | .halted => 10#4

/-- The error causes in the order of their codes. -/
def ErrCode.all : List ErrCode :=
  [.format, .integrity, .truncation, .trailing, .state, .range, .illegal, .capacity, .length, .halted]

/-- The error of a code; none for 0 and the reserved codes 11-15. -/
def ErrCode.ofCode? (c : BitVec 4) : Option ErrCode := ErrCode.all.find? (fun e => e.code == c)

/-! ## The response on the port (30_encoding.md R84, R91) -/

/-- The field KIND of a response header. -/
def Response.kind : Response → BitVec 2
  | .ok _ => 0#2
  | .wait => 1#2
  | .err _ => 2#2

/-- The field CODE of a response header: 0 unless KIND is ERR. -/
def Response.codeField : Response → BitVec 4
  | .ok _ => 0#4
  | .wait => 0#4
  | .err e => e.code

/-- The result bytes `D`. -/
def Response.data : Response → List Byte
  | .ok d => d
  | .wait => []
  | .err _ => []

/-- The response header `R`: KIND [31:30], 0 [29:28], CODE [27:24], RLEN [23:0] (30_encoding.md R84). -/
def Response.header (r : Response) : Word :=
  r.kind ++ 0#2 ++ r.codeField ++ BitVec.ofNat 24 r.data.length

/-- A host's reader of a response `(R, D)`. It refuses `KIND = 11` as malformed (30_encoding.md R91), and
every other pair that R84 says is never produced (log entry 7). -/
def Response.read? (r : Word) (d : List Byte) : Option Response :=
  let kind := r.extractLsb' 30 2
  let code := r.extractLsb' 24 4
  if r.extractLsb' 28 2 == 0#2 && (r.extractLsb' 0 24).toNat == d.length then
    if kind == 0#2 && code == 0#4 then some (.ok d)
    else if kind == 1#2 && code == 0#4 && d.length == 0 then some .wait
    else if kind == 2#2 && d.length == 0 then (ErrCode.ofCode? code).map .err
    else none
  else none

/-! ## The response on a byte transport (20_memory.md R66, 30_encoding.md R92) -/

/-- A response as a transport carries it: the header big-endian, then the result bytes. -/
def Response.toBytes (r : Response) : List Byte := be 4 r.header.toNat ++ r.data

/-- The host's reader: four header bytes, then `RLEN` result bytes (30_encoding.md R92). It answers the
response and the bytes left, or none if the bytes run out or are no response. -/
def readResponse (bs : List Byte) : Option (Response × List Byte) :=
  match bs with
  | b0 :: b1 :: b2 :: b3 :: rest =>
    let h : Word := word32 [b0, b1, b2, b3]
    let n := (h.extractLsb' 0 24).toNat
    if n ≤ rest.length then (Response.read? h (rest.take n)).map fun r => (r, rest.drop n) else none
  | _ => none

end Sys2Proof.Machine
end

