-- ==== Sys2Proof/Machine/Flags.lean ====
section
/-! DEFINITION. The status bits and the register views: what every slot of the register space reads as
(10_state.md R23-R35). -/

namespace Sys2Proof.Machine

/-- The code of a filter mode in `STATUS.FILT_MODE` (10_state.md R25). -/
def FiltMode.code : FiltMode → BitVec 2
  | .idle => 0#2
  | .decode => 1#2
  | .encode => 2#2
  | .done => 3#2

/-- The filter unit is in a session, so its position registers do not read 0 (10_state.md R33-R35). -/
def FiltMode.inSession : FiltMode → Bool
  | .idle => false
  | .decode => true
  | .encode => true
  | .done => false

/-- The constant of `ID` (10_state.md R23). -/
def idValue : Word := 0x44504E47#32

/-- `STATUS` (10_state.md R25): reserved [31:14], FILT_MODE [13:12], PACK_ACTIVE [11], UNPK_EOS [10],
UNPK_ACTIVE [9], CRC_MISMATCH [8], ERRCODE [7:4], reserved [3:1], HALT [0]. -/
def statusWord (s : State) : Word :=
  0#18 ++ s.filt.mode.code ++ BitVec.ofBool s.pack.active ++ BitVec.ofBool s.unpk.eos ++
    BitVec.ofBool s.unpk.active ++ BitVec.ofBool s.crcMismatch ++ s.errcode ++ 0#3 ++
    BitVec.ofBool s.halt

/-- `UNPK_CUR` (10_state.md R31): DEPTH [20:16], REM [10:8], CUR [7:0]. -/
def unpkCurWord (u : Unpk) : Word :=
  0#11 ++ BitVec.ofNat 5 u.depth ++ 0#5 ++ BitVec.ofNat 3 u.rem ++ u.cur

/-- `PACK_ACC` (10_state.md R32): DEPTH [20:16], BITS [10:8], ACC [7:0]. -/
def packAccWord (p : Pack) : Word :=
  0#11 ++ BitVec.ofNat 5 p.depth ++ 0#5 ++ BitVec.ofNat 3 p.bits ++ BitVec.ofNat 8 p.acc

/-- The current pass of the filter's list; a pass of size 0 where the position is past the list, which no
reachable state is (10_state.md R48). -/
def Filt.pass (f : Filt) (i : Nat) : Pass := f.passes.getD i { idx := 0, pw := 0, ph := 0 }

/-- `FILT_POS` (10_state.md R33): HASPREV [8], STRIDE [7:4], PASS [2:0]; 0 outside a session. -/
def filtPosWord (f : Filt) : Word :=
  if f.mode.inSession then
    0#23 ++ BitVec.ofBool f.hasPrev ++ BitVec.ofNat 4 f.stride ++ 0#1 ++
      BitVec.ofNat 3 (f.pass f.pi).idx
  else 0#32

/-- `FILT_ROW` (10_state.md R34); 0 outside a session. -/
def filtRowWord (f : Filt) : Word := if f.mode.inSession then BitVec.ofNat 32 f.row else 0#32

/-- `FILT_BYTEWIDTH` (10_state.md R35); 0 outside a session. -/
def filtByteWidthWord (f : Filt) : Word := if f.mode.inSession then BitVec.ofNat 32 f.bw else 0#32

/-- The value of a register slot when a command reads it (10_state.md R23-R35). -/
def readReg (s : State) : Reg → Word
  | .id => idValue
  | .ctrl => s.ctrl
  | .status => statusWord s
  | .width => s.width
  | .height => s.height
  | .format => s.format
  | .crcState => s.crc
  | .unpkLevel => BitVec.ofNat 32 s.unpk.buf.length
  | .unpkCur => unpkCurWord s.unpk
  | .packAcc => packAccWord s.pack
  | .filtPos => filtPosWord s.filt
  | .filtRow => filtRowWord s.filt
  | .filtByteWidth => filtByteWidthWord s.filt

end Sys2Proof.Machine
end

