-- ==== Sys2Proof/Machine/Ops.lean ====
section
/-! DEFINITION. The operations every command shares: responding, waiting, raising an error (the block's
only exception, 60_exceptions.md R241), the reset that is the only way back (R249), the common sequence of
30_encoding.md R90, and taking a command from the port. -/

namespace Sys2Proof.Machine

/-! ## Outcomes (00_scope.md R12) -/

/-- The state after `respond OK(data)`: the command's writes are in `s`. -/
def State.answered (s : State) (data : List Byte) : State := { s with resp := some (.ok data) }

/-- `respond OK(data)`. -/
def respondOk (s : State) (data : List Byte) : Result := .next (s.answered data)

/-- The state after `respond WAIT`: nothing changed. -/
def State.waiting (s : State) : State := { s with resp := some .wait }

/-- `respond WAIT`. -/
def respondWait (s : State) : Result := .next s.waiting

/-- The state after `raise e`, applied to the state before the command, so that no other write of the
command is committed (60_exceptions.md R241, R242): HALT is latched, and ERRCODE if HALT was 0. -/
def State.raised (s : State) (e : ErrCode) : State :=
  { s with
    halt := true
    errcode := if s.halt then s.errcode else e.code
    resp := some (.err e) }

/-- `raise e`: taking the block's exception. -/
def raise (s : State) (e : ErrCode) : Result := .next (s.raised e)

/-- The state after the refusal `respond ERR(HALTED)`: nothing changed (60_exceptions.md R243). -/
def State.haltRefused (s : State) : State := { s with resp := some (.err .halted) }

/-- `respond ERR(HALTED)`. -/
def respondHalted (s : State) : Result := .next s.haltRefused

/-- Go on with a checked value, or raise the error its check found. -/
def orRaise {α : Type} (s : State) (r : Except ErrCode α) (k : α → Result) : Result :=
  match r with
  | .ok x => k x
  | .error e => raise s e

/-! ## Reset, the way back from an error (40_control.md R111, 60_exceptions.md R249) -/

/-- `S <- ResetState`: every piece of the block's state at its reset value. The parameters are
configuration and the pending commands and the last response are the port's, so they stay (log entry 4). -/
def State.softReset (s : State) : State :=
  { State.resetOf s.params with port := s.port, resp := s.resp }

/-! ## The common sequence (30_encoding.md R90) -/

/-- The three commands accepted while halted (30_encoding.md R90 step 1), by OPCODE. -/
def acceptedWhileHalted (op : BitVec 8) : Bool := op == 0x00#8 || op == 0x01#8 || op == 0x02#8

/-- Steps 1 and 3 of R90 around a command's body (step 4): the halt refusal, then the framing check. Step
2, decoding, has no effect of its own on a command that decodes. -/
def command (o : Op) (a : Args) (s : State) (body : Result) : Result :=
  if s.halt && !acceptedWhileHalted o.code then respondHalted s
  else if framed o.kind a then body
  else raise s .length

/-- Steps 1 and 2 of R90 for a command that does not decode: the halt refusal, else ILLEGAL
(30_encoding.md R87, R88), whatever the decoder found. -/
def undecodable (c : Command) (_why : DecodeError) (s : State) : Result :=
  if s.halt && !acceptedWhileHalted (opcodeField c.header) then respondHalted s
  else raise s .illegal

/-! ## The command port -/

/-- Take the oldest pending command from the port. -/
def takeCommand (s : State) : Option (Command × State) :=
  match s.port with
  | [] => none
  | c :: rest => some (c, { s with port := rest })

/-- Issue a command so that it is the next one executed. -/
def State.issueFirst (s : State) (c : Command) : State := { s with port := c :: s.port }

end Sys2Proof.Machine
end

