-- ==== Sys2Proof/Machine/Adam7.lean ====
section
/-! DEFINITION. Adam7 interlace geometry and its commands (spec/43_adam7.md). -/

namespace Sys2Proof.Machine

/-- The geometry of one pass: its start, its stride, its width and its height (43_adam7.md R173). -/
structure PassGeom where
  x0 : Nat
  y0 : Nat
  dx : Nat
  dy : Nat
  pw : Nat
  ph : Nat
  deriving DecidableEq, Repr

/-- The Adam7 ROM: `(x0, y0, dx, dy)` of passes 0 to 6 (43_adam7.md R170, 10_state.md R43). -/
def adam7Table : List (Nat × Nat × Nat × Nat) :=
  [(0, 0, 8, 8), (4, 0, 8, 8), (0, 4, 4, 8), (2, 0, 4, 4), (0, 2, 2, 4), (1, 0, 2, 2), (0, 1, 1, 2)]

/-- The pass dimension `dim(n, o, s)` (43_adam7.md R172). -/
def passDim (n o s : Nat) : Nat := if n > o then (n - o + s - 1) / s else 0

/-- The geometry list for a size and an interlace setting (43_adam7.md R171, R173), after the zero-size
check. -/
def geometryOf (w h : Nat) (interlaced : Bool) : List PassGeom :=
  if interlaced then
    adam7Table.map fun (x0, y0, dx, dy) =>
      { x0 := x0, y0 := y0, dx := dx, dy := dy, pw := passDim w x0 dx, ph := passDim h y0 dy }
  else [{ x0 := 0, y0 := 0, dx := 1, dy := 1, pw := w, ph := h }]

/-- `geometry()` (43_adam7.md R173): reads WIDTH, HEIGHT and INTERLACE as they are when the command runs
(R178). -/
def geometry (s : State) : Except ErrCode (List PassGeom) :=
  if s.width == 0#32 || s.height == 0#32 then .error .format
  else .ok (geometryOf s.width.toNat s.height.toNat s.interlace)

/-- The geometry of pass `p`, or RANGE if there is no such pass (43_adam7.md R175, R176). -/
def passGeometry (s : State) (p : BitVec 3) : Except ErrCode PassGeom :=
  match geometry s with
  | .error e => .error e
  | .ok g =>
    match g[p.toNat]? with
    | some q => .ok q
    | none => .error .range

/-- The canonical-buffer index of pixel `(x, y)` of a pass in an image `w` pixels wide (43_adam7.md
R176), as an exact number. -/
def PassGeom.offset (q : PassGeom) (w x y : Nat) : Nat :=
  ((q.y0 + y * q.dy) * w + (q.x0 + x * q.dx)) * 4

/-- The checked result of `A7_OFFSET` (43_adam7.md R176): the pass, the coordinates, then the 64-bit
limit. -/
def checkedOffset (s : State) (p : BitVec 3) (x y : Nat) : Except ErrCode Nat :=
  match passGeometry s p with
  | .error e => .error e
  | .ok q =>
    if x ≥ q.pw || y ≥ q.ph then .error .range
    else if q.offset s.width.toNat x y ≥ 2 ^ 64 then .error .range
    else .ok (q.offset s.width.toNat x y)

/-- `A7_PASSES` (43_adam7.md R174). -/
def execA7Passes (a : Args) (s : State) : Result :=
  command .a7Passes a s <|
    orRaise s (geometry s) fun g => respondOk s (g.flatMap fun q => be 4 q.pw ++ be 4 q.ph)

/-- `A7_PASSINFO` (43_adam7.md R175). -/
def execA7Passinfo (p : BitVec 3) (a : Args) (s : State) : Result :=
  command .a7Passinfo a s <|
    orRaise s (passGeometry s p) fun q =>
      respondOk s (be 1 q.x0 ++ be 1 q.y0 ++ be 1 q.dx ++ be 1 q.dy ++ be 4 q.pw ++ be 4 q.ph)

/-- `A7_OFFSET` (43_adam7.md R176): `x = unBE(P[0..4))`, `y = unBE(P[4..8))`. -/
def execA7Offset (p : BitVec 3) (a : Args) (s : State) : Result :=
  command .a7Offset a s <|
    orRaise s (checkedOffset s p (unBE (a.payload.take 4)) (unBE (a.payload.drop 4))) fun off =>
      respondOk s (be 8 off)

end Sys2Proof.Machine
end

