-- ==== Sys2Proof/Machine/Bitpack.lean ====
section
/-! DEFINITION. The bit unpacker, the bit packer and their commands (spec/42_bitpack.md). -/

namespace Sys2Proof.Machine

/-- The depths at which one byte holds several samples (42_bitpack.md R140). -/
def subByte (d : Nat) : Bool := d == 1 || d == 2 || d == 4

/-! ## Unpacker -/

/-- `need(n)`: bytes that must be in the queue to deliver `n` samples (42_bitpack.md R144). -/
def Unpk.need (u : Unpk) (n : Nat) : Nat :=
  if subByte u.depth then ceilDiv (n - min n u.rem) (8 / u.depth)
  else if u.depth == 8 then n
  else 2 * n

/-- Take the next byte of the queue as the byte being split, with all its samples undelivered. The queue
is not empty where `UNPK_GET` does this (its check R144 comes first). -/
def Unpk.nextByte (u : Unpk) : Unpk :=
  { u with cur := u.buf.headD 0#8, buf := u.buf.tail, rem := 8 / u.depth }

/-- The sample at the position `rem` of the byte being split: `(cur >> (d × (rem − 1))) AND (2^d − 1)`
(42_bitpack.md R145). -/
def Unpk.splitSample (u : Unpk) : Nat := (u.cur.toNat >>> (u.depth * (u.rem - 1))) % 2 ^ u.depth

/-- One turn of the loop of `UNPK_GET` (42_bitpack.md R145): the sample and the unpacker after it. -/
def Unpk.nextSample (u : Unpk) : Nat × Unpk :=
  if subByte u.depth then
    let u' := if u.rem == 0 then u.nextByte else u
    (u'.splitSample, { u' with rem := u'.rem - 1 })
  else if u.depth == 8 then ((u.buf.headD 0#8).toNat, { u with buf := u.buf.tail })
  else ((u.buf.headD 0#8).toNat * 256 + (u.buf.getD 1 0#8).toNat, { u with buf := u.buf.drop 2 })

/-- `n` turns of the loop of `UNPK_GET`: the samples in order, and the unpacker after them. -/
def Unpk.takeSamples (u : Unpk) : Nat → List Nat × Unpk
  | 0 => ([], u)
  | n + 1 =>
    let (x, u1) := u.nextSample
    let (xs, u2) := Unpk.takeSamples u1 n
    (x :: xs, u2)

/-- Samples as response data: 2 bytes each, big-endian, at every depth (30_encoding.md R85). -/
def sampleBytes (l : List Nat) : List Byte := l.flatMap (be 2)

/-- `UNPK_START` (42_bitpack.md R142). -/
def execUnpkStart (a : Args) (s : State) : Result :=
  command .unpkStart a s <|
    if legalDepth s.bitDepth then
      respondOk { s with unpk := { Unpk.reset with active := true, depth := s.bitDepth } } []
    else raise s .format

/-- `UNPK_LOAD` (42_bitpack.md R143). -/
def execUnpkLoad (last : Bool) (a : Args) (s : State) : Result :=
  command .unpkLoad a s <|
    if !s.unpk.active then raise s .state
    else if s.unpk.eos then raise s .state
    else if s.unpk.buf.length + a.payload.length > s.params.unpkBufBytes then raise s .capacity
    else respondOk { s with unpk := { s.unpk with buf := s.unpk.buf ++ a.payload, eos := last } } []

/-- `UNPK_GET` (42_bitpack.md R145). -/
def execUnpkGet (a : Args) (s : State) : Result :=
  command .unpkGet a s <|
    if !s.unpk.active then raise s .state
    else if s.unpk.need a.arg.toNat > s.unpk.buf.length then
      if s.unpk.eos then raise s .truncation else respondWait s
    else
      let r := s.unpk.takeSamples a.arg.toNat
      respondOk { s with unpk := r.2 } (sampleBytes r.1)

/-- `UNPK_ENDLINE` (42_bitpack.md R146). -/
def execUnpkEndline (a : Args) (s : State) : Result :=
  command .unpkEndline a s <|
    if !s.unpk.active then raise s .state
    else respondOk { s with unpk := { s.unpk with rem := 0 } } []

/-- `UNPK_END` (42_bitpack.md R147). -/
def execUnpkEnd (a : Args) (s : State) : Result :=
  command .unpkEnd a s <|
    if !s.unpk.active then raise s .state
    else if !s.unpk.eos then raise s .state
    else if s.unpk.buf.length > 0 then raise s .trailing
    else
      respondOk { s with
        unpk := { s.unpk with active := false, depth := 0, eos := false, cur := 0#8, rem := 0 } } []

/-! ## Packer -/

/-- One turn of the loop of `PACK_PUT` (42_bitpack.md R149): the bytes it emits and the packer after it. -/
def Pack.put (p : Pack) (x : Nat) : List Byte × Pack :=
  if subByte p.depth then
    let acc := p.acc * 2 ^ p.depth + x
    let bits := p.bits + p.depth
    if bits == 8 then ([BitVec.ofNat 8 acc], { p with acc := 0, bits := 0 })
    else ([], { p with acc := acc, bits := bits })
  else if p.depth == 8 then ([BitVec.ofNat 8 x], p)
  else (be 2 x, p)

/-- The loop of `PACK_PUT` over all samples. -/
def Pack.putAll (p : Pack) : List Nat → List Byte × Pack
  | [] => ([], p)
  | x :: xs =>
    let (d, p1) := p.put x
    let (ds, p2) := Pack.putAll p1 xs
    (d ++ ds, p2)

/-- The bytes `PACK_ENDLINE` emits: the partial byte, padded with zeros at its low end (42_bitpack.md
R150). -/
def Pack.flush (p : Pack) : List Byte :=
  if p.bits > 0 then [BitVec.ofNat 8 (p.acc * 2 ^ (8 - p.bits))] else []

/-- `PACK_START` (42_bitpack.md R148). -/
def execPackStart (a : Args) (s : State) : Result :=
  command .packStart a s <|
    if legalDepth s.bitDepth then
      respondOk { s with pack := { active := true, depth := s.bitDepth, acc := 0, bits := 0 } } []
    else raise s .format

/-- `PACK_PUT` (42_bitpack.md R149). -/
def execPackPut (a : Args) (s : State) : Result :=
  command .packPut a s <|
    if !s.pack.active then raise s .state
    else if (samplesOf a.payload).all (fun x => x < 2 ^ s.pack.depth) then
      let r := s.pack.putAll (samplesOf a.payload)
      respondOk { s with pack := r.2 } r.1
    else raise s .range

/-- `PACK_ENDLINE` (42_bitpack.md R150). -/
def execPackEndline (a : Args) (s : State) : Result :=
  command .packEndline a s <|
    if !s.pack.active then raise s .state
    else respondOk { s with pack := { s.pack with acc := 0, bits := 0 } } s.pack.flush

/-- `PACK_END` (42_bitpack.md R151). -/
def execPackEnd (a : Args) (s : State) : Result :=
  command .packEnd a s <|
    if !s.pack.active then raise s .state
    else if s.pack.bits > 0 then raise s .trailing
    else respondOk { s with pack := { s.pack with active := false, depth := 0 } } []

end Sys2Proof.Machine
end

