-- ==== Sys2Proof/Machine/Control.lean ====
section
/-! DEFINITION. The control commands (spec/40_control.md). -/

namespace Sys2Proof.Machine

/-- `CTL_NOP` (40_control.md R110). -/
def execCtlNop (a : Args) (s : State) : Result :=
  command .ctlNop a s (respondOk s [])

/-- `CTL_RESET` (40_control.md R111). -/
def execCtlReset (a : Args) (s : State) : Result :=
  command .ctlReset a s (respondOk s.softReset [])

/-- `CTL_RDREG` (40_control.md R112). -/
def execCtlRdreg (r : Reg) (a : Args) (s : State) : Result :=
  command .ctlRdreg a s (respondOk s (be 4 (readReg s r).toNat))

/-- `x[CTRL].CHECK_CRC <- b`. -/
def State.setCheckCrc (s : State) (b : Bool) : State :=
  { s with ctrl := s.ctrl.extractLsb' 1 31 ++ BitVec.ofBool b }

/-- The body of `CTL_WRREG` (40_control.md R113): the read-only slots and the reserved bits raise ILLEGAL. -/
def writeReg (s : State) (r : Reg) (v : Word) : Except ErrCode State :=
  match r with
  | .ctrl => if v.extractLsb' 1 31 == 0#31 then .ok (s.setCheckCrc (v.getLsbD 0)) else .error .illegal
  | .width => .ok { s with width := v }
  | .height => .ok { s with height := v }
  | .format => if v &&& ~~~formatMask == 0#32 then .ok { s with format := v } else .error .illegal
  | .id | .status | .crcState | .unpkLevel | .unpkCur | .packAcc | .filtPos | .filtRow
  | .filtByteWidth => .error .illegal

/-- `CTL_WRREG` (40_control.md R113). -/
def execCtlWrreg (r : Reg) (a : Args) (s : State) : Result :=
  command .ctlWrreg a s (orRaise s (writeReg s r (word32 a.payload)) fun s' => respondOk s' [])

end Sys2Proof.Machine
end

