-- ==== Sys2Proof/Machine/Crc.lean ====
section
/-! DEFINITION. The CRC-32 unit and its commands (spec/41_crc.md). -/

namespace Sys2Proof.Machine

/-- One round of the table's generating loop (41_crc.md R120), with the polynomial `0xEDB88320`. -/
def crcRound (c : Word) : Word := if c.getLsbD 0 then 0xEDB88320#32 ^^^ (c >>> 1) else c >>> 1

/-- The CRC table entry `T[n]` (41_crc.md R120, 10_state.md R42): eight rounds from `n`. -/
def crcTable (n : Word) : Word :=
  crcRound (crcRound (crcRound (crcRound (crcRound (crcRound (crcRound (crcRound n)))))))

/-- Folding one byte (41_crc.md R121). -/
def crcStep (s : Word) (b : Byte) : Word :=
  crcTable ((s ^^^ b.setWidth 32) &&& 0xFF#32) ^^^ (s >>> 8)

/-- Folding a list (41_crc.md R122). -/
def crcFold (s : Word) (l : List Byte) : Word := l.foldl crcStep s

/-- The checksum of a list (41_crc.md R122). -/
def crc32 (l : List Byte) : Word := crcFold 0xFFFFFFFF#32 l ^^^ 0xFFFFFFFF#32

/-- `CRC_INIT` (41_crc.md R123). -/
def execCrcInit (a : Args) (s : State) : Result :=
  command .crcInit a s (respondOk { s with crc := 0xFFFFFFFF#32 } [])

/-- `CRC_UPDATE` (41_crc.md R124). -/
def execCrcUpdate (a : Args) (s : State) : Result :=
  command .crcUpdate a s (respondOk { s with crc := crcFold s.crc a.payload } [])

/-- `CRC_FINISH` (41_crc.md R125). -/
def execCrcFinish (a : Args) (s : State) : Result :=
  command .crcFinish a s (respondOk s (be 4 (s.crc ^^^ 0xFFFFFFFF#32).toNat))

/-- The body of `CRC_CHECK` (41_crc.md R126). The mismatch flag is set before INTEGRITY is raised, and the
error does not discard it (60_exceptions.md R242). -/
def checkCrcBody (s : State) (expected : Word) : Result :=
  let c := s.crc ^^^ 0xFFFFFFFF#32
  if c == expected then respondOk s (be 4 c.toNat)
  else
    let s' := { s with crcMismatch := true }
    if s.checkCrc then raise s' .integrity else respondOk s' (be 4 c.toNat)

/-- `CRC_CHECK` (41_crc.md R126). -/
def execCrcCheck (a : Args) (s : State) : Result :=
  command .crcCheck a s (checkCrcBody s (word32 a.payload))

/-- `CRC_ONESHOT` (41_crc.md R127). -/
def execCrcOneshot (a : Args) (s : State) : Result :=
  command .crcOneshot a s (respondOk s (be 4 (crc32 a.payload).toNat))

end Sys2Proof.Machine
end

