-- ==== Sys2Proof/Machine/Filter.lean ====
section
/-! DEFINITION. The scanline filter unit: the geometry, sequencing, neighbours and predictors that decode
and encode share (spec/44_filter_decode.md R190-R199). -/

namespace Sys2Proof.Machine

/-! ## Pixel size, stride and row width -/

/-- Samples per pixel of a colour type, none for an unknown type (44_filter_decode.md R190). -/
def samplesPerPixel (ct : Nat) : Option Nat :=
  match ct with
  | 0 => some 1
  | 2 => some 3
  | 3 => some 1
  | 4 => some 2
  | 6 => some 4
  | _ => none

/-- The bit depths a colour type allows (44_filter_decode.md R191). -/
def depthAllowed (ct d : Nat) : Bool :=
  match ct with
  | 0 => d == 1 || d == 2 || d == 4 || d == 8 || d == 16
  | 2 => d == 8 || d == 16
  | 3 => d == 1 || d == 2 || d == 4 || d == 8
  | 4 => d == 8 || d == 16
  | 6 => d == 8 || d == 16
  | _ => false

/-- The filter distance in bytes (44_filter_decode.md R192). -/
def strideOf (bpp d : Nat) : Nat := if d == 8 then bpp else if d == 16 then 2 * bpp else 1

/-- `bw(w)`: bytes of a row of `w` pixels, without its filter tag (44_filter_decode.md R193). -/
def byteWidth (bpp d w : Nat) : Nat := ceilDiv (w * bpp * d) 8

/-! ## Session set-up (44_filter_decode.md R194, R195) -/

/-- What `setup()` latches. -/
structure Setup where
  passes : List Pass
  bpp    : Nat
  depth  : Nat
  stride : Nat
  deriving DecidableEq, Repr

/-- The passes of a geometry that have rows, numbered from `k` (44_filter_decode.md R195). -/
def rowPasses : Nat → List PassGeom → List Pass
  | _, [] => []
  | k, q :: rest =>
    if q.pw > 0 && q.ph > 0 then { idx := k, pw := q.pw, ph := q.ph } :: rowPasses (k + 1) rest
    else rowPasses (k + 1) rest

/-- `passList` (44_filter_decode.md R195): CAPACITY if a pass has a row wider than `MAX_ROW_BYTES`. -/
def passList (s : State) (g : List PassGeom) (bpp d : Nat) : Except ErrCode (List Pass) :=
  let l := rowPasses 0 g
  if l.all (fun p => byteWidth bpp d p.pw ≤ s.params.maxRowBytes) then .ok l else .error .capacity

/-- `setup()` (44_filter_decode.md R194): zero size, colour type, depth, then the pass list. -/
def setup (s : State) : Except ErrCode Setup :=
  match geometry s with
  | .error e => .error e
  | .ok g =>
    match samplesPerPixel s.colorType with
    | none => .error .format
    | some bpp =>
      if depthAllowed s.colorType s.bitDepth then
        match passList s g bpp s.bitDepth with
        | .error e => .error e
        | .ok l =>
          .ok { passes := l, bpp := bpp, depth := s.bitDepth, stride := strideOf bpp s.bitDepth }
      else .error .format

/-! ## Pass entry and row advance (44_filter_decode.md R196) -/

/-- `enterPass(i)`. -/
def Filt.enterPass (f : Filt) (i : Nat) : Filt :=
  { f with pi := i, row := 0, bw := byteWidth f.bpp f.depth (f.pass i).pw, hasPrev := false, prev := [] }

/-- `complete()`. -/
def Filt.complete (f : Filt) : Filt :=
  { f with mode := .done, pi := 0, row := 0, bw := 0, hasPrev := false, prev := [] }

/-- `advance(r)`, with `r` the row's unfiltered bytes. -/
def Filt.advance (f : Filt) (r : List Byte) : Filt :=
  if f.row + 1 == (f.pass f.pi).ph then
    if f.pi + 1 < f.passes.length then f.enterPass (f.pi + 1) else f.complete
  else { f with prev := r, hasPrev := true, row := f.row + 1 }

/-- A new session: the latched configuration, the filter selection, the mode, and pass 0 entered
(44_filter_decode.md R200, 45_filter_encode.md R220). -/
def Filt.startSession (f : Filt) (c : Setup) (sel : BitVec 4) (m : FiltMode) : Filt :=
  Filt.enterPass
    { f with passes := c.passes, bpp := c.bpp, depth := c.depth, stride := c.stride, sel := sel,
             mode := m } 0

/-! ## Neighbours and predictors (44_filter_decode.md R197-R199) -/

/-- The byte one stride to the left of position `x` in a row, 0 at the row's start: `a(x)` of the current
row, and `c(x)` of the previous one. -/
def leftByte (row : List Byte) (stride x : Nat) : Byte :=
  if x ≥ stride then row.getD (x - stride) 0#8 else 0#8

/-- `b(x)`: the previous row's byte, 0 if there is no previous row. -/
def Filt.up (f : Filt) (x : Nat) : Byte := if f.hasPrev then f.prev.getD x 0#8 else 0#8

/-- `c(x)`: the previous row's byte one stride to the left, 0 if there is none. -/
def Filt.upLeft (f : Filt) (x : Nat) : Byte := if f.hasPrev then leftByte f.prev f.stride x else 0#8

/-- The Paeth predictor, at full precision (44_filter_decode.md R198). -/
def paeth (a b c : Byte) : Byte :=
  let p : Int := (a.toNat : Int) + (b.toNat : Int) - (c.toNat : Int)
  let pa := (p - (a.toNat : Int)).natAbs
  let pb := (p - (b.toNat : Int)).natAbs
  let pc := (p - (c.toNat : Int)).natAbs
  if pa ≤ pb && pa ≤ pc then a else if pb ≤ pc then b else c

/-- The filter types (44_filter_decode.md R199). -/
inductive FilterType where
  | none | sub | up | average | paeth
  deriving DecidableEq, Repr

/-- The tag of a filter type on the wire. -/
def FilterType.tag : FilterType → Byte
  | .none => 0#8
  | .sub => 1#8
  | .up => 2#8
  | .average => 3#8
  | .paeth => 4#8

/-- The filter types in ascending order of their tags. -/
def FilterType.all : List FilterType := [.none, .sub, .up, .average, .paeth]

/-- The filter type of a tag; none for a tag above 4 (44_filter_decode.md R201). -/
def FilterType.ofTag? (t : Byte) : Option FilterType := FilterType.all.find? (fun f => f.tag == t)

/-- The predictor mux (44_filter_decode.md R199); the Average sum is not reduced before halving. -/
def pred (t : FilterType) (a b c : Byte) : Byte :=
  match t with
  | .none => 0#8
  | .sub => a
  | .up => b
  | .average => BitVec.ofNat 8 ((a.toNat + b.toNat) / 2)
  | .paeth => Machine.paeth a b c

/-- The predictor of a row at position `x`, with the left neighbour taken from `row`. -/
def Filt.predict (f : Filt) (t : FilterType) (row : List Byte) (x : Nat) : Byte :=
  pred t (leftByte row f.stride x) (f.up x) (f.upLeft x)

end Sys2Proof.Machine
end

