-- ==== Sys2Proof/Machine/FilterDecode.lean ====
section
/-! DEFINITION. The decode commands of the filter unit (spec/44_filter_decode.md R200-R203). -/

namespace Sys2Proof.Machine

/-- The decode loop of `FDEC_ROW` (44_filter_decode.md R201) from a partly built output row: each output
byte is the raw byte plus its predictor, modulo 256, with the left neighbour taken from the output. -/
def Filt.unfilterFrom (f : Filt) (t : FilterType) : List Byte → List Byte → List Byte
  | out, [] => out
  | out, r :: raw => Filt.unfilterFrom f t (out ++ [r + f.predict t out out.length]) raw

/-- The unfiltered row of a raw row. -/
def Filt.unfilter (f : Filt) (t : FilterType) (raw : List Byte) : List Byte := f.unfilterFrom t [] raw

/-- `FDEC_START` (44_filter_decode.md R200). -/
def execFdecStart (a : Args) (s : State) : Result :=
  command .fdecStart a s <|
    orRaise s (setup s) fun c => respondOk { s with filt := s.filt.startSession c 15#4 .decode } []

/-- The body of `FDEC_ROW` once the session and the row length are right (44_filter_decode.md R201). The
payload is not empty there, since its length is the byteWidth plus 1. -/
def decodeRow (s : State) (p : List Byte) : Result :=
  match p with
  | [] => raise s .length
  | tag :: raw =>
    match FilterType.ofTag? tag with
    | none => raise s .format
    | some t =>
      let out := s.filt.unfilter t raw
      respondOk { s with filt := s.filt.advance out } out

/-- `FDEC_ROW` (44_filter_decode.md R201). -/
def execFdecRow (a : Args) (s : State) : Result :=
  command .fdecRow a s <|
    match s.filt.mode with
    | .idle => raise s .state
    | .encode => raise s .state
    | .done => raise s .trailing
    | .decode =>
      if a.arg.toNat == s.filt.bw + 1 then decodeRow s a.payload else raise s .length

/-- `FILT_PAETH` (44_filter_decode.md R202). -/
def execFiltPaeth (a : Args) (s : State) : Result :=
  command .filtPaeth a s <|
    respondOk s [paeth (a.payload.getD 0 0#8) (a.payload.getD 1 0#8) (a.payload.getD 2 0#8)]

end Sys2Proof.Machine
end

