-- ==== Sys2Proof/Machine/FilterEncode.lean ====
section
/-! DEFINITION. The encode commands of the filter unit (spec/45_filter_encode.md). -/

namespace Sys2Proof.Machine

/-- The candidate row from position `x` on: each raw byte minus its predictor, modulo 256, with every
neighbour taken from unfiltered bytes (45_filter_encode.md R221). -/
def Filt.filterFrom (f : Filt) (t : FilterType) (row : List Byte) : Nat → List Byte → List Byte
  | _, [] => []
  | x, r :: rest => (r - f.predict t row x) :: Filt.filterFrom f t row (x + 1) rest

/-- The candidate row `F_f` of a raw row (45_filter_encode.md R221). -/
def Filt.filtered (f : Filt) (t : FilterType) (row : List Byte) : List Byte := f.filterFrom t row 0 row

/-- The cost of a filtered row (45_filter_encode.md R222): the sum of `abs(sext_8(b))`. -/
def rowCost (l : List Byte) : Nat := (l.map fun b => b.toInt.natAbs).sum

/-- One turn of the loop of `choose` (45_filter_encode.md R223): a strictly lower cost displaces the best. -/
def Filt.better (f : Filt) (row : List Byte) (best t : FilterType) : FilterType :=
  if rowCost (f.filtered t row) < rowCost (f.filtered best row) then t else best

/-- Automatic selection (45_filter_encode.md R223): None first, then Sub, Up, Average, Paeth. -/
def Filt.chooseAuto (f : Filt) (row : List Byte) : FilterType :=
  [FilterType.sub, .up, .average, .paeth].foldl (f.better row) .none

/-- The filter type a FILTSEL value pins, none where it selects automatically (45_filter_encode.md R223). -/
def pinnedFilter (sel : BitVec 4) : Option FilterType := FilterType.ofTag? (sel.setWidth 8)

/-- `choose(R)` (45_filter_encode.md R223). -/
def Filt.choose (f : Filt) (row : List Byte) : FilterType :=
  match pinnedFilter f.sel with
  | some t => t
  | none => f.chooseAuto row

/-- The FILTSEL values `FENC_START` accepts (45_filter_encode.md R220). -/
def legalFiltSel (sel : BitVec 4) : Bool := sel.toNat ≤ 4 || sel == 15#4

/-- `FENC_START` (45_filter_encode.md R220). -/
def execFencStart (a : Args) (s : State) : Result :=
  command .fencStart a s <|
    if s.interlace then raise s .format
    else if legalFiltSel s.filtSel then
      orRaise s (setup s) fun c => respondOk { s with filt := s.filt.startSession c s.filtSel .encode } []
    else raise s .format

/-- The body of `FENC_ROW` once the session and the row length are right (45_filter_encode.md R224). -/
def encodeRow (s : State) (row : List Byte) : Result :=
  let t := s.filt.choose row
  respondOk { s with filt := s.filt.advance row } (t.tag :: s.filt.filtered t row)

/-- `FENC_ROW` (45_filter_encode.md R224). -/
def execFencRow (a : Args) (s : State) : Result :=
  command .fencRow a s <|
    match s.filt.mode with
    | .idle => raise s .state
    | .decode => raise s .state
    | .done => raise s .trailing
    | .encode =>
      if a.arg.toNat == s.filt.bw then encodeRow s a.payload else raise s .length

end Sys2Proof.Machine
end

