-- ==== Sys2Proof/Machine/Dispatch.lean ====
section
/-! DEFINITION. The dispatch: one arm per command of the opcode table. -/

namespace Sys2Proof.Machine

def exec (i : Instr) (s : State) : Host.Outcome State Fault Refusal :=
  match i with
  | .ctlNop a => Sys2Proof.Machine.execCtlNop a s
  | .ctlReset a => Sys2Proof.Machine.execCtlReset a s
  | .ctlRdreg r a => Sys2Proof.Machine.execCtlRdreg r a s
  | .ctlWrreg r a => Sys2Proof.Machine.execCtlWrreg r a s
  | .crcInit a => Sys2Proof.Machine.execCrcInit a s
  | .crcUpdate a => Sys2Proof.Machine.execCrcUpdate a s
  | .crcFinish a => Sys2Proof.Machine.execCrcFinish a s
  | .crcCheck a => Sys2Proof.Machine.execCrcCheck a s
  | .crcOneshot a => Sys2Proof.Machine.execCrcOneshot a s
  | .unpkStart a => Sys2Proof.Machine.execUnpkStart a s
  | .unpkLoad last a => Sys2Proof.Machine.execUnpkLoad last a s
  | .unpkGet a => Sys2Proof.Machine.execUnpkGet a s
  | .unpkEndline a => Sys2Proof.Machine.execUnpkEndline a s
  | .unpkEnd a => Sys2Proof.Machine.execUnpkEnd a s
  | .packStart a => Sys2Proof.Machine.execPackStart a s
  | .packPut a => Sys2Proof.Machine.execPackPut a s
  | .packEndline a => Sys2Proof.Machine.execPackEndline a s
  | .packEnd a => Sys2Proof.Machine.execPackEnd a s
  | .a7Passes a => Sys2Proof.Machine.execA7Passes a s
  | .a7Passinfo p a => Sys2Proof.Machine.execA7Passinfo p a s
  | .a7Offset p a => Sys2Proof.Machine.execA7Offset p a s
  | .fdecStart a => Sys2Proof.Machine.execFdecStart a s
  | .fdecRow a => Sys2Proof.Machine.execFdecRow a s
  | .filtPaeth a => Sys2Proof.Machine.execFiltPaeth a s
  | .fencStart a => Sys2Proof.Machine.execFencStart a s
  | .fencRow a => Sys2Proof.Machine.execFencRow a s

end Sys2Proof.Machine
end

