-- ==== Sys2Proof/Machine/Step.lean ====
section
/-! DEFINITION. One step of the machine: it executes the oldest command on the port (00_scope.md R3, R4;
30_encoding.md R90). -/

namespace Sys2Proof.Machine

/-- One step: take the oldest pending command, decode it, and execute it. The block has no step of its own
between commands (00_scope.md R3), so with no command pending nothing changes. -/
def step (s : State) : Host.Outcome State Fault Refusal :=
  match takeCommand s with
  | none => .next s
  | some (c, s') =>
    match decode c with
    | .error why => undecodable c why s'
    | .ok i => exec i s'

/-- The state whose next step executes the command of a table word (log entries 1 and 6). -/
def State.withFetchWord (s : State) (nbits w : Nat) : State := s.issueFirst (tableCommand nbits w)

end Sys2Proof.Machine
end

