-- ==== Sys2Proof/Machine/Assembly.lean ====
section
/-! DEFINITION. The assembly forms of 30_encoding.md R93 as decoded commands, the expansions of the
pseudo-instructions of R94, and the text of a command. A pseudo-instruction is a list of commands, not a
command. -/

namespace Sys2Proof.Machine.Asm

/-- Arguments of a command of kind Z. -/
def noArgs : Args := { arg := 0#20, payload := [] }

/-- Arguments of a command of kind L, E or F(n): `ARG` is the payload's length. -/
def bytesArgs (p : List Byte) : Args := { arg := BitVec.ofNat 20 p.length, payload := p }

/-- Arguments of a command of kind C. -/
def countArgs (n : Nat) : Args := { arg := BitVec.ofNat 20 n, payload := [] }

/-! ## One command per form (30_encoding.md R93) -/

/-- `ctl.nop` -/
def ctlNop : Instr := .ctlNop noArgs
/-- `ctl.reset` -/
def ctlReset : Instr := .ctlReset noArgs
/-- `ctl.rdreg <reg>` -/
def ctlRdreg (r : Reg) : Instr := .ctlRdreg r noArgs
/-- `ctl.wrreg <reg>, <u32>` -/
def ctlWrreg (r : Reg) (v : Word) : Instr := .ctlWrreg r (bytesArgs (be 4 v.toNat))
/-- `crc.init` -/
def crcInit : Instr := .crcInit noArgs
/-- `crc.update <bytes>` -/
def crcUpdate (p : List Byte) : Instr := .crcUpdate (bytesArgs p)
/-- `crc.finish` -/
def crcFinish : Instr := .crcFinish noArgs
/-- `crc.check <u32>` -/
def crcCheck (v : Word) : Instr := .crcCheck (bytesArgs (be 4 v.toNat))
/-- `crc.oneshot <bytes>` -/
def crcOneshot (p : List Byte) : Instr := .crcOneshot (bytesArgs p)
/-- `unpk.start` -/
def unpkStart : Instr := .unpkStart noArgs
/-- `unpk.load <bytes>` -/
def unpkLoad (p : List Byte) : Instr := .unpkLoad false (bytesArgs p)
/-- `unpk.load.last <bytes>` -/
def unpkLoadLast (p : List Byte) : Instr := .unpkLoad true (bytesArgs p)
/-- `unpk.get <n>` -/
def unpkGet (n : Nat) : Instr := .unpkGet (countArgs n)
/-- `unpk.endline` -/
def unpkEndline : Instr := .unpkEndline noArgs
/-- `unpk.end` -/
def unpkEnd : Instr := .unpkEnd noArgs
/-- `pack.start` -/
def packStart : Instr := .packStart noArgs
/-- `pack.put <s,…>`: each sample is sent as `BE_2`. -/
def packPut (l : List Nat) : Instr := .packPut (bytesArgs (l.flatMap (be 2)))
/-- `pack.endline` -/
def packEndline : Instr := .packEndline noArgs
/-- `pack.end` -/
def packEnd : Instr := .packEnd noArgs
/-- `a7.passes` -/
def a7Passes : Instr := .a7Passes noArgs
/-- `a7.passinfo <p>` -/
def a7Passinfo (p : BitVec 3) : Instr := .a7Passinfo p noArgs
/-- `a7.offset <p>, <x>, <y>` -/
def a7Offset (p : BitVec 3) (x y : Word) : Instr :=
  .a7Offset p (bytesArgs (be 4 x.toNat ++ be 4 y.toNat))
/-- `fdec.start` -/
def fdecStart : Instr := .fdecStart noArgs
/-- `fdec.row <tag>, <bytes>` -/
def fdecRow (tag : Byte) (p : List Byte) : Instr := .fdecRow (bytesArgs (tag :: p))
/-- `filt.paeth <a>, <b>, <c>` -/
def filtPaeth (a b c : Byte) : Instr := .filtPaeth (bytesArgs [a, b, c])
/-- `fenc.start` -/
def fencStart : Instr := .fencStart noArgs
/-- `fenc.row <bytes>` -/
def fencRow (p : List Byte) : Instr := .fencRow (bytesArgs p)

/-! ## Pseudo-instructions (30_encoding.md R94) -/

/-- A byte list in consecutive pieces of at most `maxPayload` bytes, full pieces first; one piece if it
fits (log entry 8). `fuel` bounds the number of cuts, and the length of the list is always enough. -/
def pieces : Nat → List Byte → List (List Byte)
  | 0, l => [l]
  | fuel + 1, l =>
    if l.length ≤ maxPayload then [l] else l.take maxPayload :: pieces fuel (l.drop maxPayload)

/-- `crc.update` of a list of any length. -/
def crcUpdates (p : List Byte) : List Instr := (pieces p.length p).map crcUpdate

/-- `ctl.config W, H, F` -/
def ctlConfig (w h f : Word) : List Instr := [ctlWrreg .width w, ctlWrreg .height h, ctlWrreg .format f]

/-- `crc.chunk <type4>, <data>, <crc>` -/
def crcChunk (type4 data : List Byte) (crc : Word) : List Instr :=
  [crcInit] ++ crcUpdates (type4 ++ data) ++ [crcCheck crc]

/-- `unpk.row <n>` -/
def unpkRow (n : Nat) : List Instr := [unpkGet n, unpkEndline]

/-- `pack.row <s,…>` -/
def packRow (l : List Nat) : List Instr := [packPut l, packEndline]

/-- Loads of the given pieces; only the last one takes `.last`, and only if `last` is set. -/
def loadPieces (last : Bool) : List (List Byte) → List Instr
  | [] => []
  | [p] => [.unpkLoad last (bytesArgs p)]
  | p :: q :: rest => unpkLoad p :: loadPieces last (q :: rest)

/-- `unpk.load <bytes>` (`.last` if `last`) of a list of any length. -/
def unpkLoads (last : Bool) (p : List Byte) : List Instr := loadPieces last (pieces p.length p)

/-! ## Assembly text (30_encoding.md R93) -/

/-- The name of a register (10_state.md R22). -/
def regName : Reg → String
  | .id => "ID"
  | .ctrl => "CTRL"
  | .status => "STATUS"
  | .width => "WIDTH"
  | .height => "HEIGHT"
  | .format => "FORMAT"
  | .crcState => "CRC_STATE"
  | .unpkLevel => "UNPK_LEVEL"
  | .unpkCur => "UNPK_CUR"
  | .packAcc => "PACK_ACC"
  | .filtPos => "FILT_POS"
  | .filtRow => "FILT_ROW"
  | .filtByteWidth => "FILT_BYTEWIDTH"

/-- Numbers in decimal, separated by commas. -/
def numbers (l : List Nat) : String := String.intercalate ", " (l.map Nat.repr)

/-- `<bytes>`: a byte list in decimal. -/
def bytesText (p : List Byte) : String := "[" ++ numbers (p.map BitVec.toNat) ++ "]"

/-- The assembly line of a decoded command; none for a badly framed one or an `FDEC_ROW` without a tag, which
no line spells. -/
def lineOf (i : Instr) : Option String :=
  if framed i.op.kind i.args && !(i.op == .fdecRow && i.args.payload.isEmpty) then
    some <| match i with
      | .ctlNop _ => "ctl.nop"
      | .ctlReset _ => "ctl.reset"
      | .ctlRdreg r _ => "ctl.rdreg " ++ regName r
      | .ctlWrreg r a => "ctl.wrreg " ++ regName r ++ ", " ++ Nat.repr (unBE a.payload)
      | .crcInit _ => "crc.init"
      | .crcUpdate a => "crc.update " ++ bytesText a.payload
      | .crcFinish _ => "crc.finish"
      | .crcCheck a => "crc.check " ++ Nat.repr (unBE a.payload)
      | .crcOneshot a => "crc.oneshot " ++ bytesText a.payload
      | .unpkStart _ => "unpk.start"
      | .unpkLoad last a => (if last then "unpk.load.last " else "unpk.load ") ++ bytesText a.payload
      | .unpkGet a => "unpk.get " ++ Nat.repr a.arg.toNat
      | .unpkEndline _ => "unpk.endline"
      | .unpkEnd _ => "unpk.end"
      | .packStart _ => "pack.start"
      | .packPut a => "pack.put " ++ numbers (samplesOf a.payload)
      | .packEndline _ => "pack.endline"
      | .packEnd _ => "pack.end"
      | .a7Passes _ => "a7.passes"
      | .a7Passinfo p _ => "a7.passinfo " ++ Nat.repr p.toNat
      | .a7Offset p a =>
        "a7.offset " ++ numbers [p.toNat, unBE (a.payload.take 4), unBE (a.payload.drop 4)]
      | .fdecStart _ => "fdec.start"
      | .fdecRow a =>
        "fdec.row " ++ numbers ((a.payload.take 1).map BitVec.toNat) ++ ", " ++ bytesText (a.payload.drop 1)
      | .filtPaeth a => "filt.paeth " ++ numbers (a.payload.map BitVec.toNat)
      | .fencStart _ => "fenc.start"
      | .fencRow a => "fenc.row " ++ bytesText a.payload
  else none

end Sys2Proof.Machine.Asm
end

