-- ==== Sys2Proof/Safety.lean ====
section
/-! DEFINITION. What counts as a safe state and a run, in the terms the statements use: the invariants of
10_state.md R48 and the field ranges of R38-R40, the reachable states, and reference forms of two of the
block's functions. -/

namespace Sys2Proof.Machine

/-! ## Invariants -/

/-- The unpacker's ranges (10_state.md R38) and the clauses (1)-(3) of R48. -/
abbrev Unpk.Inv (p : Params) (u : Unpk) : Prop :=
  (u.active = false → u.buf = [] ∧ u.eos = false ∧ u.rem = 0 ∧ u.depth = 0 ∧ u.cur = 0#8) ∧
  (u.active = true → legalDepth u.depth = true) ∧
  u.buf.length ≤ p.unpkBufBytes ∧
  (8 ≤ u.depth → u.rem = 0) ∧
  (u.depth < 8 → u.rem ≤ 8 / u.depth - 1)

/-- The packer's ranges (10_state.md R39) and the clauses (4) and (5) of R48. -/
abbrev Pack.Inv (k : Pack) : Prop :=
  (k.active = false → k.bits = 0 ∧ k.depth = 0) ∧
  (k.active = true → legalDepth k.depth = true) ∧
  (k.depth < 8 → k.bits % k.depth = 0 ∧ k.bits < 8) ∧
  (8 ≤ k.depth → k.bits = 0) ∧
  k.acc < 2 ^ k.bits

/-- A pass that may stand in the filter's pass list (10_state.md R40, 44_filter_decode.md R195). -/
abbrev Pass.Inv (p : Params) (bpp d : Nat) (q : Pass) : Prop :=
  0 < q.pw ∧ q.pw < 2 ^ 32 ∧ 0 < q.ph ∧ q.ph < 2 ^ 32 ∧ q.idx ≤ 6 ∧ byteWidth bpp d q.pw ≤ p.maxRowBytes

/-- The filter unit's ranges (10_state.md R40, R41) and the clauses (6) and (7) of R48. -/
abbrev Filt.Inv (p : Params) (f : Filt) : Prop :=
  (f.mode.inSession = true → f.pi < f.passes.length ∧ f.row < (f.pass f.pi).ph) ∧
  (f.hasPrev = true → f.prev.length = f.bw ∧ 1 ≤ f.row) ∧
  (f.hasPrev = false → f.prev = [] ∧ f.row = 0) ∧
  (f.mode.inSession = false → f.pi = 0 ∧ f.row = 0 ∧ f.bw = 0 ∧ f.hasPrev = false) ∧
  (f.mode.inSession = true →
    f.bw = byteWidth f.bpp f.depth (f.pass f.pi).pw ∧ 1 ≤ f.bpp ∧ f.bpp ≤ 4 ∧
    legalDepth f.depth = true ∧ f.stride = strideOf f.bpp f.depth) ∧
  (∀ q ∈ f.passes, q.Inv p f.bpp f.depth) ∧
  f.passes.length ≤ 7 ∧
  legalFiltSel f.sel = true

/-- The register part: clause (8) of 10_state.md R48, an ERRCODE that 60_exceptions.md R241 can latch, and
reserved bits of CTRL and FORMAT that read 0 (10_state.md R24, R28). -/
abbrev State.RegInv (s : State) : Prop :=
  (s.halt = false ↔ s.errcode = 0#4) ∧ s.errcode.toNat ≤ 9 ∧
  s.ctrl &&& ~~~(1#32) = 0#32 ∧ s.format &&& ~~~formatMask = 0#32

/-- The invariant of the machine. -/
abbrev State.Inv (s : State) : Prop :=
  s.params.Legal ∧ s.RegInv ∧ s.unpk.Inv s.params ∧ s.pack.Inv ∧ s.filt.Inv s.params

/-! ## Runs -/

/-- The states a block with parameters `p` reaches: from reset, the host may put any commands on the port
between steps (00_scope.md R3), and each step executes one. -/
inductive Reachable (p : Params) : State → Prop where
  | start : Reachable p (State.resetOf p)
  | issue {s : State} (q : List Command) : Reachable p s → Reachable p { s with port := q }
  | step {s t : State} : Reachable p s → step s = .next t → Reachable p t

/-- Rows the filter session still expects (44_filter_decode.md R203). -/
def Filt.rowsLeft (f : Filt) : Nat :=
  if f.mode.inSession then
    ((f.pass f.pi).ph - f.row) + ((f.passes.drop (f.pi + 1)).map Pass.ph).sum
  else 0

/-- Executing a list of decoded commands in order, as one run of the machine's `exec`. -/
def runAll : List Instr → State → Host.Outcome State Fault Refusal
  | [], s => .next s
  | i :: rest, s =>
    match exec i s with
    | .next t => runAll rest t
    | .fault r => .fault r
    | .refused r => .refused r

/-! ## Reference forms -/

/-- What each ARG kind asks of `ARG` and the payload, in words of 30_encoding.md R82. -/
abbrev FramingRule (k : ArgKind) (a : Args) : Prop :=
  match k with
  | .z => a.arg = 0#20 ∧ a.payload = []
  | .l => a.payload.length = a.arg.toNat
  | .e => a.payload.length = a.arg.toNat ∧ a.arg.toNat % 2 = 0
  | .f n => a.arg.toNat = n ∧ a.payload.length = n
  | .c => a.payload = []

/-- The MOD values 30_encoding.md R83 gives a meaning, for each operation: a slot 0-12, LAST, a pass, or 0. -/
abbrev ModRule (o : Op) (m : BitVec 4) : Prop :=
  match o with
  | .ctlRdreg | .ctlWrreg => m.toNat ≤ 12
  | .unpkLoad => m.toNat ≤ 1
  | .a7Passinfo | .a7Offset => m.toNat ≤ 7
  | .ctlNop | .ctlReset | .crcInit | .crcUpdate | .crcFinish | .crcCheck | .crcOneshot
  | .unpkStart | .unpkGet | .unpkEndline | .unpkEnd | .packStart | .packPut | .packEndline | .packEnd
  | .a7Passes | .fdecStart | .fdecRow | .filtPaeth | .fencStart | .fencRow => m = 0#4

/-- The reflected CRC-32 one bit at a time, least significant bit of the byte first: each bit meets the
low bit of the state, then the state takes one round. -/
def crcBitSerial (s : Word) (b : Byte) : Word :=
  (List.range 8).foldl (fun c i => crcRound (c ^^^ (BitVec.ofBool (b.getLsbD i)).setWidth 32)) s

/-- The samples of a byte at a depth below 8, from the most significant end (42_bitpack.md R141). -/
def byteSamples (d : Nat) (b : Byte) : List Nat :=
  (List.range (8 / d)).map fun k => b.toNat / 2 ^ (8 - d * (k + 1)) % 2 ^ d

end Sys2Proof.Machine
end

