-- ==== Sys2Proof/Certificates/Slice0/Obligations.lean ====
section
/-! DEFINITION. The statements for the provers. Each docstring names the rule of spec/ it formalises.
A command stands at the head of `State.port` and the response to it in `State.resp`: that is how the model
carries the input and the output of the spec's `step(S, cmd) -> (S', rsp)` (log entries 1 and 2), in every
statement. Statements use no value of the parameters unless they say so (log entry 3).
`Asm.noArgs` is `ARG = 0` with an empty payload, and `Asm.bytesArgs p` is `ARG = |p|` with payload `p`. -/

open Sys2Proof Sys2Proof.Machine

/-! ## Encoding -/

/-- Decoding the encoding of any decoded command gives it back, with every operand at every value (R81,
R83, R86). -/
def Obligations.DecodeOfEncodeIsTheCommand : Prop :=
  ∀ i : Instr, decode (encode i) = .ok i

/-- A command that decodes is the encoding of what it decodes to: no header bit and no payload byte is
ignored (R81, R88, R91). -/
def Obligations.DecodedCommandIsItsEncoding : Prop :=
  ∀ (c : Command) (i : Instr), decode c = .ok i → encode i = c

/-- The five command examples and the three response examples of R95, which the spec derives from R81-R86. -/
def Obligations.EncodingExamples : Prop :=
  decode ⟨0x11000004#32, [0x49#8, 0x45#8, 0x4E#8, 0x44#8]⟩
      = .ok (.crcUpdate ⟨4#20, [0x49#8, 0x45#8, 0x4E#8, 0x44#8]⟩) ∧
  decode ⟨0x21100001#32, [0x1B#8]⟩ = .ok (.unpkLoad true ⟨1#20, [0x1B#8]⟩) ∧
  decode ⟨0x42600008#32, [0#8, 0#8, 0#8, 9#8, 0#8, 0#8, 0#8, 4#8]⟩
      = .ok (.a7Offset 6#3 ⟨8#20, [0#8, 0#8, 0#8, 9#8, 0#8, 0#8, 0#8, 4#8]⟩) ∧
  decode ⟨0x03500004#32, [0#8, 1#8, 0#8, 8#8]⟩ = .ok (.ctlWrreg .format ⟨4#20, [0#8, 1#8, 0#8, 8#8]⟩) ∧
  decode ⟨0x51000004#32, [4#8, 1#8, 2#8, 3#8]⟩ = .ok (.fdecRow ⟨4#20, [4#8, 1#8, 2#8, 3#8]⟩) ∧
  encode (Asm.crcUpdate [0x49#8, 0x45#8, 0x4E#8, 0x44#8])
      = ⟨0x11000004#32, [0x49#8, 0x45#8, 0x4E#8, 0x44#8]⟩ ∧
  encode (Asm.unpkLoadLast [0x1B#8]) = ⟨0x21100001#32, [0x1B#8]⟩ ∧
  encode (Asm.a7Offset 6#3 9#32 4#32)
      = ⟨0x42600008#32, [0#8, 0#8, 0#8, 9#8, 0#8, 0#8, 0#8, 4#8]⟩ ∧
  encode (Asm.ctlWrreg .format 0x00010008#32) = ⟨0x03500004#32, [0#8, 1#8, 0#8, 8#8]⟩ ∧
  encode (Asm.fdecRow 4#8 [1#8, 2#8, 3#8]) = ⟨0x51000004#32, [4#8, 1#8, 2#8, 3#8]⟩ ∧
  (∀ d : List Byte, d.length = 4 → (Response.ok d).header = 0x00000004#32) ∧
  (Response.err .integrity).header = 0x82000000#32 ∧
  Response.wait.header = 0x40000000#32

/-- R93: the header of every assembly form, with its operands (a length, a register, a pass, a count). -/
def Obligations.HeadersOfTheAssemblyForms : Prop :=
  (encode Asm.ctlNop).header = 0x00000000#32 ∧
  (encode Asm.ctlReset).header = 0x01000000#32 ∧
  (∀ r : Reg, (encode (Asm.ctlRdreg r)).header = BitVec.ofNat 32 (0x02000000 + r.index.toNat * 2 ^ 20)) ∧
  (∀ (r : Reg) (v : Word),
    encode (Asm.ctlWrreg r v) = ⟨BitVec.ofNat 32 (0x03000004 + r.index.toNat * 2 ^ 20), be 4 v.toNat⟩) ∧
  (encode Asm.crcInit).header = 0x10000000#32 ∧
  (∀ p : List Byte, p.length ≤ maxPayload →
    encode (Asm.crcUpdate p) = ⟨BitVec.ofNat 32 (0x11000000 + p.length), p⟩ ∧
    encode (Asm.crcOneshot p) = ⟨BitVec.ofNat 32 (0x14000000 + p.length), p⟩ ∧
    encode (Asm.unpkLoad p) = ⟨BitVec.ofNat 32 (0x21000000 + p.length), p⟩ ∧
    encode (Asm.unpkLoadLast p) = ⟨BitVec.ofNat 32 (0x21100000 + p.length), p⟩ ∧
    encode (Asm.fencRow p) = ⟨BitVec.ofNat 32 (0x61000000 + p.length), p⟩) ∧
  (encode Asm.crcFinish).header = 0x12000000#32 ∧
  (∀ v : Word, encode (Asm.crcCheck v) = ⟨0x13000004#32, be 4 v.toNat⟩) ∧
  (encode Asm.unpkStart).header = 0x20000000#32 ∧
  (∀ n : Nat, n < 2 ^ 20 → encode (Asm.unpkGet n) = ⟨BitVec.ofNat 32 (0x22000000 + n), []⟩) ∧
  (encode Asm.unpkEndline).header = 0x23000000#32 ∧
  (encode Asm.unpkEnd).header = 0x24000000#32 ∧
  (encode Asm.packStart).header = 0x30000000#32 ∧
  (∀ l : List Nat, 2 * l.length ≤ maxPayload →
    encode (Asm.packPut l) = ⟨BitVec.ofNat 32 (0x31000000 + 2 * l.length), l.flatMap (be 2)⟩) ∧
  (encode Asm.packEndline).header = 0x32000000#32 ∧
  (encode Asm.packEnd).header = 0x33000000#32 ∧
  (encode Asm.a7Passes).header = 0x40000000#32 ∧
  (∀ p : BitVec 3, (encode (Asm.a7Passinfo p)).header = BitVec.ofNat 32 (0x41000000 + p.toNat * 2 ^ 20)) ∧
  (∀ (p : BitVec 3) (x y : Word), encode (Asm.a7Offset p x y)
    = ⟨BitVec.ofNat 32 (0x42000008 + p.toNat * 2 ^ 20), be 4 x.toNat ++ be 4 y.toNat⟩) ∧
  (encode Asm.fdecStart).header = 0x50000000#32 ∧
  (∀ (tag : Byte) (p : List Byte), p.length + 1 ≤ maxPayload →
    encode (Asm.fdecRow tag p) = ⟨BitVec.ofNat 32 (0x51000000 + (p.length + 1)), tag :: p⟩) ∧
  (∀ a b c : Byte, encode (Asm.filtPaeth a b c) = ⟨0x52000003#32, [a, b, c]⟩) ∧
  (encode Asm.fencStart).header = 0x60000000#32

/-- R87, R88: a header whose OPCODE is outside the map (230 values), or whose MOD breaks R83, raises
ILLEGAL on a block that is not halted; every other header decodes, whatever its ARG and payload. -/
def Obligations.ReservedHeadersRaiseIllegal : Prop :=
  ((List.range 256).filter fun n => Op.all.all fun o => o.code != BitVec.ofNat 8 n).length = 230 ∧
  ∀ c : Command,
    ((∃ o : Op, o.code = opcodeField c.header ∧ ModRule o (modField c.header)) → ∃ i, decode c = .ok i) ∧
    ((¬ ∃ o : Op, o.code = opcodeField c.header ∧ ModRule o (modField c.header)) →
      ∀ (s : State) (rest : List Command), s.halt = false → s.port = c :: rest →
        step s = .next { s with port := rest, halt := true, errcode := 7#4, resp := some (.err .illegal) })

/-- R66, and R92 which the spec derives from R82: the transport's bytes of a well-framed command are read
back as that command, with the bytes after it left. -/
def Obligations.TransportReadsBackFramedCommands : Prop :=
  ∀ (i : Instr) (rest : List Byte), i.Framed →
    readCommand ((encode i).toBytes ++ rest) = some (encode i, rest)

/-- R84: the fields of a response header, and that WAIT and ERR carry no data. -/
def Obligations.ResponseHeaderFields : Prop :=
  ∀ r : Response, r.data.length < 2 ^ 24 →
    (r.header.extractLsb' 30 2 = match r with | .ok _ => 0#2 | .wait => 1#2 | .err _ => 2#2) ∧
    r.header.extractLsb' 28 2 = 0#2 ∧
    (r.header.extractLsb' 24 4 = match r with | .ok _ => 0#4 | .wait => 0#4 | .err e => e.code) ∧
    (r.header.extractLsb' 0 24).toNat = r.data.length ∧
    ((r = .wait ∨ ∃ e, r = .err e) → r.data = [])

/-- A host's reader gives back every response the block can produce, as a header and data and as the bytes of a
transport (header big-endian, then the data) with the bytes after it left, and refuses KIND = 11 as malformed
(R66, R84, R91; R92, which the spec derives from R84). -/
def Obligations.ResponsesAreReadBack : Prop :=
  (∀ r : Response, r.data.length < 2 ^ 24 →
    Response.read? r.header r.data = some r ∧
    r.toBytes.take 4 = (List.range 4).map (fun k => r.header.extractLsb' (24 - 8 * k) 8) ∧
    r.toBytes.drop 4 = r.data ∧
    ∀ rest : List Byte, readResponse (r.toBytes ++ rest) = some (r, rest)) ∧
  (∀ (h : Word) (d : List Byte), h.extractLsb' 30 2 = 3#2 → Response.read? h d = none)

/-! ## The common sequence -/

/-- A step takes the oldest command from the port and, if it decodes, is exactly `exec` of the decoded
command on the state without it; with no command pending nothing changes (R3, R90; the port is the
model's own, log entry 1). -/
def Obligations.StepRunsTheDecodedCommand : Prop :=
  (∀ (s : State) (c : Command) (rest : List Command) (i : Instr),
    s.port = c :: rest → decode c = .ok i → step s = exec i { s with port := rest }) ∧
  (∀ s : State, s.port = [] → step s = .next s)

/-- R4, which the spec derives from R3 and R90: every command has exactly one outcome. Each step on a
pending command answers a next state that holds a response and the rest of the port. -/
def Obligations.EveryCommandAnswersOnce : Prop :=
  ∀ (s : State) (c : Command) (rest : List Command), s.port = c :: rest →
    ∃ (t : State) (r : Response), step s = .next t ∧ t.resp = some r ∧ t.port = rest

/-- R243: while halted, every command other than the three is refused before it is decoded, with
KIND = 10, CODE = 10, RLEN = 0, and changes no state; the three still go through decode and framing. -/
def Obligations.HaltedBlockRefusesOtherCommands : Prop :=
  (∀ (s : State) (c : Command) (rest : List Command), s.halt = true → s.port = c :: rest →
    opcodeField c.header ≠ 0x00#8 → opcodeField c.header ≠ 0x01#8 → opcodeField c.header ≠ 0x02#8 →
    step s = .next { s with port := rest, resp := some (.err .halted) }) ∧
  (Response.err .halted).header = 0x8A000000#32 ∧
  (∀ s : State, s.halt = true → ∀ (r : Reg) (a : Args),
    (framed .z a = true →
      exec (.ctlNop a) s = .next { s with resp := some (.ok []) } ∧
      (∃ t, exec (.ctlReset a) s = .next t ∧ t.resp = some (.ok []) ∧ t.halt = false) ∧
      exec (.ctlRdreg r a) s = .next { s with resp := some (.ok (be 4 (readReg s r).toNat)) }) ∧
    (framed .z a = false →
      exec (.ctlNop a) s = .next { s with resp := some (.err .length) } ∧
      exec (.ctlReset a) s = .next { s with resp := some (.err .length) } ∧
      exec (.ctlRdreg r a) s = .next { s with resp := some (.err .length) }))

/-- R250: a command that raises while halted answers its own code, and HALT and ERRCODE stay. The only
such commands are CTL_NOP, CTL_RESET and CTL_RDREG, whose opcodes are 0, 1 and 2. -/
def Obligations.NestedErrorsKeepTheFirstCode : Prop :=
  ∀ (s : State) (c : Command) (rest : List Command), s.halt = true → s.port = c :: rest →
    (opcodeField c.header = 0x00#8 ∨ opcodeField c.header = 0x01#8 ∨ opcodeField c.header = 0x02#8) →
    ((∀ i, decode c ≠ .ok i) →
      step s = .next { s with port := rest, resp := some (.err .illegal) }) ∧
    (∀ i, decode c = .ok i → ¬ FramingRule i.op.kind i.args →
      step s = .next { s with port := rest, resp := some (.err .length) })

/-- R89: a command that is not refused and breaks its ARG kind raises LENGTH, whatever it is. -/
def Obligations.MisframedCommandsRaiseLength : Prop :=
  ∀ (i : Instr) (s : State), s.halt = false → ¬ FramingRule i.op.kind i.args →
    exec i s = .next { s with halt := true, errcode := 9#4, resp := some (.err .length) }

/-- R241, R242: an error leaves every unit, register and buffer as it was, latches HALT and, if the block
was not halted, its own code, and its response has KIND ERR, that code and no data. The one exception is
CRC_MISMATCH: INTEGRITY comes from CRC_CHECK only and sets it, and every other error leaves it. -/
def Obligations.ErrorsArePrecise : Prop :=
  (∀ e : ErrCode, (Response.err e).header = BitVec.ofNat 32 (0x80000000 + e.code.toNat * 2 ^ 24)) ∧
  ∀ (s t : State) (c : Command) (rest : List Command) (e : ErrCode),
    s.port = c :: rest → step s = .next t → t.resp = some (.err e) →
    t = { s with
          port := rest
          halt := true
          errcode := if s.halt then s.errcode else e.code
          crcMismatch := t.crcMismatch
          resp := some (.err e) } ∧
    (e = .integrity → t.crcMismatch = true ∧ ∃ a, decode c = .ok (.crcCheck a)) ∧
    (e ≠ .integrity → t.crcMismatch = s.crcMismatch)

/-- R246: WAIT comes from UNPK_GET only, changes no state and does not halt. -/
def Obligations.WaitChangesNothing : Prop :=
  ∀ (s t : State) (c : Command) (rest : List Command),
    s.port = c :: rest → step s = .next t → t.resp = some .wait →
    t = { s with port := rest, resp := some .wait } ∧ s.halt = false ∧ ∃ a, decode c = .ok (.unpkGet a)

/-- R249: a well-framed CTL_RESET returns every piece of state of a halted block to its reset value and answers
OK. Every other command only answers: nothing of the state changes, and the block stays halted with its error
code. -/
def Obligations.OnlyResetEndsTheHalt : Prop :=
  ∀ (s t : State) (c : Command) (rest : List Command),
    s.halt = true → s.port = c :: rest → step s = .next t →
    (decode c = .ok (.ctlReset Asm.noArgs) →
      t = { State.resetOf t.params with port := t.port, resp := some (.ok []) }) ∧
    (decode c ≠ .ok (.ctlReset Asm.noArgs) → t = { s with port := rest, resp := t.resp })

/-- The configuration registers change only by CTL_WRREG and CTL_RESET, and CTL_WRREG changes no unit, so a
running unit keeps what it latched (R277). No command depends on DPB_BASE (R70). That every command,
CTL_RESET among them, leaves the parameters and the waiting commands is the model's choice (log entries 1
and 4). -/
def Obligations.ConfigurationAndUnitsAreApart : Prop :=
  ∀ (i : Instr) (s t : State), exec i s = .next t →
    t.params = s.params ∧ t.port = s.port ∧
    (i.op ≠ .ctlWrreg → i.op ≠ .ctlReset →
      t.ctrl = s.ctrl ∧ t.width = s.width ∧ t.height = s.height ∧ t.format = s.format) ∧
    (i.op = .ctlWrreg →
      t.crc = s.crc ∧ t.unpk = s.unpk ∧ t.pack = s.pack ∧ t.filt = s.filt ∧
      t.crcMismatch = s.crcMismatch) ∧
    ∀ base : Option Nat,
      exec i { s with params := { s.params with dpbBase := base } }
        = .next { t with params := { t.params with dpbBase := base } }

/-- R81 names the unit of a command by header bits [31:28]. A command other than CTL_RESET changes no unit
but its own: the CRC state, the unpacker, the packer and the filter unit change only by commands of unit
1, 2, 3, and 5 or 6, and CRC_MISMATCH changes only by CRC_CHECK, which sets it (R44). -/
def Obligations.CommandsChangeOnlyTheirUnit : Prop :=
  ∀ (i : Instr) (s t : State), exec i s = .next t → i.op ≠ .ctlReset →
    (t.crc ≠ s.crc → i.op.code.extractLsb' 4 4 = 1#4) ∧
    (t.unpk ≠ s.unpk → i.op.code.extractLsb' 4 4 = 2#4) ∧
    (t.pack ≠ s.pack → i.op.code.extractLsb' 4 4 = 3#4) ∧
    (t.filt ≠ s.filt → i.op.code.extractLsb' 4 4 = 5#4 ∨ i.op.code.extractLsb' 4 4 = 6#4) ∧
    (t.crcMismatch ≠ s.crcMismatch → i.op = .crcCheck ∧ t.crcMismatch = true)

/-- R69: reading a register, CRC_FINISH, CRC_ONESHOT, the A7 commands and FILT_PAETH change no state when
they answer OK, and repeating one gives the same response. -/
def Obligations.QueriesRepeat : Prop :=
  ∀ (i : Instr) (s t : State) (d : List Byte),
    i.op ∈ [Op.ctlRdreg, .crcFinish, .crcOneshot, .a7Passes, .a7Passinfo, .a7Offset, .filtPaeth] →
    exec i s = .next t → t.resp = some (.ok d) →
    t = { s with resp := some (.ok d) } ∧ exec i t = .next t

/-- Column "D length" of R86: the length of the data of every OK response. -/
def Obligations.DataLengthOfEveryAnswer : Prop :=
  ∀ (i : Instr) (s t : State) (d : List Byte), exec i s = .next t → t.resp = some (.ok d) →
    match i with
    | .ctlRdreg _ _ | .crcFinish _ | .crcCheck _ | .crcOneshot _ => d.length = 4
    | .unpkGet a => d.length = 2 * a.arg.toNat
    | .packPut a => d.length ≤ a.arg.toNat
    | .packEndline _ => d.length ≤ 1
    | .a7Passes _ => d.length = 8 ∨ d.length = 56
    | .a7Passinfo _ _ => d.length = 12
    | .a7Offset _ _ => d.length = 8
    | .fdecRow _ => d.length = s.filt.bw
    | .filtPaeth _ => d.length = 1
    | .fencRow _ => d.length = s.filt.bw + 1
    | .ctlNop _ | .ctlReset _ | .ctlWrreg _ _ | .crcInit _ | .crcUpdate _ | .unpkStart _
    | .unpkLoad _ _ | .unpkEndline _ | .unpkEnd _ | .packStart _ | .packEnd _ | .fdecStart _
    | .fencStart _ => d = []

/-! ## Control -/

/-- R110, R111, R270: CTL_NOP answers OK and changes nothing, and CTL_RESET sets the whole state of the block
to the reset state, both from any state, halted or not (the parameters are configuration by R47 and the
port is the model's own, log entry 4). -/
def Obligations.NopAndResetAnswerInEveryState : Prop :=
  ∀ s : State,
    exec Asm.ctlNop s = .next { s with resp := some (.ok []) } ∧
    exec Asm.ctlReset s = .next { State.resetOf s.params with port := s.port, resp := some (.ok []) }

/-- R271: the reset value of every piece of state and of every register slot. -/
def Obligations.ResetValues : Prop :=
  ∀ p : Params,
    Reg.all.map (readReg (State.resetOf p)) =
      [0x44504E47#32, 1#32, 0#32, 0#32, 0#32, 0x0F000000#32, 0xFFFFFFFF#32, 0#32, 0#32, 0#32, 0#32, 0#32,
       0#32] ∧
    (State.resetOf p).halt = false ∧ (State.resetOf p).errcode = 0#4 ∧
    (State.resetOf p).crcMismatch = false ∧ (State.resetOf p).checkCrc = true ∧
    (State.resetOf p).bitDepth = 0 ∧ (State.resetOf p).colorType = 0 ∧
    (State.resetOf p).interlace = false ∧ (State.resetOf p).filtSel = 15#4 ∧
    (State.resetOf p).unpk = ⟨false, 0, [], false, 0#8, 0⟩ ∧
    (State.resetOf p).pack = ⟨false, 0, 0, 0⟩ ∧
    (State.resetOf p).filt = ⟨.idle, [], 0, 0, 0, 0, 0, 0, 15#4, false, []⟩

/-- R112: CTL_RDREG answers the slot's value, most significant byte first, in every state, halted or not, and
changes nothing; the slots 13, 14 and 15 do not decode. The value of ID is the constant (R23), and that of CTRL,
WIDTH, HEIGHT, FORMAT and CRC_STATE is what is stored (R24, R26-R29). -/
def Obligations.ReadRegisterAnswersItsValue : Prop :=
  (∀ (r : Reg) (s : State),
    exec (Asm.ctlRdreg r) s = .next { s with resp := some (.ok (be 4 (readReg s r).toNat)) }) ∧
  (∀ s : State,
    readReg s .id = 0x44504E47#32 ∧ readReg s .ctrl = s.ctrl ∧ readReg s .width = s.width ∧
    readReg s .height = s.height ∧ readReg s .format = s.format ∧ readReg s .crcState = s.crc) ∧
  (∀ (k : Nat) (p : List Byte), 13 ≤ k → k ≤ 15 →
    decode ⟨BitVec.ofNat 32 (0x02000000 + k * 2 ^ 20), p⟩ = .error .reservedSlot)

/-- R25: the bits of STATUS in every state. -/
def Obligations.StatusBits : Prop :=
  ∀ s : State,
    (readReg s .status).getLsbD 0 = s.halt ∧
    (readReg s .status).extractLsb' 1 3 = 0#3 ∧
    (readReg s .status).extractLsb' 4 4 = s.errcode ∧
    (readReg s .status).getLsbD 8 = s.crcMismatch ∧
    (readReg s .status).getLsbD 9 = s.unpk.active ∧
    (readReg s .status).getLsbD 10 = s.unpk.eos ∧
    (readReg s .status).getLsbD 11 = s.pack.active ∧
    (readReg s .status).extractLsb' 12 2
      = (match s.filt.mode with | .idle => 0#2 | .decode => 1#2 | .encode => 2#2 | .done => 3#2) ∧
    (readReg s .status).extractLsb' 14 18 = 0#18

/-- R30-R35: the fields of the view registers, in every state that meets the invariant. -/
def Obligations.ViewRegisterFields : Prop :=
  ∀ s : State, s.Inv →
    (readReg s .unpkLevel).toNat = s.unpk.buf.length ∧
    ((readReg s .unpkCur).extractLsb' 0 8 = s.unpk.cur ∧
      ((readReg s .unpkCur).extractLsb' 8 3).toNat = s.unpk.rem ∧
      (readReg s .unpkCur).extractLsb' 11 5 = 0#5 ∧
      ((readReg s .unpkCur).extractLsb' 16 5).toNat = s.unpk.depth ∧
      (readReg s .unpkCur).extractLsb' 21 11 = 0#11) ∧
    (((readReg s .packAcc).extractLsb' 0 8).toNat = s.pack.acc ∧
      ((readReg s .packAcc).extractLsb' 8 3).toNat = s.pack.bits ∧
      (readReg s .packAcc).extractLsb' 11 5 = 0#5 ∧
      ((readReg s .packAcc).extractLsb' 16 5).toNat = s.pack.depth ∧
      (readReg s .packAcc).extractLsb' 21 11 = 0#11) ∧
    ((s.filt.mode = .decode ∨ s.filt.mode = .encode) →
      (∃ q, s.filt.passes[s.filt.pi]? = some q ∧
        ((readReg s .filtPos).extractLsb' 0 3).toNat = q.idx) ∧
      (readReg s .filtPos).getLsbD 3 = false ∧
      ((readReg s .filtPos).extractLsb' 4 4).toNat = s.filt.stride ∧
      (readReg s .filtPos).getLsbD 8 = s.filt.hasPrev ∧
      (readReg s .filtPos).extractLsb' 9 23 = 0#23 ∧
      (readReg s .filtRow).toNat = s.filt.row ∧
      (readReg s .filtByteWidth).toNat = s.filt.bw) ∧
    ((s.filt.mode = .idle ∨ s.filt.mode = .done) →
      readReg s .filtPos = 0#32 ∧ readReg s .filtRow = 0#32 ∧ readReg s .filtByteWidth = 0#32)

/-- R113: CTL_WRREG writes CTRL.CHECK_CRC, WIDTH, HEIGHT or FORMAT, and raises ILLEGAL for a reserved bit
and for every read-only slot. -/
def Obligations.WriteRegisterWritesOrRefuses : Prop :=
  ∀ (s : State) (v : Word), s.halt = false →
    (v.toNat ≤ 1 → exec (Asm.ctlWrreg .ctrl v) s
      = .next { s with ctrl := (s.ctrl &&& ~~~(1#32)) ||| v, resp := some (.ok []) }) ∧
    (¬ v.toNat ≤ 1 → exec (Asm.ctlWrreg .ctrl v) s
      = .next { s with halt := true, errcode := 7#4, resp := some (.err .illegal) }) ∧
    exec (Asm.ctlWrreg .width v) s = .next { s with width := v, resp := some (.ok []) } ∧
    exec (Asm.ctlWrreg .height v) s = .next { s with height := v, resp := some (.ok []) } ∧
    (v &&& ~~~(0x0F01071F#32) = 0#32 → exec (Asm.ctlWrreg .format v) s
      = .next { s with format := v, resp := some (.ok []) }) ∧
    (v &&& ~~~(0x0F01071F#32) ≠ 0#32 → exec (Asm.ctlWrreg .format v) s
      = .next { s with halt := true, errcode := 7#4, resp := some (.err .illegal) }) ∧
    (∀ r : Reg, r ∈ [Reg.id, .status, .crcState, .unpkLevel, .unpkCur, .packAcc, .filtPos, .filtRow,
        .filtByteWidth] →
      exec (Asm.ctlWrreg r v) s
        = .next { s with halt := true, errcode := 7#4, resp := some (.err .illegal) })

/-- What CTL_WRREG wrote is what CTL_RDREG then answers, byte for byte, and no other slot's value changed
(R22, R112, R113). -/
def Obligations.WrittenRegisterReadsBack : Prop :=
  ∀ (s t : State) (r : Reg) (v : Word), s.Inv → s.halt = false →
    exec (Asm.ctlWrreg r v) s = .next t → t.resp = some (.ok []) →
    exec (Asm.ctlRdreg r) t = .next { t with resp := some (.ok (be 4 v.toNat)) } ∧
    unBE (be 4 v.toNat) = v.toNat ∧
    ∀ q : Reg, q ≠ r → readReg t q = readReg s q

/-- R24, R28: the fields of CTRL and FORMAT that the commands read, by their bit numbers, in every state. -/
def Obligations.ControlAndFormatFields : Prop :=
  ∀ s : State,
    (s.checkCrc = true ↔ s.ctrl.toNat % 2 = 1) ∧
    s.bitDepth = s.format.toNat % 2 ^ 5 ∧
    s.colorType = s.format.toNat / 2 ^ 8 % 2 ^ 3 ∧
    (s.interlace = true ↔ s.format.toNat / 2 ^ 16 % 2 = 1) ∧
    s.filtSel.toNat = s.format.toNat / 2 ^ 24 % 2 ^ 4

/-! ## CRC-32 -/

/-- R122: the empty list, one byte more, and three checksums, which the spec derives by evaluation. -/
def Obligations.ChecksumDefinition : Prop :=
  (∀ s : Word, crcFold s [] = s) ∧
  (∀ (s : Word) (b : Byte) (l : List Byte), crcFold s (b :: l) = crcFold (crcStep s b) l) ∧
  (∀ l : List Byte, crc32 l = crcFold 0xFFFFFFFF#32 l ^^^ 0xFFFFFFFF#32) ∧
  crc32 [] = 0x00000000#32 ∧
  crc32 [0x49#8, 0x45#8, 0x4E#8, 0x44#8] = 0xAE426082#32 ∧
  crc32 [0x31#8, 0x32#8, 0x33#8, 0x34#8, 0x35#8, 0x36#8, 0x37#8, 0x38#8, 0x39#8] = 0xCBF43926#32

/-- R123, R124, R125, R127: what the four CRC commands that never compare do, on a block that is not
halted. -/
def Obligations.CrcCommandsAnswer : Prop :=
  ∀ (s : State) (p : List Byte), s.halt = false → p.length ≤ maxPayload →
    exec Asm.crcInit s = .next { s with crc := 0xFFFFFFFF#32, resp := some (.ok []) } ∧
    exec (Asm.crcUpdate p) s = .next { s with crc := crcFold s.crc p, resp := some (.ok []) } ∧
    exec Asm.crcFinish s
      = .next { s with resp := some (.ok (be 4 (s.crc ^^^ 0xFFFFFFFF#32).toNat)) } ∧
    exec (Asm.crcOneshot p) s = .next { s with resp := some (.ok (be 4 (crc32 p).toNat)) }

/-- R126: CRC_CHECK compares, records a mismatch, and raises INTEGRITY for one if CHECK_CRC is 1. -/
def Obligations.CrcCheckComparesAndRecords : Prop :=
  ∀ (s : State) (v : Word), s.halt = false →
    (s.crc ^^^ 0xFFFFFFFF#32 = v →
      exec (Asm.crcCheck v) s = .next { s with resp := some (.ok (be 4 v.toNat)) }) ∧
    (s.crc ^^^ 0xFFFFFFFF#32 ≠ v → s.ctrl.getLsbD 0 = false →
      exec (Asm.crcCheck v) s = .next { s with
        crcMismatch := true
        resp := some (.ok (be 4 (s.crc ^^^ 0xFFFFFFFF#32).toNat)) }) ∧
    (s.crc ^^^ 0xFFFFFFFF#32 ≠ v → s.ctrl.getLsbD 0 = true →
      exec (Asm.crcCheck v) s = .next { s with
        crcMismatch := true, halt := true, errcode := 2#4, resp := some (.err .integrity) })

/-- Folding is incremental (R129, which the spec derives from R122), and any split of a byte sequence over
consecutive CRC_UPDATE commands gives the state of one fold over the whole sequence. -/
def Obligations.ChecksumSplitsAnywhere : Prop :=
  (∀ (s : Word) (l m : List Byte), crcFold s (l ++ m) = crcFold (crcFold s l) m) ∧
  (∀ (s : State) (p : List Byte) (ps : List (List Byte)), s.halt = false →
    (∀ q ∈ p :: ps, q.length ≤ maxPayload) →
    runAll ((p :: ps).map Asm.crcUpdate) s
      = .next { s with crc := crcFold s.crc (p :: ps).flatten, resp := some (.ok []) })

/-- R130: changing any single byte of a list changes its checksum. -/
def Obligations.SingleByteChangesAreDetected : Prop :=
  ∀ (l : List Byte) (i : Nat) (b : Byte), i < l.length → l[i]? ≠ some b → crc32 (l.set i b) ≠ crc32 l

/-- The table-driven step of R120 and R121 is the bit-serial reflected CRC, bits taken least significant
first. -/
def Obligations.TableStepIsTheBitSerialStep : Prop :=
  ∀ (s : Word) (b : Byte), crcStep s b = crcBitSerial s b

/-! ## Unpacker and packer -/

/-- R142, R148: UNPK_START and PACK_START latch a legal depth and clear their unit, active or not, and
raise FORMAT for any other depth. -/
def Obligations.BitUnitStartsLatchTheDepth : Prop :=
  ∀ s : State, s.halt = false →
    (s.bitDepth ∈ [1, 2, 4, 8, 16] →
      exec Asm.unpkStart s = .next { s with
        unpk := { active := true, depth := s.bitDepth, buf := [], eos := false, cur := 0#8, rem := 0 }
        resp := some (.ok []) } ∧
      exec Asm.packStart s = .next { s with
        pack := { active := true, depth := s.bitDepth, acc := 0, bits := 0 }
        resp := some (.ok []) }) ∧
    (s.bitDepth ∉ [1, 2, 4, 8, 16] →
      exec Asm.unpkStart s = .next { s with halt := true, errcode := 1#4, resp := some (.err .format) } ∧
      exec Asm.packStart s = .next { s with halt := true, errcode := 1#4, resp := some (.err .format) })

/-- R143: UNPK_LOAD appends its bytes and marks the end with LAST; STATE before a start or after LAST,
CAPACITY if the queue would overflow. -/
def Obligations.LoadAppendsOrRefuses : Prop :=
  ∀ (s : State) (last : Bool) (p : List Byte), s.halt = false → p.length ≤ maxPayload →
    ((s.unpk.active = false ∨ s.unpk.eos = true) →
      exec (.unpkLoad last (Asm.bytesArgs p)) s
        = .next { s with halt := true, errcode := 5#4, resp := some (.err .state) }) ∧
    (s.unpk.active = true → s.unpk.eos = false →
      (s.unpk.buf.length + p.length > s.params.unpkBufBytes →
        exec (.unpkLoad last (Asm.bytesArgs p)) s
          = .next { s with halt := true, errcode := 8#4, resp := some (.err .capacity) }) ∧
      (s.unpk.buf.length + p.length ≤ s.params.unpkBufBytes →
        exec (.unpkLoad last (Asm.bytesArgs p)) s = .next { s with
          unpk := { s.unpk with buf := s.unpk.buf ++ p, eos := last }
          resp := some (.ok []) }))

/-- R144, R145: UNPK_GET raises STATE when inactive; with too few bytes it raises TRUNCATION after EOS and
waits before it; otherwise it removes exactly need(n) bytes and answers the first n of these samples, 2
bytes each: those left of the byte being split, then those of the removed bytes, most significant first. The
byte being split is then the last one removed, if any, and the samples left are those not answered. -/
def Obligations.GetConsumesWhatItNeeds : Prop :=
  ∀ (s : State) (n need : Nat), s.Inv → s.halt = false → n < 2 ^ 20 →
    (s.unpk.depth ∈ [1, 2, 4] →
      need = (n - min n s.unpk.rem + 8 / s.unpk.depth - 1) / (8 / s.unpk.depth)) →
    (s.unpk.depth = 8 → need = n) → (s.unpk.depth = 16 → need = 2 * n) →
    (s.unpk.active = false → exec (Asm.unpkGet n) s
      = .next { s with halt := true, errcode := 5#4, resp := some (.err .state) }) ∧
    (s.unpk.active = true → need > s.unpk.buf.length → s.unpk.eos = true → exec (Asm.unpkGet n) s
      = .next { s with halt := true, errcode := 3#4, resp := some (.err .truncation) }) ∧
    (s.unpk.active = true → need > s.unpk.buf.length → s.unpk.eos = false → exec (Asm.unpkGet n) s
      = .next { s with resp := some .wait }) ∧
    (s.unpk.active = true → need ≤ s.unpk.buf.length →
      (∀ d : Nat, d ∈ [1, 2, 4] → s.unpk.depth = d → exec (Asm.unpkGet n) s = .next { s with
        unpk := { s.unpk with
          buf := s.unpk.buf.drop need
          cur := if need = 0 then s.unpk.cur else s.unpk.buf.getD (need - 1) 0#8
          rem := s.unpk.rem + need * (8 / d) - n }
        resp := some (.ok ((((byteSamples d s.unpk.cur).drop (8 / d - s.unpk.rem) ++
          (s.unpk.buf.take need).flatMap (byteSamples d)).take n).flatMap (be 2))) }) ∧
      (s.unpk.depth = 8 → exec (Asm.unpkGet n) s = .next { s with
        unpk := { s.unpk with buf := s.unpk.buf.drop n }
        resp := some (.ok ((s.unpk.buf.take n).flatMap fun b => [0#8, b])) }) ∧
      (s.unpk.depth = 16 → exec (Asm.unpkGet n) s = .next { s with
        unpk := { s.unpk with buf := s.unpk.buf.drop (2 * n) }
        resp := some (.ok (s.unpk.buf.take (2 * n))) }))

/-- R141: the samples of a byte come from its most significant end; at depth 8 a sample is a byte, and at
depth 16 the first byte is the high byte (R64). -/
def Obligations.SamplesComeMostSignificantFirst : Prop :=
  ∀ (s : State) (b : Byte) (rest : List Byte), s.halt = false → s.unpk.active = true → s.unpk.rem = 0 →
    (∀ d : Nat, d ∈ [1, 2, 4] → s.unpk.depth = d → s.unpk.buf = b :: rest →
      exec (Asm.unpkGet (8 / d)) s = .next { s with
        unpk := { s.unpk with buf := rest, cur := b, rem := 0 }
        resp := some (.ok ((List.range (8 / d)).flatMap fun k =>
          be 2 ((b.toNat >>> (8 - d * (k + 1))) &&& (2 ^ d - 1)))) }) ∧
    (s.unpk.depth = 8 → s.unpk.buf = b :: rest →
      exec (Asm.unpkGet 1) s = .next { s with
        unpk := { s.unpk with buf := rest }, resp := some (.ok [0#8, b]) }) ∧
    (∀ b1 : Byte, s.unpk.depth = 16 → s.unpk.buf = b :: b1 :: rest →
      exec (Asm.unpkGet 1) s = .next { s with
        unpk := { s.unpk with buf := rest }, resp := some (.ok [b, b1]) })

/-- R146, R147: UNPK_ENDLINE discards the rest of the current byte; UNPK_END closes the unpacker when the
source is complete and used up, and raises STATE or TRAILING otherwise. -/
def Obligations.UnpackerRowEndAndClose : Prop :=
  ∀ s : State, s.halt = false →
    (s.unpk.active = false →
      exec Asm.unpkEndline s = .next { s with halt := true, errcode := 5#4, resp := some (.err .state) } ∧
      exec Asm.unpkEnd s = .next { s with halt := true, errcode := 5#4, resp := some (.err .state) }) ∧
    (s.unpk.active = true →
      exec Asm.unpkEndline s
        = .next { s with unpk := { s.unpk with rem := 0 }, resp := some (.ok []) } ∧
      (s.unpk.eos = false → exec Asm.unpkEnd s
        = .next { s with halt := true, errcode := 5#4, resp := some (.err .state) }) ∧
      (s.unpk.eos = true → s.unpk.buf ≠ [] → exec Asm.unpkEnd s
        = .next { s with halt := true, errcode := 4#4, resp := some (.err .trailing) }) ∧
      (s.unpk.eos = true → s.unpk.buf = [] → exec Asm.unpkEnd s = .next { s with
        unpk := { active := false, depth := 0, buf := [], eos := false, cur := 0#8, rem := 0 }
        resp := some (.ok []) }))

/-- R149: PACK_PUT raises STATE when inactive and RANGE, before any effect, for a sample that does not fit;
otherwise it packs: at depth 8 the samples are the bytes, at depth 16 the payload is, and below 8 the
emitted bytes and the bits kept spell the old bits followed by the samples, most significant first. -/
def Obligations.PutPacksOrRefuses : Prop :=
  ∀ (s : State) (l : List Nat), s.Inv → s.halt = false → 2 * l.length ≤ maxPayload →
    (∀ x ∈ l, x < 65536) →
    (s.pack.active = false → exec (Asm.packPut l) s
      = .next { s with halt := true, errcode := 5#4, resp := some (.err .state) }) ∧
    (s.pack.active = true → (∃ x ∈ l, 2 ^ s.pack.depth ≤ x) → exec (Asm.packPut l) s
      = .next { s with halt := true, errcode := 6#4, resp := some (.err .range) }) ∧
    (s.pack.active = true → (∀ x ∈ l, x < 2 ^ s.pack.depth) →
      (s.pack.depth = 8 → exec (Asm.packPut l) s
        = .next { s with resp := some (.ok (l.map (BitVec.ofNat 8))) }) ∧
      (s.pack.depth = 16 → exec (Asm.packPut l) s
        = .next { s with resp := some (.ok (l.flatMap (be 2))) }) ∧
      (s.pack.depth < 8 → ∃ (acc bits : Nat) (d : List Byte),
        exec (Asm.packPut l) s = .next { s with
          pack := { s.pack with acc := acc, bits := bits }, resp := some (.ok d) } ∧
        bits < 8 ∧ acc < 2 ^ bits ∧
        8 * d.length + bits = s.pack.bits + s.pack.depth * l.length ∧
        unBE d * 2 ^ bits + acc
          = l.foldl (fun v x => v * 2 ^ s.pack.depth + x) s.pack.acc))

/-- R150, R151: PACK_ENDLINE emits the pending bits padded with zeros at the low end and empties the
accumulator; PACK_END closes the packer, and raises TRAILING while bits are pending. -/
def Obligations.PackerRowEndAndClose : Prop :=
  ∀ s : State, s.halt = false →
    (s.pack.active = false →
      exec Asm.packEndline s = .next { s with halt := true, errcode := 5#4, resp := some (.err .state) } ∧
      exec Asm.packEnd s = .next { s with halt := true, errcode := 5#4, resp := some (.err .state) }) ∧
    (s.pack.active = true →
      (s.pack.bits > 0 →
        exec Asm.packEndline s = .next { s with
          pack := { s.pack with acc := 0, bits := 0 }
          resp := some (.ok [BitVec.ofNat 8 (s.pack.acc * 2 ^ (8 - s.pack.bits))]) } ∧
        exec Asm.packEnd s
          = .next { s with halt := true, errcode := 4#4, resp := some (.err .trailing) }) ∧
      (s.pack.bits = 0 →
        exec Asm.packEndline s = .next { s with
          pack := { s.pack with acc := 0, bits := 0 }, resp := some (.ok []) } ∧
        exec Asm.packEnd s = .next { s with
          pack := { s.pack with active := false, depth := 0 }, resp := some (.ok []) }))

/-- The law R152, which the spec derives from R141, R145, R149 and R150: a row packed from a line boundary
takes ceil(|S| × d / 8) bytes, and an unpacker at the same depth whose queue is exactly those bytes answers
the samples, is then empty, and is at a line boundary again after UNPK_ENDLINE. -/
def Obligations.UnpackingUndoesPacking : Prop :=
  ∀ (s : State) (d : Nat) (l : List Nat), s.Inv → s.halt = false →
    s.pack.active = true → s.pack.depth = d → s.pack.bits = 0 →
    (∀ x ∈ l, x < 2 ^ d) → 2 * l.length ≤ maxPayload →
    ∃ (t1 t2 : State) (b1 b2 : List Byte),
      exec (Asm.packPut l) s = .next t1 ∧ t1.resp = some (.ok b1) ∧
      exec Asm.packEndline t1 = .next t2 ∧ t2.resp = some (.ok b2) ∧
      (b1 ++ b2).length = (l.length * d + 8 - 1) / 8 ∧
      ∀ u : State, u.halt = false → u.unpk.active = true → u.unpk.depth = d → u.unpk.rem = 0 →
        u.unpk.buf = b1 ++ b2 →
        ∃ u1 u2 : State, exec (Asm.unpkGet l.length) u = .next u1 ∧
          u1.resp = some (.ok (l.flatMap (be 2))) ∧ u1.unpk.buf = [] ∧
          exec Asm.unpkEndline u1 = .next u2 ∧ u2.resp = some (.ok []) ∧
          u2.unpk.rem = 0 ∧ u2.unpk.buf = []

/-- R280, which the spec derives from R143 and R145: before EOS, a request whose need exceeds the queue's
capacity is answered WAIT whatever the queue holds, and the load that would help raises CAPACITY. -/
def Obligations.OversizedRequestWaitsForEver : Prop :=
  ∀ (s : State) (n : Nat) (last : Bool) (p : List Byte), s.Inv → s.halt = false →
    s.unpk.active = true → s.unpk.eos = false →
    n < 2 ^ 20 → s.unpk.need n > s.params.unpkBufBytes → p.length ≤ maxPayload →
    exec (Asm.unpkGet n) s = .next { s with resp := some .wait } ∧
    (s.unpk.need n ≤ s.unpk.buf.length + p.length →
      exec (.unpkLoad last (Asm.bytesArgs p)) s
        = .next { s with halt := true, errcode := 8#4, resp := some (.err .capacity) })

/-! ## Adam7 -/

/-- R170, R171, R173, R190, R191, R192: the geometry list, interlaced and not, the colour types' sample
counts, the depths they allow, and the stride. -/
def Obligations.GeometryAndPixelTables : Prop :=
  (∀ w h : Nat,
    geometryOf w h false = [⟨0, 0, 1, 1, w, h⟩] ∧
    geometryOf w h true =
      [⟨0, 0, 8, 8, passDim w 0 8, passDim h 0 8⟩, ⟨4, 0, 8, 8, passDim w 4 8, passDim h 0 8⟩,
       ⟨0, 4, 4, 8, passDim w 0 4, passDim h 4 8⟩, ⟨2, 0, 4, 4, passDim w 2 4, passDim h 0 4⟩,
       ⟨0, 2, 2, 4, passDim w 0 2, passDim h 2 4⟩, ⟨1, 0, 2, 2, passDim w 1 2, passDim h 0 2⟩,
       ⟨0, 1, 1, 2, passDim w 0 1, passDim h 1 2⟩]) ∧
  (samplesPerPixel 0 = some 1 ∧ samplesPerPixel 2 = some 3 ∧ samplesPerPixel 3 = some 1 ∧
    samplesPerPixel 4 = some 2 ∧ samplesPerPixel 6 = some 4 ∧
    ∀ ct, ct ∉ [0, 2, 3, 4, 6] → samplesPerPixel ct = none) ∧
  (∀ d, (depthAllowed 0 d = true ↔ d ∈ [1, 2, 4, 8, 16]) ∧ (depthAllowed 2 d = true ↔ d ∈ [8, 16]) ∧
    (depthAllowed 3 d = true ↔ d ∈ [1, 2, 4, 8]) ∧ (depthAllowed 4 d = true ↔ d ∈ [8, 16]) ∧
    (depthAllowed 6 d = true ↔ d ∈ [8, 16])) ∧
  (∀ bpp, strideOf bpp 8 = bpp ∧ strideOf bpp 16 = 2 * bpp ∧ strideOf bpp 1 = 1 ∧ strideOf bpp 2 = 1 ∧
    strideOf bpp 4 = 1)

/-- R172: the pass dimension counts exactly the coordinates that fall inside the image. -/
def Obligations.PassDimensionCountsCoordinates : Prop :=
  ∀ n o k x : Nat, 0 < k → (x < passDim n o k ↔ o + x * k < n) ∧ passDim n o k ≤ n

/-- R173-R176: what the A7 commands answer and raise on a block that is not halted. -/
def Obligations.GeometryCommandsAnswer : Prop :=
  ∀ (s : State) (p : BitVec 3) (x y : Word), s.halt = false →
    ((s.width = 0#32 ∨ s.height = 0#32) →
      exec Asm.a7Passes s = .next { s with halt := true, errcode := 1#4, resp := some (.err .format) } ∧
      exec (Asm.a7Passinfo p) s
        = .next { s with halt := true, errcode := 1#4, resp := some (.err .format) } ∧
      exec (Asm.a7Offset p x y) s
        = .next { s with halt := true, errcode := 1#4, resp := some (.err .format) }) ∧
    (s.width ≠ 0#32 → s.height ≠ 0#32 →
      exec Asm.a7Passes s = .next { s with
        resp := some (.ok ((geometryOf s.width.toNat s.height.toNat s.interlace).flatMap fun q =>
          be 4 q.pw ++ be 4 q.ph)) } ∧
      ((geometryOf s.width.toNat s.height.toNat s.interlace)[p.toNat]? = none →
        exec (Asm.a7Passinfo p) s
          = .next { s with halt := true, errcode := 6#4, resp := some (.err .range) } ∧
        exec (Asm.a7Offset p x y) s
          = .next { s with halt := true, errcode := 6#4, resp := some (.err .range) }) ∧
      ∀ q, (geometryOf s.width.toNat s.height.toNat s.interlace)[p.toNat]? = some q →
        exec (Asm.a7Passinfo p) s = .next { s with
          resp := some (.ok ([BitVec.ofNat 8 q.x0, BitVec.ofNat 8 q.y0, BitVec.ofNat 8 q.dx,
            BitVec.ofNat 8 q.dy] ++ be 4 q.pw ++ be 4 q.ph)) } ∧
        ((q.pw ≤ x.toNat ∨ q.ph ≤ y.toNat) → exec (Asm.a7Offset p x y) s
          = .next { s with halt := true, errcode := 6#4, resp := some (.err .range) }) ∧
        (x.toNat < q.pw → y.toNat < q.ph →
          (2 ^ 64 ≤ ((q.y0 + y.toNat * q.dy) * s.width.toNat + (q.x0 + x.toNat * q.dx)) * 4 →
            exec (Asm.a7Offset p x y) s
              = .next { s with halt := true, errcode := 6#4, resp := some (.err .range) }) ∧
          (((q.y0 + y.toNat * q.dy) * s.width.toNat + (q.x0 + x.toNat * q.dx)) * 4 < 2 ^ 64 →
            exec (Asm.a7Offset p x y) s = .next { s with
              resp := some (.ok (be 8
                (((q.y0 + y.toNat * q.dy) * s.width.toNat + (q.x0 + x.toNat * q.dx)) * 4))) })))

/-- R177: the passes partition the image. Every pass-local pixel maps inside, every pixel of the image is
hit by exactly one pass-local pixel, so every index 4·(fy·W + fx) is the offset of exactly one, and the
pixel counts add to W × H. -/
def Obligations.PassesPartitionTheImage : Prop :=
  ∀ (w h : Nat) (interlaced : Bool), 1 ≤ w → 1 ≤ h →
    (∀ q ∈ geometryOf w h interlaced, ∀ x y, x < q.pw → y < q.ph →
      q.x0 + x * q.dx < w ∧ q.y0 + y * q.dy < h) ∧
    (∀ fx fy, fx < w → fy < h →
      ∃! t : Nat × Nat × Nat, ∃ q, (geometryOf w h interlaced)[t.1]? = some q ∧
        t.2.1 < q.pw ∧ t.2.2 < q.ph ∧ q.x0 + t.2.1 * q.dx = fx ∧ q.y0 + t.2.2 * q.dy = fy) ∧
    (∀ fx fy, fx < w → fy < h →
      ∃! t : Nat × Nat × Nat, ∃ q, (geometryOf w h interlaced)[t.1]? = some q ∧
        t.2.1 < q.pw ∧ t.2.2 < q.ph ∧ q.offset w t.2.1 t.2.2 = 4 * (fy * w + fx)) ∧
    ((geometryOf w h interlaced).map fun q => q.pw * q.ph).sum = w * h

/-! ## Filter -/

/-- R200, R220, R194-R196: FDEC_START and, for a non-interlaced format and a legal FILTSEL, FENC_START latch
the configuration and enter the first pass, from every filter mode. The pass list holds every pass of the
geometry that has rows, in order, with its Adam7 index, and no other. -/
def Obligations.FilterStartsLatchTheSession : Prop :=
  ∀ (s : State) (bpp : Nat) (l : List Pass), s.halt = false →
    s.width ≠ 0#32 → s.height ≠ 0#32 →
    samplesPerPixel s.colorType = some bpp → depthAllowed s.colorType s.bitDepth = true →
    l = (geometryOf s.width.toNat s.height.toNat s.interlace).zipIdx.filterMap (fun (q, k) =>
      if 0 < q.pw ∧ 0 < q.ph then some ⟨k, q.pw, q.ph⟩ else none) →
    (∀ q ∈ l, (q.pw * bpp * s.bitDepth + 8 - 1) / 8 ≤ s.params.maxRowBytes) →
    (∃ q rest, l = q :: rest ∧ q.idx = 0 ∧
      exec Asm.fdecStart s = .next { s with
        filt := { mode := .decode, passes := l, pi := 0, row := 0,
                  bw := (q.pw * bpp * s.bitDepth + 8 - 1) / 8, bpp := bpp, depth := s.bitDepth,
                  stride := strideOf bpp s.bitDepth, sel := 15#4, hasPrev := false, prev := [] }
        resp := some (.ok []) }) ∧
    (s.interlace = false → (s.filtSel.toNat ≤ 4 ∨ s.filtSel = 15#4) →
      exec Asm.fencStart s = .next { s with
        filt := { mode := .encode, passes := [⟨0, s.width.toNat, s.height.toNat⟩], pi := 0, row := 0,
                  bw := (s.width.toNat * bpp * s.bitDepth + 8 - 1) / 8, bpp := bpp, depth := s.bitDepth,
                  stride := strideOf bpp s.bitDepth, sel := s.filtSel, hasPrev := false, prev := [] }
        resp := some (.ok []) })

/-- R194, R195, R220: the refusals of the filter starts, in their order. -/
def Obligations.FilterStartsRefuse : Prop :=
  ∀ s : State, s.halt = false →
    ((s.width = 0#32 ∨ s.height = 0#32 ∨ samplesPerPixel s.colorType = none ∨
        depthAllowed s.colorType s.bitDepth = false) →
      exec Asm.fdecStart s = .next { s with halt := true, errcode := 1#4, resp := some (.err .format) } ∧
      exec Asm.fencStart s = .next { s with halt := true, errcode := 1#4, resp := some (.err .format) }) ∧
    ((s.interlace = true ∨ (4 < s.filtSel.toNat ∧ s.filtSel.toNat < 15)) →
      exec Asm.fencStart s = .next { s with halt := true, errcode := 1#4, resp := some (.err .format) }) ∧
    (∀ bpp, s.width ≠ 0#32 → s.height ≠ 0#32 → samplesPerPixel s.colorType = some bpp →
      depthAllowed s.colorType s.bitDepth = true →
      (∃ q ∈ geometryOf s.width.toNat s.height.toNat s.interlace, 0 < q.pw ∧ 0 < q.ph ∧
        s.params.maxRowBytes < (q.pw * bpp * s.bitDepth + 8 - 1) / 8) →
      exec Asm.fdecStart s
        = .next { s with halt := true, errcode := 8#4, resp := some (.err .capacity) } ∧
      (s.interlace = false → (s.filtSel.toNat ≤ 4 ∨ s.filtSel = 15#4) →
        exec Asm.fencStart s
          = .next { s with halt := true, errcode := 8#4, resp := some (.err .capacity) }))

/-- R199: the tag and the predictor of each filter type, type 4 being the one FILT_PAETH answers. R201,
R197: FDEC_ROW of a row of the right length and a tag 0-4 answers the row `out` whose every byte is the raw
byte plus the predictor of its neighbours, and advances; nothing else changes. -/
def Obligations.DecodeRowAddsThePredictor : Prop :=
  (FilterType.none.tag = 0#8 ∧ FilterType.sub.tag = 1#8 ∧ FilterType.up.tag = 2#8 ∧
    FilterType.average.tag = 3#8 ∧ FilterType.paeth.tag = 4#8) ∧
  (∀ a b c : Byte,
    pred .none a b c = 0#8 ∧ pred .sub a b c = a ∧ pred .up a b c = b ∧
    (pred .average a b c).toNat = (a.toNat + b.toNat) / 2 ∧
    ∀ s : State, s.halt = false →
      exec (Asm.filtPaeth a b c) s = .next { s with resp := some (.ok [pred .paeth a b c]) }) ∧
  ∀ (s : State) (t : FilterType) (raw : List Byte), s.Inv → s.halt = false →
    s.filt.mode = .decode → raw.length = s.filt.bw →
    ∃ out : List Byte, out.length = raw.length ∧
      exec (Asm.fdecRow t.tag raw) s
        = .next { s with filt := s.filt.advance out, resp := some (.ok out) } ∧
      ∀ x, x < raw.length →
        out[x]? = some (raw.getD x 0#8 + pred t
          (if s.filt.stride ≤ x then out.getD (x - s.filt.stride) 0#8 else 0#8)
          (if s.filt.hasPrev then s.filt.prev.getD x 0#8 else 0#8)
          (if s.filt.hasPrev ∧ s.filt.stride ≤ x then s.filt.prev.getD (x - s.filt.stride) 0#8 else 0#8))

/-- R221, R224: FENC_ROW of a row of the right length answers the chosen tag and the row whose every byte
is the raw byte minus the predictor of its unfiltered neighbours, and advances; nothing else changes. -/
def Obligations.EncodeRowSubtractsThePredictor : Prop :=
  ∀ (s : State) (row : List Byte), s.Inv → s.halt = false → s.filt.mode = .encode →
    row.length = s.filt.bw →
    ∃ out : List Byte, out.length = row.length ∧
      exec (Asm.fencRow row) s = .next { s with
        filt := s.filt.advance row, resp := some (.ok ((s.filt.choose row).tag :: out)) } ∧
      ∀ x, x < row.length →
        out[x]? = some (row.getD x 0#8 - pred (s.filt.choose row)
          (if s.filt.stride ≤ x then row.getD (x - s.filt.stride) 0#8 else 0#8)
          (if s.filt.hasPrev then s.filt.prev.getD x 0#8 else 0#8)
          (if s.filt.hasPrev ∧ s.filt.stride ≤ x then s.filt.prev.getD (x - s.filt.stride) 0#8 else 0#8))

/-- R201, R224: the refusals of the row commands, in their order. -/
def Obligations.RowCommandsRefuse : Prop :=
  ∀ (s : State) (p : List Byte), s.halt = false → p.length ≤ maxPayload →
    ((s.filt.mode = .idle ∨ s.filt.mode = .encode) → exec (.fdecRow (Asm.bytesArgs p)) s
      = .next { s with halt := true, errcode := 5#4, resp := some (.err .state) }) ∧
    ((s.filt.mode = .idle ∨ s.filt.mode = .decode) → exec (Asm.fencRow p) s
      = .next { s with halt := true, errcode := 5#4, resp := some (.err .state) }) ∧
    (s.filt.mode = .done →
      exec (.fdecRow (Asm.bytesArgs p)) s
        = .next { s with halt := true, errcode := 4#4, resp := some (.err .trailing) } ∧
      exec (Asm.fencRow p) s
        = .next { s with halt := true, errcode := 4#4, resp := some (.err .trailing) }) ∧
    (s.filt.mode = .decode → p.length ≠ s.filt.bw + 1 → exec (.fdecRow (Asm.bytesArgs p)) s
      = .next { s with halt := true, errcode := 9#4, resp := some (.err .length) }) ∧
    (s.filt.mode = .encode → p.length ≠ s.filt.bw → exec (Asm.fencRow p) s
      = .next { s with halt := true, errcode := 9#4, resp := some (.err .length) }) ∧
    (∀ (tag : Byte) (raw : List Byte), s.filt.mode = .decode → p = tag :: raw →
      p.length = s.filt.bw + 1 → 4 < tag.toNat → exec (.fdecRow (Asm.bytesArgs p)) s
        = .next { s with halt := true, errcode := 1#4, resp := some (.err .format) })

/-- R196: after a row the session stands at the next row of the pass with that row as the previous one, or
at row 0 of the next pass with no previous row, or is DONE. -/
def Obligations.AdvanceFollowsThePasses : Prop :=
  ∀ (f : Filt) (r : List Byte) (q : Pass), f.passes[f.pi]? = some q →
    (f.row + 1 ≠ q.ph → f.advance r = { f with prev := r, hasPrev := true, row := f.row + 1 }) ∧
    (∀ q', f.row + 1 = q.ph → f.passes[f.pi + 1]? = some q' → f.advance r = { f with
      pi := f.pi + 1, row := 0, bw := (q'.pw * f.bpp * f.depth + 8 - 1) / 8, hasPrev := false,
      prev := [] }) ∧
    (f.row + 1 = q.ph → f.passes[f.pi + 1]? = none → f.advance r = { f with
      mode := .done, pi := 0, row := 0, bw := 0, hasPrev := false, prev := [] })

/-- R198, R202: the Paeth predictor picks, of left, up and upLeft, the one nearest a + b − c, ties going
to left, then up; FILT_PAETH answers it in every filter mode and changes nothing. -/
def Obligations.PaethPicksTheNearest : Prop :=
  ∀ (s : State) (a b c : Byte), s.halt = false →
    ∃ r : Byte, exec (Asm.filtPaeth a b c) s = .next { s with resp := some (.ok [r]) } ∧
      (∀ p : Int, p = (a.toNat : Int) + b.toNat - c.toNat →
        (|p - a.toNat| ≤ |p - b.toNat| → |p - a.toNat| ≤ |p - c.toNat| → r = a) ∧
        (¬ (|p - a.toNat| ≤ |p - b.toNat| ∧ |p - a.toNat| ≤ |p - c.toNat|) →
          (|p - b.toNat| ≤ |p - c.toNat| → r = b) ∧ (|p - c.toNat| < |p - b.toNat| → r = c)) ∧
        |p - r.toNat| ≤ |p - a.toNat| ∧ |p - r.toNat| ≤ |p - b.toNat| ∧
        |p - r.toNat| ≤ |p - c.toNat|)

/-- R221: the candidate row of every filter type is the raw row minus the predictor of its unfiltered
neighbours. R222: its cost is the sum of the absolute values of its bytes read as signed. R223: a pinned
filter is used for every row; automatic selection uses a filter of least cost, and of those the one of the
lowest number. -/
def Obligations.SelectionMinimisesTheCost : Prop :=
  ∀ (f : Filt) (row : List Byte),
    (∀ t : FilterType, f.sel = t.tag.setWidth 4 → f.choose row = t) ∧
    (f.sel = 15#4 → ∀ t : FilterType,
      rowCost (f.filtered (f.choose row) row) ≤ rowCost (f.filtered t row) ∧
      (t.tag.toNat < (f.choose row).tag.toNat →
        rowCost (f.filtered (f.choose row) row) < rowCost (f.filtered t row))) ∧
    (∀ t : FilterType, rowCost (f.filtered t row) ≤ 128 * row.length) ∧
    (∀ l : List Byte, rowCost l
      = (l.map fun b => (if b.toNat < 128 then (b.toNat : Int) else (b.toNat : Int) - 256).natAbs).sum) ∧
    ∀ t : FilterType, (f.filtered t row).length = row.length ∧ ∀ x, x < row.length →
      (f.filtered t row)[x]? = some (row.getD x 0#8 - pred t
        (if f.stride ≤ x then row.getD (x - f.stride) 0#8 else 0#8)
        (if f.hasPrev then f.prev.getD x 0#8 else 0#8)
        (if f.hasPrev ∧ f.stride ≤ x then f.prev.getD (x - f.stride) 0#8 else 0#8))

/-- The law R225, which the spec derives from R201 and R221: two sessions at the same position with the same
previous row, one encoding and one decoding. The decoder gives back the row the encoder was given, whatever
FILTSEL is, and the two stand at the same position again, so the law holds for a whole image by repetition.
-/
def Obligations.DecodingUndoesEncoding : Prop :=
  ∀ (e d e' : State) (row resp : List Byte), e.Inv → e.halt = false → d.halt = false →
    e.filt.mode = .encode → d.filt.mode = .decode →
    d.filt = { e.filt with mode := .decode, sel := d.filt.sel } →
    exec (Asm.fencRow row) e = .next e' → e'.resp = some (.ok resp) →
    ∃ d' : State, exec (.fdecRow (Asm.bytesArgs resp)) d = .next d' ∧ d'.resp = some (.ok row) ∧
      d'.halt = false ∧ e'.halt = false ∧
      d'.filt = { e'.filt with mode := d'.filt.mode, sel := d.filt.sel } ∧
      ((e'.filt.mode = .encode ∧ d'.filt.mode = .decode) ∨
       (e'.filt.mode = .done ∧ d'.filt.mode = .done))

/-- R203: each accepted row leaves one row fewer, and the session is DONE exactly when none is left. At the
start of a session the rows left are the sum of the passes' heights. -/
def Obligations.SessionEndsAfterItsRows : Prop :=
  (∀ (s t : State) (i : Instr) (d : List Byte), s.Inv →
    (i.op = .fdecRow ∨ i.op = .fencRow) → exec i s = .next t → t.resp = some (.ok d) →
    t.filt.rowsLeft + 1 = s.filt.rowsLeft ∧
    (t.filt.rowsLeft = 0 → t.filt.mode = .done) ∧
    (0 < t.filt.rowsLeft → t.filt.mode = s.filt.mode)) ∧
  (∀ (s t : State) (i : Instr) (d : List Byte),
    (i.op = .fdecStart ∨ i.op = .fencStart) → exec i s = .next t → t.resp = some (.ok d) →
    t.filt.rowsLeft = (t.filt.passes.map Pass.ph).sum ∧ 0 < t.filt.rowsLeft)

/-! ## Invariants -/

/-- The invariant holds at reset for all legal parameters, and at `State.reset`, whose parameters are the
model's choice (log entry 3). -/
def Obligations.ResetMeetsTheInvariant : Prop :=
  (∀ p : Params, p.Legal → (State.resetOf p).Inv) ∧ State.reset.Inv

/-- Every step keeps the invariant, from every state that meets it (R48 and the ranges of R38-R40). -/
def Obligations.EveryStepKeepsTheInvariant : Prop :=
  ∀ s t : State, s.Inv → step s = .next t → t.Inv

/-- The eight invariants of R48, which the spec derives from R38-R40 and the command rules, in every state a
block with legal parameters reaches under any commands. -/
def Obligations.ReachableStatesKeepTheInvariants : Prop :=
  ∀ (p : Params) (s : State), p.Legal → Reachable p s →
    (s.unpk.active = false →
      s.unpk.buf = [] ∧ s.unpk.eos = false ∧ s.unpk.rem = 0 ∧ s.unpk.depth = 0) ∧
    (8 ≤ s.unpk.depth → s.unpk.rem = 0) ∧
    (s.unpk.depth < 8 → s.unpk.rem ≤ 8 / s.unpk.depth - 1) ∧
    (s.pack.active = false → s.pack.bits = 0) ∧
    ((s.pack.depth < 8 → s.pack.bits % s.pack.depth = 0 ∧ s.pack.bits < 8) ∧
      (8 ≤ s.pack.depth → s.pack.bits = 0)) ∧
    ((s.filt.mode = .decode ∨ s.filt.mode = .encode) →
      ∃ q, s.filt.passes[s.filt.pi]? = some q ∧ s.filt.row < q.ph) ∧
    (s.filt.hasPrev = true → s.filt.prev.length = s.filt.bw ∧ 1 ≤ s.filt.row) ∧
    (s.halt = false ↔ s.errcode = 0#4)
end

