-- ==== Sys2Proof/Laws/Decode.lean ====
section
/-! SUPPORT. Lemmas about the encoding: big-endian lists, header fields, and the two lookup tables. -/

namespace Sys2Proof

@[simp] theorem length_be (n v : Nat) : (be n v).length = n := by
  induction n generalizing v with
  | zero => rfl
  | succ n ih => simp [be, ih]

theorem unBE_append (l : List Byte) (b : Byte) : unBE (l ++ [b]) = unBE l * 256 + b.toNat := by
  simp [unBE]

/-- `unBE` undoes `BE_n` on values that fit (00_scope.md R10). -/
theorem unBE_be (n v : Nat) (h : v < 256 ^ n) : unBE (be n v) = v := by
  induction n generalizing v with
  | zero => simp [be, unBE] at *; omega
  | succ n ih =>
    have hq : v / 256 < 256 ^ n := by rw [pow_succ] at h; omega
    rw [be, unBE_append, ih _ hq, BitVec.toNat_ofNat]
    omega

theorem unBE_cons_lt (l : List Byte) : unBE l < 256 ^ l.length := by
  induction l using List.reverseRecOn with
  | nil => simp [unBE]
  | append_singleton l b ih =>
    rw [unBE_append, List.length_append, List.length_singleton, pow_succ]
    have := b.isLt
    omega

/-- `BE_n` undoes `unBE` on lists of length `n`. -/
theorem be_unBE (l : List Byte) : be l.length (unBE l) = l := by
  induction l using List.reverseRecOn with
  | nil => rfl
  | append_singleton l b ih =>
    have hb := b.isLt
    have hq : (unBE l * 256 + b.toNat) / 256 = unBE l := by omega
    have hr : BitVec.ofNat 8 (unBE l * 256 + b.toNat) = b := by
      apply BitVec.eq_of_toNat_eq
      rw [BitVec.toNat_ofNat]
      omega
    rw [unBE_append, List.length_append, List.length_singleton, be, hq, hr, ih]

@[simp] theorem opcodeField_headerOf (o : BitVec 8) (m : BitVec 4) (a : BitVec 20) :
    opcodeField (headerOf o m a) = o := by
  ext i hi
  simp only [opcodeField, headerOf, BitVec.getElem_extractLsb', BitVec.getLsbD_append]
  simp [show ¬ (24 + i < 20) by omega, show ¬ (24 + i - 20 < 4) by omega,
    show 24 + i - 20 - 4 = i by omega, hi]

@[simp] theorem modField_headerOf (o : BitVec 8) (m : BitVec 4) (a : BitVec 20) :
    modField (headerOf o m a) = m := by
  ext i hi
  simp only [modField, headerOf, BitVec.getElem_extractLsb', BitVec.getLsbD_append]
  simp [show ¬ (20 + i < 20) by omega,
    show 20 + i - 20 = i by omega, hi]

@[simp] theorem argField_headerOf (o : BitVec 8) (m : BitVec 4) (a : BitVec 20) :
    argField (headerOf o m a) = a := by
  ext i hi
  simp only [argField, headerOf, BitVec.getElem_extractLsb', BitVec.getLsbD_append]
  simp [hi]

/-- A header is its three fields (30_encoding.md R81). -/
theorem headerOf_fields (h : Word) : headerOf (opcodeField h) (modField h) (argField h) = h := by
  apply BitVec.eq_of_getLsbD_eq
  intro i hi
  simp only [opcodeField, modField, argField, headerOf, BitVec.getLsbD_append, BitVec.getLsbD_extractLsb']
  by_cases h1 : i < 20
  · simp [h1]
  · by_cases h2 : i - 20 < 4
    · simp [h1, h2, show 20 + (i - 20) = i by omega]
    · simp [h1, h2, show i - 20 - 4 < 8 by omega, show 24 + (i - 20 - 4) = i by omega]

@[simp] theorem Op.ofCode?_code (o : Op) : Op.ofCode? o.code = some o := by cases o <;> rfl

theorem Op.ofCode?_some {c : BitVec 8} {o : Op} (h : Op.ofCode? c = some o) : o.code = c := by
  simpa using List.find?_some h

@[simp] theorem Reg.ofIndex?_index (r : Reg) : Reg.ofIndex? r.index = some r := by cases r <;> rfl

theorem Reg.ofIndex?_some {k : BitVec 4} {r : Reg} (h : Reg.ofIndex? k = some r) : r.index = k := by
  simpa using List.find?_some h

end Sys2Proof
end

