-- ==== Sys2Proof/Laws/Bitpack.lean ====
section
/-! SUPPORT. What the loops of the unpacker and the packer keep. -/

namespace Sys2Proof.Machine

/-- A turn of the loop of `UNPK_GET` leaves what the unpacker latched. -/
theorem Unpk.nextSample_frame (u : Unpk) :
    u.nextSample.2.active = u.active ∧ u.nextSample.2.depth = u.depth ∧ u.nextSample.2.eos = u.eos := by
  unfold Unpk.nextSample Unpk.nextByte
  split
  · split <;> exact ⟨rfl, rfl, rfl⟩
  · split <;> exact ⟨rfl, rfl, rfl⟩

theorem Unpk.takeSamples_succ (u : Unpk) (n : Nat) :
    u.takeSamples (n + 1) =
      (u.nextSample.1 :: (u.nextSample.2.takeSamples n).1, (u.nextSample.2.takeSamples n).2) := rfl

@[simp] theorem Unpk.takeSamples_length (u : Unpk) (n : Nat) : (u.takeSamples n).1.length = n := by
  induction n generalizing u with
  | zero => rfl
  | succ n ih => simp [Unpk.takeSamples_succ, ih]

/-- The loop of `UNPK_GET` leaves what the unpacker latched. -/
theorem Unpk.takeSamples_frame (u : Unpk) (n : Nat) :
    (u.takeSamples n).2.active = u.active ∧ (u.takeSamples n).2.depth = u.depth ∧
      (u.takeSamples n).2.eos = u.eos := by
  induction n generalizing u with
  | zero => exact ⟨rfl, rfl, rfl⟩
  | succ n ih =>
    obtain ⟨h1, h2, h3⟩ := u.nextSample_frame
    obtain ⟨k1, k2, k3⟩ := ih u.nextSample.2
    rw [Unpk.takeSamples_succ]
    exact ⟨k1.trans h1, k2.trans h2, k3.trans h3⟩

@[simp] theorem length_sampleBytes (l : List Nat) : (sampleBytes l).length = 2 * l.length := by
  induction l with
  | nil => rfl
  | cons x l ih =>
    have : sampleBytes (x :: l) = be 2 x ++ sampleBytes l := by simp [sampleBytes]
    rw [this, List.length_append, ih, length_be, List.length_cons]
    omega

/-- A turn of the loop of `PACK_PUT` leaves what the packer latched. -/
theorem Pack.put_frame (p : Pack) (x : Nat) :
    (p.put x).2.active = p.active ∧ (p.put x).2.depth = p.depth := by
  unfold Pack.put
  split
  · dsimp only
    split <;> exact ⟨rfl, rfl⟩
  · split <;> exact ⟨rfl, rfl⟩

theorem Pack.putAll_cons (p : Pack) (x : Nat) (xs : List Nat) :
    p.putAll (x :: xs) =
      ((p.put x).1 ++ ((p.put x).2.putAll xs).1, ((p.put x).2.putAll xs).2) := rfl

/-- The loop of `PACK_PUT` leaves what the packer latched. -/
theorem Pack.putAll_frame (p : Pack) (l : List Nat) :
    (p.putAll l).2.active = p.active ∧ (p.putAll l).2.depth = p.depth := by
  induction l generalizing p with
  | nil => exact ⟨rfl, rfl⟩
  | cons x xs ih =>
    obtain ⟨h1, h2⟩ := p.put_frame x
    obtain ⟨k1, k2⟩ := ih (p.put x).2
    rw [Pack.putAll_cons]
    exact ⟨k1.trans h1, k2.trans h2⟩

/-- The samples of a `PACK_PUT` payload built from samples that fit 16 bits. -/
theorem samplesOf_sampleBytes (l : List Nat) (h : ∀ x ∈ l, x < 65536) :
    samplesOf (sampleBytes l) = l := by
  induction l with
  | nil => rfl
  | cons x l ih =>
    have hx : x < 65536 := h x (by simp)
    have hb : unBE (be 2 x) = x := unBE_be 2 x (by simpa using hx)
    have hs : sampleBytes (x :: l) =
        BitVec.ofNat 8 (x / 256) :: BitVec.ofNat 8 x :: sampleBytes l := by
      simp [sampleBytes, be]
    rw [hs, samplesOf, ih fun y hy => h y (by simp [hy])]
    congr 1

end Sys2Proof.Machine
end

