-- ==== Sys2Proof/Laws/State.lean ====
section
/-! SUPPORT. One lemma per field per update of the state and of the filter unit, so that no later proof
unfolds a record update. -/

namespace Sys2Proof.Machine


/-! ## State.answered -/

@[simp] theorem State.answered_params (s : State) (d : List Byte) : (s.answered d).params = s.params := rfl
@[simp] theorem State.answered_ctrl (s : State) (d : List Byte) : (s.answered d).ctrl = s.ctrl := rfl
@[simp] theorem State.answered_halt (s : State) (d : List Byte) : (s.answered d).halt = s.halt := rfl
@[simp] theorem State.answered_errcode (s : State) (d : List Byte) : (s.answered d).errcode = s.errcode := rfl
@[simp] theorem State.answered_crcMismatch (s : State) (d : List Byte) : (s.answered d).crcMismatch = s.crcMismatch := rfl
@[simp] theorem State.answered_width (s : State) (d : List Byte) : (s.answered d).width = s.width := rfl
@[simp] theorem State.answered_height (s : State) (d : List Byte) : (s.answered d).height = s.height := rfl
@[simp] theorem State.answered_format (s : State) (d : List Byte) : (s.answered d).format = s.format := rfl
@[simp] theorem State.answered_crc (s : State) (d : List Byte) : (s.answered d).crc = s.crc := rfl
@[simp] theorem State.answered_unpk (s : State) (d : List Byte) : (s.answered d).unpk = s.unpk := rfl
@[simp] theorem State.answered_pack (s : State) (d : List Byte) : (s.answered d).pack = s.pack := rfl
@[simp] theorem State.answered_filt (s : State) (d : List Byte) : (s.answered d).filt = s.filt := rfl
@[simp] theorem State.answered_port (s : State) (d : List Byte) : (s.answered d).port = s.port := rfl
@[simp] theorem State.answered_resp (s : State) (d : List Byte) : (s.answered d).resp = some (.ok d) := rfl

/-! ## State.waiting -/

@[simp] theorem State.waiting_params (s : State) : s.waiting.params = s.params := rfl
@[simp] theorem State.waiting_ctrl (s : State) : s.waiting.ctrl = s.ctrl := rfl
@[simp] theorem State.waiting_halt (s : State) : s.waiting.halt = s.halt := rfl
@[simp] theorem State.waiting_errcode (s : State) : s.waiting.errcode = s.errcode := rfl
@[simp] theorem State.waiting_crcMismatch (s : State) : s.waiting.crcMismatch = s.crcMismatch := rfl
@[simp] theorem State.waiting_width (s : State) : s.waiting.width = s.width := rfl
@[simp] theorem State.waiting_height (s : State) : s.waiting.height = s.height := rfl
@[simp] theorem State.waiting_format (s : State) : s.waiting.format = s.format := rfl
@[simp] theorem State.waiting_crc (s : State) : s.waiting.crc = s.crc := rfl
@[simp] theorem State.waiting_unpk (s : State) : s.waiting.unpk = s.unpk := rfl
@[simp] theorem State.waiting_pack (s : State) : s.waiting.pack = s.pack := rfl
@[simp] theorem State.waiting_filt (s : State) : s.waiting.filt = s.filt := rfl
@[simp] theorem State.waiting_port (s : State) : s.waiting.port = s.port := rfl
@[simp] theorem State.waiting_resp (s : State) : s.waiting.resp = some .wait := rfl

/-! ## State.raised -/

@[simp] theorem State.raised_params (s : State) (e : ErrCode) : (s.raised e).params = s.params := rfl
@[simp] theorem State.raised_ctrl (s : State) (e : ErrCode) : (s.raised e).ctrl = s.ctrl := rfl
@[simp] theorem State.raised_halt (s : State) (e : ErrCode) : (s.raised e).halt = true := rfl
@[simp] theorem State.raised_errcode (s : State) (e : ErrCode) : (s.raised e).errcode = if s.halt then s.errcode else e.code := rfl
@[simp] theorem State.raised_crcMismatch (s : State) (e : ErrCode) : (s.raised e).crcMismatch = s.crcMismatch := rfl
@[simp] theorem State.raised_width (s : State) (e : ErrCode) : (s.raised e).width = s.width := rfl
@[simp] theorem State.raised_height (s : State) (e : ErrCode) : (s.raised e).height = s.height := rfl
@[simp] theorem State.raised_format (s : State) (e : ErrCode) : (s.raised e).format = s.format := rfl
@[simp] theorem State.raised_crc (s : State) (e : ErrCode) : (s.raised e).crc = s.crc := rfl
@[simp] theorem State.raised_unpk (s : State) (e : ErrCode) : (s.raised e).unpk = s.unpk := rfl
@[simp] theorem State.raised_pack (s : State) (e : ErrCode) : (s.raised e).pack = s.pack := rfl
@[simp] theorem State.raised_filt (s : State) (e : ErrCode) : (s.raised e).filt = s.filt := rfl
@[simp] theorem State.raised_port (s : State) (e : ErrCode) : (s.raised e).port = s.port := rfl
@[simp] theorem State.raised_resp (s : State) (e : ErrCode) : (s.raised e).resp = some (.err e) := rfl

/-! ## State.haltRefused -/

@[simp] theorem State.haltRefused_params (s : State) : s.haltRefused.params = s.params := rfl
@[simp] theorem State.haltRefused_ctrl (s : State) : s.haltRefused.ctrl = s.ctrl := rfl
@[simp] theorem State.haltRefused_halt (s : State) : s.haltRefused.halt = s.halt := rfl
@[simp] theorem State.haltRefused_errcode (s : State) : s.haltRefused.errcode = s.errcode := rfl
@[simp] theorem State.haltRefused_crcMismatch (s : State) : s.haltRefused.crcMismatch = s.crcMismatch := rfl
@[simp] theorem State.haltRefused_width (s : State) : s.haltRefused.width = s.width := rfl
@[simp] theorem State.haltRefused_height (s : State) : s.haltRefused.height = s.height := rfl
@[simp] theorem State.haltRefused_format (s : State) : s.haltRefused.format = s.format := rfl
@[simp] theorem State.haltRefused_crc (s : State) : s.haltRefused.crc = s.crc := rfl
@[simp] theorem State.haltRefused_unpk (s : State) : s.haltRefused.unpk = s.unpk := rfl
@[simp] theorem State.haltRefused_pack (s : State) : s.haltRefused.pack = s.pack := rfl
@[simp] theorem State.haltRefused_filt (s : State) : s.haltRefused.filt = s.filt := rfl
@[simp] theorem State.haltRefused_port (s : State) : s.haltRefused.port = s.port := rfl
@[simp] theorem State.haltRefused_resp (s : State) : s.haltRefused.resp = some (.err .halted) := rfl

/-! ## State.setCheckCrc -/

@[simp] theorem State.setCheckCrc_params (s : State) (b : Bool) : (s.setCheckCrc b).params = s.params := rfl
@[simp] theorem State.setCheckCrc_ctrl (s : State) (b : Bool) : (s.setCheckCrc b).ctrl = s.ctrl.extractLsb' 1 31 ++ BitVec.ofBool b := rfl
@[simp] theorem State.setCheckCrc_halt (s : State) (b : Bool) : (s.setCheckCrc b).halt = s.halt := rfl
@[simp] theorem State.setCheckCrc_errcode (s : State) (b : Bool) : (s.setCheckCrc b).errcode = s.errcode := rfl
@[simp] theorem State.setCheckCrc_crcMismatch (s : State) (b : Bool) : (s.setCheckCrc b).crcMismatch = s.crcMismatch := rfl
@[simp] theorem State.setCheckCrc_width (s : State) (b : Bool) : (s.setCheckCrc b).width = s.width := rfl
@[simp] theorem State.setCheckCrc_height (s : State) (b : Bool) : (s.setCheckCrc b).height = s.height := rfl
@[simp] theorem State.setCheckCrc_format (s : State) (b : Bool) : (s.setCheckCrc b).format = s.format := rfl
@[simp] theorem State.setCheckCrc_crc (s : State) (b : Bool) : (s.setCheckCrc b).crc = s.crc := rfl
@[simp] theorem State.setCheckCrc_unpk (s : State) (b : Bool) : (s.setCheckCrc b).unpk = s.unpk := rfl
@[simp] theorem State.setCheckCrc_pack (s : State) (b : Bool) : (s.setCheckCrc b).pack = s.pack := rfl
@[simp] theorem State.setCheckCrc_filt (s : State) (b : Bool) : (s.setCheckCrc b).filt = s.filt := rfl
@[simp] theorem State.setCheckCrc_port (s : State) (b : Bool) : (s.setCheckCrc b).port = s.port := rfl
@[simp] theorem State.setCheckCrc_resp (s : State) (b : Bool) : (s.setCheckCrc b).resp = s.resp := rfl

/-! ## State.issueFirst -/

@[simp] theorem State.issueFirst_params (s : State) (c : Command) : (s.issueFirst c).params = s.params := rfl
@[simp] theorem State.issueFirst_ctrl (s : State) (c : Command) : (s.issueFirst c).ctrl = s.ctrl := rfl
@[simp] theorem State.issueFirst_halt (s : State) (c : Command) : (s.issueFirst c).halt = s.halt := rfl
@[simp] theorem State.issueFirst_errcode (s : State) (c : Command) : (s.issueFirst c).errcode = s.errcode := rfl
@[simp] theorem State.issueFirst_crcMismatch (s : State) (c : Command) : (s.issueFirst c).crcMismatch = s.crcMismatch := rfl
@[simp] theorem State.issueFirst_width (s : State) (c : Command) : (s.issueFirst c).width = s.width := rfl
@[simp] theorem State.issueFirst_height (s : State) (c : Command) : (s.issueFirst c).height = s.height := rfl
@[simp] theorem State.issueFirst_format (s : State) (c : Command) : (s.issueFirst c).format = s.format := rfl
@[simp] theorem State.issueFirst_crc (s : State) (c : Command) : (s.issueFirst c).crc = s.crc := rfl
@[simp] theorem State.issueFirst_unpk (s : State) (c : Command) : (s.issueFirst c).unpk = s.unpk := rfl
@[simp] theorem State.issueFirst_pack (s : State) (c : Command) : (s.issueFirst c).pack = s.pack := rfl
@[simp] theorem State.issueFirst_filt (s : State) (c : Command) : (s.issueFirst c).filt = s.filt := rfl
@[simp] theorem State.issueFirst_port (s : State) (c : Command) : (s.issueFirst c).port = c :: s.port := rfl
@[simp] theorem State.issueFirst_resp (s : State) (c : Command) : (s.issueFirst c).resp = s.resp := rfl

/-! ## State.softReset -/

@[simp] theorem State.softReset_params (s : State) : s.softReset.params = s.params := rfl
@[simp] theorem State.softReset_ctrl (s : State) : s.softReset.ctrl = 1#32 := rfl
@[simp] theorem State.softReset_halt (s : State) : s.softReset.halt = false := rfl
@[simp] theorem State.softReset_errcode (s : State) : s.softReset.errcode = 0#4 := rfl
@[simp] theorem State.softReset_crcMismatch (s : State) : s.softReset.crcMismatch = false := rfl
@[simp] theorem State.softReset_width (s : State) : s.softReset.width = 0#32 := rfl
@[simp] theorem State.softReset_height (s : State) : s.softReset.height = 0#32 := rfl
@[simp] theorem State.softReset_format (s : State) : s.softReset.format = 0x0F000000#32 := rfl
@[simp] theorem State.softReset_crc (s : State) : s.softReset.crc = 0xFFFFFFFF#32 := rfl
@[simp] theorem State.softReset_unpk (s : State) : s.softReset.unpk = Unpk.reset := rfl
@[simp] theorem State.softReset_pack (s : State) : s.softReset.pack = Pack.reset := rfl
@[simp] theorem State.softReset_filt (s : State) : s.softReset.filt = Filt.reset := rfl
@[simp] theorem State.softReset_port (s : State) : s.softReset.port = s.port := rfl
@[simp] theorem State.softReset_resp (s : State) : s.softReset.resp = s.resp := rfl

/-! ## Filt.enterPass -/

@[simp] theorem Filt.enterPass_mode (f : Filt) (i : Nat) : (f.enterPass i).mode = f.mode := rfl
@[simp] theorem Filt.enterPass_passes (f : Filt) (i : Nat) : (f.enterPass i).passes = f.passes := rfl
@[simp] theorem Filt.enterPass_pi (f : Filt) (i : Nat) : (f.enterPass i).pi = i := rfl
@[simp] theorem Filt.enterPass_row (f : Filt) (i : Nat) : (f.enterPass i).row = 0 := rfl
@[simp] theorem Filt.enterPass_bw (f : Filt) (i : Nat) : (f.enterPass i).bw = byteWidth f.bpp f.depth (f.pass i).pw := rfl
@[simp] theorem Filt.enterPass_bpp (f : Filt) (i : Nat) : (f.enterPass i).bpp = f.bpp := rfl
@[simp] theorem Filt.enterPass_depth (f : Filt) (i : Nat) : (f.enterPass i).depth = f.depth := rfl
@[simp] theorem Filt.enterPass_stride (f : Filt) (i : Nat) : (f.enterPass i).stride = f.stride := rfl
@[simp] theorem Filt.enterPass_sel (f : Filt) (i : Nat) : (f.enterPass i).sel = f.sel := rfl
@[simp] theorem Filt.enterPass_hasPrev (f : Filt) (i : Nat) : (f.enterPass i).hasPrev = false := rfl
@[simp] theorem Filt.enterPass_prev (f : Filt) (i : Nat) : (f.enterPass i).prev = [] := rfl

/-! ## Filt.complete -/

@[simp] theorem Filt.complete_mode (f : Filt) : f.complete.mode = .done := rfl
@[simp] theorem Filt.complete_passes (f : Filt) : f.complete.passes = f.passes := rfl
@[simp] theorem Filt.complete_pi (f : Filt) : f.complete.pi = 0 := rfl
@[simp] theorem Filt.complete_row (f : Filt) : f.complete.row = 0 := rfl
@[simp] theorem Filt.complete_bw (f : Filt) : f.complete.bw = 0 := rfl
@[simp] theorem Filt.complete_bpp (f : Filt) : f.complete.bpp = f.bpp := rfl
@[simp] theorem Filt.complete_depth (f : Filt) : f.complete.depth = f.depth := rfl
@[simp] theorem Filt.complete_stride (f : Filt) : f.complete.stride = f.stride := rfl
@[simp] theorem Filt.complete_sel (f : Filt) : f.complete.sel = f.sel := rfl
@[simp] theorem Filt.complete_hasPrev (f : Filt) : f.complete.hasPrev = false := rfl
@[simp] theorem Filt.complete_prev (f : Filt) : f.complete.prev = [] := rfl

/-! ## Filt.startSession -/

@[simp] theorem Filt.startSession_mode (f : Filt) (c : Setup) (k : BitVec 4) (m : FiltMode) :
    (f.startSession c k m).mode = m := rfl
@[simp] theorem Filt.startSession_passes (f : Filt) (c : Setup) (k : BitVec 4) (m : FiltMode) :
    (f.startSession c k m).passes = c.passes := rfl
@[simp] theorem Filt.startSession_pi (f : Filt) (c : Setup) (k : BitVec 4) (m : FiltMode) :
    (f.startSession c k m).pi = 0 := rfl
@[simp] theorem Filt.startSession_row (f : Filt) (c : Setup) (k : BitVec 4) (m : FiltMode) :
    (f.startSession c k m).row = 0 := rfl
@[simp] theorem Filt.startSession_bw (f : Filt) (c : Setup) (k : BitVec 4) (m : FiltMode) :
    (f.startSession c k m).bw = byteWidth c.bpp c.depth (c.passes.getD 0 ⟨0, 0, 0⟩).pw := rfl
@[simp] theorem Filt.startSession_bpp (f : Filt) (c : Setup) (k : BitVec 4) (m : FiltMode) :
    (f.startSession c k m).bpp = c.bpp := rfl
@[simp] theorem Filt.startSession_depth (f : Filt) (c : Setup) (k : BitVec 4) (m : FiltMode) :
    (f.startSession c k m).depth = c.depth := rfl
@[simp] theorem Filt.startSession_stride (f : Filt) (c : Setup) (k : BitVec 4) (m : FiltMode) :
    (f.startSession c k m).stride = c.stride := rfl
@[simp] theorem Filt.startSession_sel (f : Filt) (c : Setup) (k : BitVec 4) (m : FiltMode) :
    (f.startSession c k m).sel = k := rfl
@[simp] theorem Filt.startSession_hasPrev (f : Filt) (c : Setup) (k : BitVec 4) (m : FiltMode) :
    (f.startSession c k m).hasPrev = false := rfl
@[simp] theorem Filt.startSession_prev (f : Filt) (c : Setup) (k : BitVec 4) (m : FiltMode) :
    (f.startSession c k m).prev = [] := rfl

end Sys2Proof.Machine
end

