-- ==== Sys2Proof/Laws/Filter.lean ====
section
/-! SUPPORT. Lengths of the filter's rows, the tags of the filter types, and what advancing a row can do. -/

namespace Sys2Proof.Machine

@[simp] theorem FilterType.ofTag?_tag (t : FilterType) : FilterType.ofTag? t.tag = some t := by
  cases t <;> rfl

theorem FilterType.ofTag?_some {b : Byte} {t : FilterType} (h : FilterType.ofTag? b = some t) :
    t.tag = b := by
  simpa using List.find?_some h

theorem Filt.unfilterFrom_length (f : Filt) (t : FilterType) (out raw : List Byte) :
    (f.unfilterFrom t out raw).length = out.length + raw.length := by
  induction raw generalizing out with
  | nil => simp [Filt.unfilterFrom]
  | cons r raw ih => simp [Filt.unfilterFrom, ih]; omega

@[simp] theorem Filt.unfilter_length (f : Filt) (t : FilterType) (raw : List Byte) :
    (f.unfilter t raw).length = raw.length := by
  simp [Filt.unfilter, Filt.unfilterFrom_length]

theorem Filt.filterFrom_length (f : Filt) (t : FilterType) (row : List Byte) (x : Nat)
    (l : List Byte) : (f.filterFrom t row x l).length = l.length := by
  induction l generalizing x with
  | nil => rfl
  | cons r l ih => simp [Filt.filterFrom, ih]

@[simp] theorem Filt.filtered_length (f : Filt) (t : FilterType) (row : List Byte) :
    (f.filtered t row).length = row.length := f.filterFrom_length t row 0 row

/-- Everything advancing a row can do (44_filter_decode.md R196). -/
theorem Filt.advance_cases (f : Filt) (r : List Byte) :
    (f.row + 1 = (f.pass f.pi).ph ∧ f.pi + 1 < f.passes.length ∧ f.advance r = f.enterPass (f.pi + 1)) ∨
    (f.row + 1 = (f.pass f.pi).ph ∧ f.passes.length ≤ f.pi + 1 ∧ f.advance r = f.complete) ∨
    (f.row + 1 ≠ (f.pass f.pi).ph ∧
      f.advance r = { f with prev := r, hasPrev := true, row := f.row + 1 }) := by
  unfold Filt.advance
  by_cases h1 : f.row + 1 = (f.pass f.pi).ph
  · by_cases h2 : f.pi + 1 < f.passes.length
    · exact .inl ⟨h1, h2, by simp [h1, h2]⟩
    · exact .inr (.inl ⟨h1, by omega, by simp [h1, h2]⟩)
  · exact .inr (.inr ⟨h1, by simp [h1]⟩)

end Sys2Proof.Machine
end

