-- ==== Sys2Proof/Laws/Geometry.lean ====
section
/-! SUPPORT. What the checks of the geometry and of the session set-up can answer. -/

namespace Sys2Proof.Machine

/-- The geometry answers a list exactly for a size without a zero (43_adam7.md R173). -/
theorem geometry_ok {s : State} {g : List PassGeom} (h : geometry s = .ok g) :
    s.width ≠ 0#32 ∧ s.height ≠ 0#32 ∧ g = geometryOf s.width.toNat s.height.toNat s.interlace := by
  unfold geometry at h
  split at h
  · cases h
  · rename_i hz
    simp only [Bool.or_eq_true, beq_iff_eq, not_or] at hz
    exact ⟨hz.1, hz.2, (Except.ok.inj h).symm⟩

theorem geometry_error {s : State} {e : ErrCode} (h : geometry s = .error e) : e ≠ .halted ∧ e ≠ .integrity := by
  unfold geometry at h
  split at h <;> cases h
  simp

theorem passGeometry_error {s : State} {p : BitVec 3} {e : ErrCode} (h : passGeometry s p = .error e) :
    e ≠ .halted ∧ e ≠ .integrity := by
  unfold passGeometry at h
  split at h
  · cases h; exact geometry_error ‹_›
  · split at h <;> cases h
    simp

theorem checkedOffset_error {s : State} {p : BitVec 3} {x y : Nat} {e : ErrCode}
    (h : checkedOffset s p x y = .error e) : e ≠ .halted ∧ e ≠ .integrity := by
  unfold checkedOffset at h
  split at h
  · cases h; exact passGeometry_error ‹_›
  · split at h
    · cases h; simp
    · split at h <;> cases h
      simp

/-- What an accepted set-up latches (44_filter_decode.md R194, R195). -/
theorem setup_ok {s : State} {c : Setup} (h : setup s = .ok c) :
    s.width ≠ 0#32 ∧ s.height ≠ 0#32 ∧ samplesPerPixel s.colorType = some c.bpp ∧
    depthAllowed s.colorType s.bitDepth = true ∧ c.depth = s.bitDepth ∧
    c.stride = strideOf c.bpp s.bitDepth ∧
    c.passes = rowPasses 0 (geometryOf s.width.toNat s.height.toNat s.interlace) ∧
    ∀ q ∈ c.passes, byteWidth c.bpp s.bitDepth q.pw ≤ s.params.maxRowBytes := by
  unfold setup at h
  split at h
  · cases h
  · rename_i g hg
    obtain ⟨hw, hh, rfl⟩ := geometry_ok hg
    split at h
    · cases h
    · rename_i bpp hb
      split at h
      · rename_i hd
        unfold passList at h
        dsimp only at h
        split at h
        · cases h
        · rename_i l hl
          split at hl
          · rename_i ha
            cases hl
            cases h
            exact ⟨hw, hh, hb, hd, rfl, rfl, rfl, by simpa using ha⟩
          · cases hl
      · cases h

theorem setup_error {s : State} {e : ErrCode} (h : setup s = .error e) : e ≠ .halted ∧ e ≠ .integrity := by
  unfold setup at h
  split at h
  · cases h; exact geometry_error ‹_›
  · split at h
    · cases h; simp
    · split at h
      · unfold passList at h
        dsimp only at h
        split at h
        · rename_i hl
          split at hl <;> cases hl
          cases h
          simp
        · cases h
      · cases h; simp

/-- The passes a filter session expects are those with rows (44_filter_decode.md R195). -/
theorem mem_rowPasses {k : Nat} {g : List PassGeom} {q : Pass} (h : q ∈ rowPasses k g) :
    0 < q.pw ∧ 0 < q.ph ∧ q.idx < k + g.length ∧ ∃ p ∈ g, q.pw = p.pw ∧ q.ph = p.ph := by
  induction g generalizing k with
  | nil => simp [rowPasses] at h
  | cons p g ih =>
    have tail : q ∈ rowPasses (k + 1) g →
        0 < q.pw ∧ 0 < q.ph ∧ q.idx < k + (p :: g).length ∧ ∃ p' ∈ p :: g, q.pw = p'.pw ∧ q.ph = p'.ph := by
      intro hq
      obtain ⟨h1, h2, h3, p', h4, h5⟩ := ih hq
      exact ⟨h1, h2, by rw [List.length_cons]; omega, p', List.mem_cons_of_mem _ h4, h5⟩
    unfold rowPasses at h
    split at h
    · rename_i hp
      simp only [Bool.and_eq_true, decide_eq_true_eq] at hp
      obtain rfl | hq := List.mem_cons.mp h
      · exact ⟨hp.1, hp.2, by simp, p, by simp, rfl, rfl⟩
      · exact tail hq
    · exact tail h

theorem length_rowPasses_le (k : Nat) (g : List PassGeom) : (rowPasses k g).length ≤ g.length := by
  induction g generalizing k with
  | nil => simp [rowPasses]
  | cons p g ih =>
    unfold rowPasses
    split
    · simpa using ih (k + 1)
    · exact (ih (k + 1)).trans (by simp)

/-- A pass dimension is at most the full dimension (43_adam7.md R172). -/
theorem passDim_le (n o : Nat) {k : Nat} (hk : 0 < k) : passDim n o k ≤ n := by
  unfold passDim
  split
  · rw [Nat.div_le_iff_le_mul_add_pred hk]
    have : n ≤ k * n := Nat.le_mul_of_pos_left n hk
    omega
  · exact Nat.zero_le n

/-- Every pass of a geometry is at most as wide and as high as the image. -/
theorem geometryOf_le {w h : Nat} {b : Bool} {q : PassGeom} (hq : q ∈ geometryOf w h b) :
    q.pw ≤ w ∧ q.ph ≤ h := by
  cases b with
  | false =>
    simp only [geometryOf, Bool.false_eq_true, if_false, List.mem_singleton] at hq
    subst hq
    exact ⟨le_refl _, le_refl _⟩
  | true =>
    simp only [geometryOf, adam7Table, if_true, List.map_cons, List.map_nil, List.mem_cons,
      List.not_mem_nil, or_false] at hq
    rcases hq with rfl | rfl | rfl | rfl | rfl | rfl | rfl <;>
      exact ⟨passDim_le _ _ (by decide), passDim_le _ _ (by decide)⟩

theorem length_geometryOf_le (w h : Nat) (b : Bool) : (geometryOf w h b).length ≤ 7 := by
  cases b <;> simp [geometryOf, adam7Table]

end Sys2Proof.Machine
end

