-- ==== Sys2Proof/Laws/Ops.lean ====
section
/-! SUPPORT. What the shared operations can do, said once: the common sequence of 30_encoding.md R90, a
checked value, and taking a command from the port. -/

namespace Sys2Proof.Machine

/-- Step 1 of R90 refuses the operation in this state. -/
theorem command_halted {o : Op} {a : Args} {s : State} {body : Result} (hh : s.halt = true)
    (ho : acceptedWhileHalted o.code = false) : command o a s body = respondHalted s := by
  simp [command, hh, ho]

/-- Step 3 of R90 raises LENGTH. -/
theorem command_misframed {o : Op} {a : Args} {s : State} {body : Result}
    (hh : s.halt = false ∨ acceptedWhileHalted o.code = true) (hf : framed o.kind a = false) :
    command o a s body = raise s .length := by
  rcases hh with hh | hh <;> simp [command, hh, hf]

/-- A framed command that is not refused runs its body. -/
theorem command_body {o : Op} {a : Args} {s : State} {body : Result}
    (hh : s.halt = false ∨ acceptedWhileHalted o.code = true) (hf : framed o.kind a = true) :
    command o a s body = body := by
  rcases hh with hh | hh <;> simp [command, hh, hf]

/-- Everything the common sequence can do. -/
theorem command_cases {o : Op} {a : Args} {s t : State} {body : Result}
    (h : command o a s body = .next t) :
    (s.halt = true ∧ acceptedWhileHalted o.code = false ∧ t = s.haltRefused) ∨
    ((s.halt = false ∨ acceptedWhileHalted o.code = true) ∧ framed o.kind a = false ∧
      t = s.raised .length) ∨
    ((s.halt = false ∨ acceptedWhileHalted o.code = true) ∧ framed o.kind a = true ∧
      body = .next t) := by
  unfold command at h
  split at h
  · rename_i hc
    simp only [Bool.and_eq_true, Bool.not_eq_true'] at hc
    exact .inl ⟨hc.1, hc.2, (Host.Outcome.next.inj h).symm⟩
  · rename_i hc
    have hn : s.halt = false ∨ acceptedWhileHalted o.code = true := by
      cases hs : s.halt <;> simp_all
    split at h
    · exact .inr (.inr ⟨hn, ‹_›, h⟩)
    · exact .inr (.inl ⟨hn, Bool.eq_false_iff.mpr ‹_›, (Host.Outcome.next.inj h).symm⟩)

@[simp] theorem orRaise_ok {α : Type} (s : State) (x : α) (k : α → Result) :
    orRaise s (.ok x) k = k x := rfl

@[simp] theorem orRaise_error {α : Type} (s : State) (e : ErrCode) (k : α → Result) :
    orRaise s (.error e) k = raise s e := rfl

/-- Everything a checked value can do. -/
theorem orRaise_cases {α : Type} {s t : State} {r : Except ErrCode α} {k : α → Result}
    (h : orRaise s r k = .next t) :
    (∃ x, r = .ok x ∧ k x = .next t) ∨ (∃ e, r = .error e ∧ t = s.raised e) := by
  cases r with
  | ok x => exact .inl ⟨x, rfl, h⟩
  | error e => exact .inr ⟨e, rfl, (Host.Outcome.next.inj h).symm⟩

/-- Everything a command that does not decode can do. -/
theorem undecodable_cases {c : Command} {why : DecodeError} {s t : State}
    (h : undecodable c why s = .next t) :
    (s.halt = true ∧ acceptedWhileHalted (opcodeField c.header) = false ∧ t = s.haltRefused) ∨
    ((s.halt = false ∨ acceptedWhileHalted (opcodeField c.header) = true) ∧ t = s.raised .illegal) := by
  unfold undecodable at h
  split at h
  · rename_i hc
    simp only [Bool.and_eq_true, Bool.not_eq_true'] at hc
    exact .inl ⟨hc.1, hc.2, (Host.Outcome.next.inj h).symm⟩
  · rename_i hc
    refine .inr ⟨?_, (Host.Outcome.next.inj h).symm⟩
    cases hs : s.halt <;> simp_all

/-- The port answers its oldest command and is left with the rest. -/
theorem takeCommand_some {s s' : State} {c : Command} (h : takeCommand s = some (c, s')) :
    ∃ rest, s.port = c :: rest ∧ s' = { s with port := rest } := by
  unfold takeCommand at h
  split at h
  · cases h
  · rename_i c' rest hp
    simp only [Option.some.injEq, Prod.mk.injEq] at h
    exact ⟨rest, h.1 ▸ hp, h.2.symm⟩

/-- The framing check answers what the ARG kind asks. -/
theorem framed_z {a : Args} : framed .z a = true ↔ a.arg = 0#20 ∧ a.payload = [] := by
  simp [framed]

theorem framed_l {a : Args} : framed .l a = true ↔ a.payload.length = a.arg.toNat := by
  simp [framed]

theorem framed_e {a : Args} :
    framed .e a = true ↔ a.payload.length = a.arg.toNat ∧ a.arg.toNat % 2 = 0 := by
  simp [framed]

theorem framed_f {n : Nat} {a : Args} :
    framed (.f n) a = true ↔ a.arg.toNat = n ∧ a.payload.length = n := by
  simp [framed]

theorem framed_c {a : Args} : framed .c a = true ↔ a.payload = [] := by
  simp [framed]

end Sys2Proof.Machine
end

