-- ==== Sys2Proof/Laws/Exec.lean ====
section
/-! SUPPORT. Everything a command can do, said once: it is refused, it raises, it waits, or it answers OK
with the writes `Commits` names for it. Later proofs cite `exec_cases` and do not unfold the meanings. -/

namespace Sys2Proof.Machine

/-- The writes and the data of a command that answers OK, under the conditions it answers OK on: `s'` is
the state with the command's writes, before the response. -/
def Commits (i : Instr) (s s' : State) (d : List Byte) : Prop :=
  match i with
  | .ctlNop _ => s' = s ∧ d = []
  | .ctlReset _ => s' = s.softReset ∧ d = []
  | .ctlRdreg r _ => s' = s ∧ d = be 4 (readReg s r).toNat
  | .ctlWrreg r a => writeReg s r (word32 a.payload) = .ok s' ∧ d = []
  | .crcInit _ => s' = { s with crc := 0xFFFFFFFF#32 } ∧ d = []
  | .crcUpdate a => s' = { s with crc := crcFold s.crc a.payload } ∧ d = []
  | .crcFinish _ => s' = s ∧ d = be 4 (s.crc ^^^ 0xFFFFFFFF#32).toNat
  | .crcCheck a =>
    d = be 4 (s.crc ^^^ 0xFFFFFFFF#32).toNat ∧
    ((s.crc ^^^ 0xFFFFFFFF#32 = word32 a.payload ∧ s' = s) ∨
     (s.crc ^^^ 0xFFFFFFFF#32 ≠ word32 a.payload ∧ s.checkCrc = false ∧
      s' = { s with crcMismatch := true }))
  | .crcOneshot a => s' = s ∧ d = be 4 (crc32 a.payload).toNat
  | .unpkStart _ =>
    legalDepth s.bitDepth = true ∧ d = [] ∧
    s' = { s with unpk := { Unpk.reset with active := true, depth := s.bitDepth } }
  | .unpkLoad last a =>
    s.unpk.active = true ∧ s.unpk.eos = false ∧
    s.unpk.buf.length + a.payload.length ≤ s.params.unpkBufBytes ∧ d = [] ∧
    s' = { s with unpk := { s.unpk with buf := s.unpk.buf ++ a.payload, eos := last } }
  | .unpkGet a =>
    s.unpk.active = true ∧ s.unpk.need a.arg.toNat ≤ s.unpk.buf.length ∧
    d = sampleBytes (s.unpk.takeSamples a.arg.toNat).1 ∧
    s' = { s with unpk := (s.unpk.takeSamples a.arg.toNat).2 }
  | .unpkEndline _ =>
    s.unpk.active = true ∧ d = [] ∧ s' = { s with unpk := { s.unpk with rem := 0 } }
  | .unpkEnd _ =>
    s.unpk.active = true ∧ s.unpk.eos = true ∧ s.unpk.buf = [] ∧ d = [] ∧
    s' = { s with
      unpk := { s.unpk with active := false, depth := 0, eos := false, cur := 0#8, rem := 0 } }
  | .packStart _ =>
    legalDepth s.bitDepth = true ∧ d = [] ∧
    s' = { s with pack := { active := true, depth := s.bitDepth, acc := 0, bits := 0 } }
  | .packPut a =>
    s.pack.active = true ∧ (∀ x ∈ samplesOf a.payload, x < 2 ^ s.pack.depth) ∧
    d = (s.pack.putAll (samplesOf a.payload)).1 ∧
    s' = { s with pack := (s.pack.putAll (samplesOf a.payload)).2 }
  | .packEndline _ =>
    s.pack.active = true ∧ d = s.pack.flush ∧ s' = { s with pack := { s.pack with acc := 0, bits := 0 } }
  | .packEnd _ =>
    s.pack.active = true ∧ s.pack.bits = 0 ∧ d = [] ∧
    s' = { s with pack := { s.pack with active := false, depth := 0 } }
  | .a7Passes _ => ∃ g, geometry s = .ok g ∧ s' = s ∧ d = g.flatMap fun q => be 4 q.pw ++ be 4 q.ph
  | .a7Passinfo p _ => ∃ q, passGeometry s p = .ok q ∧ s' = s ∧
    d = be 1 q.x0 ++ be 1 q.y0 ++ be 1 q.dx ++ be 1 q.dy ++ be 4 q.pw ++ be 4 q.ph
  | .a7Offset p a => ∃ off,
    checkedOffset s p (unBE (a.payload.take 4)) (unBE (a.payload.drop 4)) = .ok off ∧
    s' = s ∧ d = be 8 off
  | .fdecStart _ => ∃ c, setup s = .ok c ∧ d = [] ∧
    s' = { s with filt := s.filt.startSession c 15#4 .decode }
  | .fdecRow a => ∃ t raw, s.filt.mode = .decode ∧ a.payload = FilterType.tag t :: raw ∧
    raw.length = s.filt.bw ∧ d = s.filt.unfilter t raw ∧
    s' = { s with filt := s.filt.advance (s.filt.unfilter t raw) }
  | .filtPaeth a => s' = s ∧
    d = [paeth (a.payload.getD 0 0#8) (a.payload.getD 1 0#8) (a.payload.getD 2 0#8)]
  | .fencStart _ => ∃ c, s.interlace = false ∧ legalFiltSel s.filtSel = true ∧ setup s = .ok c ∧ d = [] ∧
    s' = { s with filt := s.filt.startSession c s.filtSel .encode }
  | .fencRow a => s.filt.mode = .encode ∧ a.payload.length = s.filt.bw ∧
    d = (s.filt.choose a.payload).tag :: s.filt.filtered (s.filt.choose a.payload) a.payload ∧
    s' = { s with filt := s.filt.advance a.payload }

theorem writeReg_error {s : State} {r : Reg} {v : Word} {e : ErrCode} (h : writeReg s r v = .error e) :
    e = .illegal := by
  cases r <;> simp only [writeReg] at h <;> (try split at h) <;> cases h <;> rfl

/-- Everything a command can do. INTEGRITY is raised by CRC_CHECK alone, with the mismatch flag set. -/
theorem exec_cases {i : Instr} {s t : State} (h : exec i s = .next t) :
    (s.halt = true ∧ acceptedWhileHalted i.op.code = false ∧ t = s.haltRefused) ∨
    ((s.halt = false ∨ acceptedWhileHalted i.op.code = true) ∧
      ((∃ e, (e ≠ .halted ∧ e ≠ .integrity) ∧ t = s.raised e) ∨
       ((∃ a, i = .crcCheck a) ∧ s.checkCrc = true ∧
         t = ({ s with crcMismatch := true } : State).raised .integrity) ∨
       ((∃ a, i = .unpkGet a) ∧ t = s.waiting) ∨
       (i.Framed ∧ ∃ s' d, Commits i s s' d ∧ t = s'.answered d))) := by
  have fromBody : ∀ {body : Result}, command i.op i.args s body = .next t →
      (body = .next t → i.Framed →
        (∃ e, (e ≠ .halted ∧ e ≠ .integrity) ∧ t = s.raised e) ∨
        ((∃ a, i = .crcCheck a) ∧ s.checkCrc = true ∧
          t = ({ s with crcMismatch := true } : State).raised .integrity) ∨
        ((∃ a, i = .unpkGet a) ∧ t = s.waiting) ∨
        (i.Framed ∧ ∃ s' d, Commits i s s' d ∧ t = s'.answered d)) →
      (s.halt = true ∧ acceptedWhileHalted i.op.code = false ∧ t = s.haltRefused) ∨
      ((s.halt = false ∨ acceptedWhileHalted i.op.code = true) ∧
        ((∃ e, (e ≠ .halted ∧ e ≠ .integrity) ∧ t = s.raised e) ∨
         ((∃ a, i = .crcCheck a) ∧ s.checkCrc = true ∧
           t = ({ s with crcMismatch := true } : State).raised .integrity) ∨
         ((∃ a, i = .unpkGet a) ∧ t = s.waiting) ∨
         (i.Framed ∧ ∃ s' d, Commits i s s' d ∧ t = s'.answered d))) := by
    intro body hc k
    obtain ⟨h1, h2, h3⟩ | ⟨h1, h2, h3⟩ | ⟨h1, h2, h3⟩ := command_cases hc
    · exact .inl ⟨h1, h2, h3⟩
    · exact .inr ⟨h1, .inl ⟨_, by simp, h3⟩⟩
    · exact .inr ⟨h1, k h3 h2⟩
  have ok : ∀ {s' : State} {d : List Byte}, respondOk s' d = .next t → t = s'.answered d :=
    fun k => (Host.Outcome.next.inj k).symm
  have err : ∀ {e : ErrCode}, raise s e = .next t → t = s.raised e :=
    fun k => (Host.Outcome.next.inj k).symm
  cases i with
  | ctlNop a => exact fromBody h fun k hf => .inr (.inr (.inr ⟨hf, _, _, ⟨rfl, rfl⟩, ok k⟩))
  | ctlReset a => exact fromBody h fun k hf => .inr (.inr (.inr ⟨hf, _, _, ⟨rfl, rfl⟩, ok k⟩))
  | ctlRdreg r a => exact fromBody h fun k hf => .inr (.inr (.inr ⟨hf, _, _, ⟨rfl, rfl⟩, ok k⟩))
  | ctlWrreg r a =>
    refine fromBody h fun k hf => ?_
    obtain ⟨s', h1, h2⟩ | ⟨e, h1, h2⟩ := orRaise_cases k
    · exact .inr (.inr (.inr ⟨hf, _, _, ⟨h1, rfl⟩, ok h2⟩))
    · exact .inl ⟨e, by simp [writeReg_error h1], h2⟩
  | crcInit a => exact fromBody h fun k hf => .inr (.inr (.inr ⟨hf, _, _, ⟨rfl, rfl⟩, ok k⟩))
  | crcUpdate a => exact fromBody h fun k hf => .inr (.inr (.inr ⟨hf, _, _, ⟨rfl, rfl⟩, ok k⟩))
  | crcFinish a => exact fromBody h fun k hf => .inr (.inr (.inr ⟨hf, _, _, ⟨rfl, rfl⟩, ok k⟩))
  | crcCheck a =>
    refine fromBody h fun k hf => ?_
    unfold checkCrcBody at k
    dsimp only at k
    split at k
    · exact .inr (.inr (.inr ⟨hf, _, _, ⟨rfl, .inl ⟨eq_of_beq ‹(_ == _) = true›, rfl⟩⟩, ok k⟩))
    · rename_i hne
      split at k
      · exact .inr (.inl ⟨⟨a, rfl⟩, ‹_›, (Host.Outcome.next.inj k).symm⟩)
      · exact .inr (.inr (.inr ⟨hf, _, _,
          ⟨rfl, .inr ⟨by simpa using hne, Bool.eq_false_iff.mpr ‹_›, rfl⟩⟩, ok k⟩))
  | crcOneshot a => exact fromBody h fun k hf => .inr (.inr (.inr ⟨hf, _, _, ⟨rfl, rfl⟩, ok k⟩))
  | unpkStart a =>
    refine fromBody h fun k hf => ?_
    split at k
    · exact .inr (.inr (.inr ⟨hf, _, _, ⟨‹_›, rfl, rfl⟩, ok k⟩))
    · exact .inl ⟨_, by simp, err k⟩
  | unpkLoad last a =>
    refine fromBody h fun k hf => ?_
    split at k
    · exact .inl ⟨_, by simp, err k⟩
    · split at k
      · exact .inl ⟨_, by simp, err k⟩
      · split at k
        · exact .inl ⟨_, by simp, err k⟩
        · exact .inr (.inr (.inr ⟨hf, _, _, ⟨by simp_all, Bool.eq_false_iff.mpr ‹_›, by omega, rfl, rfl⟩, ok k⟩))
  | unpkGet a =>
    refine fromBody h fun k hf => ?_
    split at k
    · exact .inl ⟨_, by simp, err k⟩
    · split at k
      · split at k
        · exact .inl ⟨_, by simp, err k⟩
        · exact .inr (.inr (.inl ⟨⟨a, rfl⟩, (Host.Outcome.next.inj k).symm⟩))
      · exact .inr (.inr (.inr ⟨hf, _, _, ⟨by simp_all, by omega, rfl, rfl⟩, ok k⟩))
  | unpkEndline a =>
    refine fromBody h fun k hf => ?_
    split at k
    · exact .inl ⟨_, by simp, err k⟩
    · exact .inr (.inr (.inr ⟨hf, _, _, ⟨by simp_all, rfl, rfl⟩, ok k⟩))
  | unpkEnd a =>
    refine fromBody h fun k hf => ?_
    split at k
    · exact .inl ⟨_, by simp, err k⟩
    · split at k
      · exact .inl ⟨_, by simp, err k⟩
      · split at k
        · exact .inl ⟨_, by simp, err k⟩
        · exact .inr (.inr (.inr ⟨hf, _, _,
            ⟨by simp_all, by simp_all, List.eq_nil_of_length_eq_zero (by omega), rfl, rfl⟩, ok k⟩))
  | packStart a =>
    refine fromBody h fun k hf => ?_
    split at k
    · exact .inr (.inr (.inr ⟨hf, _, _, ⟨‹_›, rfl, rfl⟩, ok k⟩))
    · exact .inl ⟨_, by simp, err k⟩
  | packPut a =>
    refine fromBody h fun k hf => ?_
    split at k
    · exact .inl ⟨_, by simp, err k⟩
    · split at k
      · exact .inr (.inr (.inr ⟨hf, _, _, ⟨by simp_all, by simp_all, rfl, rfl⟩, ok k⟩))
      · exact .inl ⟨_, by simp, err k⟩
  | packEndline a =>
    refine fromBody h fun k hf => ?_
    split at k
    · exact .inl ⟨_, by simp, err k⟩
    · exact .inr (.inr (.inr ⟨hf, _, _, ⟨by simp_all, rfl, rfl⟩, ok k⟩))
  | packEnd a =>
    refine fromBody h fun k hf => ?_
    split at k
    · exact .inl ⟨_, by simp, err k⟩
    · split at k
      · exact .inl ⟨_, by simp, err k⟩
      · exact .inr (.inr (.inr ⟨hf, _, _, ⟨by simp_all, by omega, rfl, rfl⟩, ok k⟩))
  | a7Passes a =>
    refine fromBody h fun k hf => ?_
    obtain ⟨g, h1, h2⟩ | ⟨e, h1, h2⟩ := orRaise_cases k
    · exact .inr (.inr (.inr ⟨hf, _, _, ⟨g, h1, rfl, rfl⟩, ok h2⟩))
    · exact .inl ⟨e, geometry_error h1, h2⟩
  | a7Passinfo p a =>
    refine fromBody h fun k hf => ?_
    obtain ⟨g, h1, h2⟩ | ⟨e, h1, h2⟩ := orRaise_cases k
    · exact .inr (.inr (.inr ⟨hf, _, _, ⟨g, h1, rfl, rfl⟩, ok h2⟩))
    · exact .inl ⟨e, passGeometry_error h1, h2⟩
  | a7Offset p a =>
    refine fromBody h fun k hf => ?_
    obtain ⟨g, h1, h2⟩ | ⟨e, h1, h2⟩ := orRaise_cases k
    · exact .inr (.inr (.inr ⟨hf, _, _, ⟨g, h1, rfl, rfl⟩, ok h2⟩))
    · exact .inl ⟨e, checkedOffset_error h1, h2⟩
  | fdecStart a =>
    refine fromBody h fun k hf => ?_
    obtain ⟨c, h1, h2⟩ | ⟨e, h1, h2⟩ := orRaise_cases k
    · exact .inr (.inr (.inr ⟨hf, _, _, ⟨c, h1, rfl, rfl⟩, ok h2⟩))
    · exact .inl ⟨e, setup_error h1, h2⟩
  | fdecRow a =>
    refine fromBody h fun k hf => ?_
    split at k
    · exact .inl ⟨_, by simp, err k⟩
    · exact .inl ⟨_, by simp, err k⟩
    · exact .inl ⟨_, by simp, err k⟩
    · rename_i hm
      split at k
      · rename_i ha
        unfold decodeRow at k
        split at k
        · exact .inl ⟨_, by simp, err k⟩
        · rename_i b raw hp
          split at k
          · exact .inl ⟨_, by simp, err k⟩
          · rename_i t ht
            have hl : a.payload.length = a.arg.toNat := framed_l.mp hf
            have hb : a.arg.toNat = s.filt.bw + 1 := by simpa using ha
            rw [hp, List.length_cons] at hl
            exact .inr (.inr (.inr ⟨hf, _, _,
              ⟨t, raw, hm, by rw [hp, FilterType.ofTag?_some ht], by omega, rfl, rfl⟩, ok k⟩))
      · exact .inl ⟨_, by simp, err k⟩
  | filtPaeth a => exact fromBody h fun k hf => .inr (.inr (.inr ⟨hf, _, _, ⟨rfl, rfl⟩, ok k⟩))
  | fencStart a =>
    refine fromBody h fun k hf => ?_
    split at k
    · exact .inl ⟨_, by simp, err k⟩
    · split at k
      · obtain ⟨c, h1, h2⟩ | ⟨e, h1, h2⟩ := orRaise_cases k
        · exact .inr (.inr (.inr ⟨hf, _, _, ⟨c, Bool.eq_false_iff.mpr ‹_›, ‹_›, h1, rfl, rfl⟩, ok h2⟩))
        · exact .inl ⟨e, setup_error h1, h2⟩
      · exact .inl ⟨_, by simp, err k⟩
  | fencRow a =>
    refine fromBody h fun k hf => ?_
    split at k
    · exact .inl ⟨_, by simp, err k⟩
    · exact .inl ⟨_, by simp, err k⟩
    · exact .inl ⟨_, by simp, err k⟩
    · rename_i hm
      split at k
      · rename_i ha
        have hl : a.payload.length = a.arg.toNat := framed_l.mp hf
        exact .inr (.inr (.inr ⟨hf, _, _, ⟨hm, by rw [hl]; simpa using ha, rfl, rfl⟩, ok k⟩))
      · exact .inl ⟨_, by simp, err k⟩

end Sys2Proof.Machine
end

