-- ==== Sys2Proof/Laws/PerInstr.lean ====
section
/-! SUPPORT. Facts about every command as syntax, one lemma per constructor. -/

/-- The fields of a command's encoding are its opcode, its MOD bits, its ARG and its payload
(30_encoding.md R81). -/
def Sys2Proof.Laws.EncodedFields.Statement (i : Sys2Proof.Instr) : Prop :=
  Sys2Proof.opcodeField (Sys2Proof.encode i).header = i.op.code ∧
  Sys2Proof.modField (Sys2Proof.encode i).header = i.modBits ∧
  Sys2Proof.argField (Sys2Proof.encode i).header = i.args.arg ∧
  (Sys2Proof.encode i).payload = i.args.payload

namespace Sys2Proof.Laws

/-- The statement holds of every command by the three field lemmas of a header. -/
theorem encodedFields_of (i : Instr) : EncodedFields.Statement i :=
  ⟨opcodeField_headerOf .., modField_headerOf .., argField_headerOf .., rfl⟩

theorem EncodedFields.ctlNop (a : Args) : EncodedFields.Statement (.ctlNop a) := encodedFields_of _
theorem EncodedFields.ctlReset (a : Args) : EncodedFields.Statement (.ctlReset a) := encodedFields_of _
theorem EncodedFields.ctlRdreg (r : Reg) (a : Args) : EncodedFields.Statement (.ctlRdreg r a) := encodedFields_of _
theorem EncodedFields.ctlWrreg (r : Reg) (a : Args) : EncodedFields.Statement (.ctlWrreg r a) := encodedFields_of _
theorem EncodedFields.crcInit (a : Args) : EncodedFields.Statement (.crcInit a) := encodedFields_of _
theorem EncodedFields.crcUpdate (a : Args) : EncodedFields.Statement (.crcUpdate a) := encodedFields_of _
theorem EncodedFields.crcFinish (a : Args) : EncodedFields.Statement (.crcFinish a) := encodedFields_of _
theorem EncodedFields.crcCheck (a : Args) : EncodedFields.Statement (.crcCheck a) := encodedFields_of _
theorem EncodedFields.crcOneshot (a : Args) : EncodedFields.Statement (.crcOneshot a) := encodedFields_of _
theorem EncodedFields.unpkStart (a : Args) : EncodedFields.Statement (.unpkStart a) := encodedFields_of _
theorem EncodedFields.unpkLoad (last : Bool) (a : Args) : EncodedFields.Statement (.unpkLoad last a) := encodedFields_of _
theorem EncodedFields.unpkGet (a : Args) : EncodedFields.Statement (.unpkGet a) := encodedFields_of _
theorem EncodedFields.unpkEndline (a : Args) : EncodedFields.Statement (.unpkEndline a) := encodedFields_of _
theorem EncodedFields.unpkEnd (a : Args) : EncodedFields.Statement (.unpkEnd a) := encodedFields_of _
theorem EncodedFields.packStart (a : Args) : EncodedFields.Statement (.packStart a) := encodedFields_of _
theorem EncodedFields.packPut (a : Args) : EncodedFields.Statement (.packPut a) := encodedFields_of _
theorem EncodedFields.packEndline (a : Args) : EncodedFields.Statement (.packEndline a) := encodedFields_of _
theorem EncodedFields.packEnd (a : Args) : EncodedFields.Statement (.packEnd a) := encodedFields_of _
theorem EncodedFields.a7Passes (a : Args) : EncodedFields.Statement (.a7Passes a) := encodedFields_of _
theorem EncodedFields.a7Passinfo (p : BitVec 3) (a : Args) : EncodedFields.Statement (.a7Passinfo p a) := encodedFields_of _
theorem EncodedFields.a7Offset (p : BitVec 3) (a : Args) : EncodedFields.Statement (.a7Offset p a) := encodedFields_of _
theorem EncodedFields.fdecStart (a : Args) : EncodedFields.Statement (.fdecStart a) := encodedFields_of _
theorem EncodedFields.fdecRow (a : Args) : EncodedFields.Statement (.fdecRow a) := encodedFields_of _
theorem EncodedFields.filtPaeth (a : Args) : EncodedFields.Statement (.filtPaeth a) := encodedFields_of _
theorem EncodedFields.fencStart (a : Args) : EncodedFields.Statement (.fencStart a) := encodedFields_of _
theorem EncodedFields.fencRow (a : Args) : EncodedFields.Statement (.fencRow a) := encodedFields_of _

end Sys2Proof.Laws
end

