-- ==== Sys2Proof/Tests/Slice0.lean ====
section
/-! SUPPORT. The model's own tests. Words and expected responses are the spec's (30_encoding.md R86 and R95,
95_test_vectors.md sections 1 to 3), unless a comment says otherwise. Then one witness for the hypotheses
of every statement that has some. -/

namespace Sys2Proof.Tests

open Sys2Proof.Machine

/-! ## Helper states -/

/-- The state after executing one command given by its header and payload. -/
def after (s : State) (h : Word) (p : List Byte) : Option State :=
  match step (s.issueFirst ⟨h, p⟩) with
  | .next t => some t
  | .fault _ => none
  | .refused _ => none

/-- The response to one command, as the port carries it. -/
def answer (s : State) (h : Word) (p : List Byte) : Option (Word × List Byte) :=
  (after s h p).bind fun t => t.resp.map fun r => (r.header, r.data)

/-- The response to one command and a register's value after it. -/
def answerAnd (r : Reg) (s : State) (h : Word) (p : List Byte) : Option (Word × List Byte × Word) :=
  (after s h p).bind fun t => t.resp.map fun x => (x.header, x.data, readReg t r)

/-- A block configured for an image. -/
def image (w h f : Word) : State := { State.reset with width := w, height := h, format := f }

/-- An active unpacker. -/
def unpacker (d : Nat) (buf : List Byte) (eos : Bool) (cur : Byte) (rem : Nat) : State :=
  { State.reset with unpk := ⟨true, d, buf, eos, cur, rem⟩ }

/-- An active packer. -/
def packer (d acc bits : Nat) : State := { State.reset with pack := ⟨true, d, acc, bits⟩ }

/-- A session over one pass. -/
def session (m : FiltMode) (w h bw bpp d stride : Nat) (sel : BitVec 4) (row : Nat) (prev : List Byte) :
    State :=
  { State.reset with
    filt := { mode := m, passes := [⟨0, w, h⟩], pi := 0, row := row, bw := bw, bpp := bpp, depth := d,
              stride := stride, sel := sel, hasPrev := decide (0 < row), prev := prev } }

/-- A halted block that holds an error code. -/
def halted : State := { State.reset with halt := true, errcode := 7#4 }

/-! ## Well-formedness and framing -/

/-- A payload of 2^20 bytes does not fit the port (30_encoding.md R80). -/
theorem test_wellFormed_refuses_long_payload :
    ¬ (Instr.crcUpdate ⟨0#20, List.replicate 1048576 0#8⟩).WellFormed ∧
    ¬ (Command.WellFormed ⟨0x11000000#32, List.replicate 1048576 0#8⟩) := by
  constructor
  · show ¬ (List.replicate 1048576 0#8).length ≤ maxPayload
    rw [List.length_replicate]
    decide
  · show ¬ (List.replicate 1048576 0#8).length ≤ maxPayload
    rw [List.length_replicate]
    decide

theorem test_wellFormed_accepts_longest_payload :
    (Instr.crcUpdate ⟨0xFFFFF#20, List.replicate 1048575 0#8⟩).WellFormed := by
  show (List.replicate 1048575 0#8).length ≤ maxPayload
  rw [List.length_replicate]
  decide

/-- One badly framed command for each ARG kind (30_encoding.md R82). -/
theorem test_framed_refuses :
    ¬ (Instr.ctlNop ⟨1#20, []⟩).Framed ∧ ¬ (Instr.ctlNop ⟨0#20, [0#8]⟩).Framed ∧
    ¬ (Instr.crcUpdate ⟨3#20, [0x61#8, 0x62#8]⟩).Framed ∧
    ¬ (Instr.packPut ⟨3#20, [0#8, 0#8, 0#8]⟩).Framed ∧
    ¬ (Instr.crcCheck ⟨3#20, [0#8, 0#8, 0#8]⟩).Framed ∧
    ¬ (Instr.unpkGet ⟨3#20, [0#8]⟩).Framed := by decide

/-! ## Decoding: one word of every row of 30_encoding.md R86, bits [31:24] OPCODE, [23:20] MOD, [19:0] ARG -/

theorem test_decode_control :
    decode ⟨0x00000000#32, []⟩ = .ok (.ctlNop ⟨0#20, []⟩) ∧
    decode ⟨0x01000000#32, []⟩ = .ok (.ctlReset ⟨0#20, []⟩) ∧
    decode ⟨0x02C00000#32, []⟩ = .ok (.ctlRdreg .filtByteWidth ⟨0#20, []⟩) ∧
    decode ⟨0x03500004#32, [0x0F#8, 1#8, 7#8, 0x1F#8]⟩
      = .ok (.ctlWrreg .format ⟨4#20, [0x0F#8, 1#8, 7#8, 0x1F#8]⟩) := ⟨rfl, rfl, rfl, rfl⟩

theorem test_decode_crc :
    decode ⟨0b00010000000000000000000000000000#32, []⟩ = .ok (.crcInit ⟨0#20, []⟩) ∧
    decode ⟨0b00010001000000000000000000000001#32, [0x61#8]⟩ = .ok (.crcUpdate ⟨1#20, [0x61#8]⟩) ∧
    decode ⟨0b00010010000000000000000000000000#32, []⟩ = .ok (.crcFinish ⟨0#20, []⟩) ∧
    decode ⟨0b00010011000000000000000000000100#32, [1#8, 2#8, 3#8, 4#8]⟩
      = .ok (.crcCheck ⟨4#20, [1#8, 2#8, 3#8, 4#8]⟩) ∧
    decode ⟨0b00010100000000000000000000000001#32, [0x61#8]⟩ = .ok (.crcOneshot ⟨1#20, [0x61#8]⟩) :=
  ⟨rfl, rfl, rfl, rfl, rfl⟩

theorem test_decode_bitpack :
    decode ⟨0x20000000#32, []⟩ = .ok (.unpkStart ⟨0#20, []⟩) ∧
    decode ⟨0x21000001#32, [0xC8#8]⟩ = .ok (.unpkLoad false ⟨1#20, [0xC8#8]⟩) ∧
    decode ⟨0x21100001#32, [0x1B#8]⟩ = .ok (.unpkLoad true ⟨1#20, [0x1B#8]⟩) ∧
    decode ⟨0x22000003#32, []⟩ = .ok (.unpkGet ⟨3#20, []⟩) ∧
    decode ⟨0x23000000#32, []⟩ = .ok (.unpkEndline ⟨0#20, []⟩) ∧
    decode ⟨0x24000000#32, []⟩ = .ok (.unpkEnd ⟨0#20, []⟩) ∧
    decode ⟨0x30000000#32, []⟩ = .ok (.packStart ⟨0#20, []⟩) ∧
    decode ⟨0x31000002#32, [0#8, 2#8]⟩ = .ok (.packPut ⟨2#20, [0#8, 2#8]⟩) ∧
    decode ⟨0x32000000#32, []⟩ = .ok (.packEndline ⟨0#20, []⟩) ∧
    decode ⟨0x33000000#32, []⟩ = .ok (.packEnd ⟨0#20, []⟩) :=
  ⟨rfl, rfl, rfl, rfl, rfl, rfl, rfl, rfl, rfl, rfl⟩

theorem test_decode_adam7_and_filter :
    decode ⟨0x40000000#32, []⟩ = .ok (.a7Passes ⟨0#20, []⟩) ∧
    decode ⟨0x41600000#32, []⟩ = .ok (.a7Passinfo 6#3 ⟨0#20, []⟩) ∧
    decode ⟨0x42700008#32, [0#8, 0#8, 0#8, 9#8, 0#8, 0#8, 0#8, 4#8]⟩
      = .ok (.a7Offset 7#3 ⟨8#20, [0#8, 0#8, 0#8, 9#8, 0#8, 0#8, 0#8, 4#8]⟩) ∧
    decode ⟨0x50000000#32, []⟩ = .ok (.fdecStart ⟨0#20, []⟩) ∧
    decode ⟨0x51000002#32, [2#8, 0xD3#8]⟩ = .ok (.fdecRow ⟨2#20, [2#8, 0xD3#8]⟩) ∧
    decode ⟨0x52000003#32, [10#8, 20#8, 15#8]⟩ = .ok (.filtPaeth ⟨3#20, [10#8, 20#8, 15#8]⟩) ∧
    decode ⟨0x60000000#32, []⟩ = .ok (.fencStart ⟨0#20, []⟩) ∧
    decode ⟨0x61000001#32, [5#8]⟩ = .ok (.fencRow ⟨1#20, [5#8]⟩) :=
  ⟨rfl, rfl, rfl, rfl, rfl, rfl, rfl, rfl⟩

/-- Section 2.2, the lines with a reserved header. -/
theorem test_decode_refuses :
    decode ⟨0x15000000#32, []⟩ = .error .undefinedOpcode ∧
    decode ⟨0x00100000#32, []⟩ = .error .reservedMod ∧
    decode ⟨0x02D00000#32, []⟩ = .error .reservedSlot ∧
    decode ⟨0x21200000#32, []⟩ = .error .reservedMod ∧
    decode ⟨0x41800000#32, []⟩ = .error .reservedMod := ⟨rfl, rfl, rfl, rfl, rfl⟩

/-- An operand byte on the transport is not lost, and the next command starts after it. -/
theorem test_transport :
    readCommand [0x21#8, 0x10#8, 0#8, 1#8, 0x1B#8, 0x24#8, 0#8, 0#8, 0#8]
      = some (⟨0x21100001#32, [0x1B#8]⟩, [0x24#8, 0#8, 0#8, 0#8]) := by decide

/-- The response examples of 30_encoding.md R95 as transport bytes, read back; too few bytes are no response. -/
theorem test_response_transport :
    (Response.ok [0xAE#8, 0x42#8, 0x60#8, 0x82#8]).toBytes
      = [0#8, 0#8, 0#8, 4#8, 0xAE#8, 0x42#8, 0x60#8, 0x82#8] ∧
    (Response.err .integrity).toBytes = [0x82#8, 0#8, 0#8, 0#8] ∧
    readResponse [0x82#8, 0#8, 0#8, 0#8, 0x40#8] = some (.err .integrity, [0x40#8]) ∧
    readResponse [0#8, 0#8, 0#8, 4#8, 0xAE#8] = none ∧
    readResponse [0xC0#8, 0#8, 0#8, 0#8] = none := by decide

/-- FORMAT 0x03010610: depth 16, colour type 6, interlaced, FILTSEL 3 (10_state.md R28). -/
theorem test_format_fields :
    (image 1#32 1#32 0x03010610#32).bitDepth = 16 ∧ (image 1#32 1#32 0x03010610#32).colorType = 6 ∧
    (image 1#32 1#32 0x03010610#32).interlace = true ∧ (image 1#32 1#32 0x03010610#32).filtSel = 3#4 := by
  decide

/-- A table word decodes, with a payload of zeros where its kind fixes a length, and runs as the next command. -/
theorem test_table_words :
    decodeTableWord 32 0x13000004 = some (.crcCheck ⟨4#20, [0#8, 0#8, 0#8, 0#8]⟩) ∧
    decodeTableWord 32 0x41600000 = some (.a7Passinfo 6#3 ⟨0#20, []⟩) ∧
    decodeTableWord 32 0x15000000 = none ∧
    (match step (State.reset.withFetchWord 32 0x02000000) with
      | .next t => t.resp
      | .fault _ => none
      | .refused _ => none) = some (.ok [0x44#8, 0x50#8, 0x4E#8, 0x47#8]) := by decide

/-- The lines of 30_encoding.md R95, byte lists in decimal; a badly framed command has none. -/
theorem test_assembly_text :
    Asm.lineOf (.crcUpdate ⟨4#20, [0x49#8, 0x45#8, 0x4E#8, 0x44#8]⟩) = some "crc.update [73, 69, 78, 68]" ∧
    Asm.lineOf (.unpkLoad true ⟨1#20, [0x1B#8]⟩) = some "unpk.load.last [27]" ∧
    Asm.lineOf (Asm.a7Offset 6#3 9#32 4#32) = some "a7.offset 6, 9, 4" ∧
    Asm.lineOf (.fdecRow ⟨4#20, [4#8, 1#8, 2#8, 3#8]⟩) = some "fdec.row 4, [1, 2, 3]" ∧
    Asm.lineOf (.ctlNop ⟨1#20, []⟩) = none := by decide +kernel

/-! ## Control and the common sequence (section 2.2) -/

theorem test_ctlNop : answerAnd .status State.reset 0x00000000#32 [] = some (0#32, [], 0#32) := by decide

/-- The halted block, steps 4 and 2. -/
theorem test_halted :
    answerAnd .status halted 0x00000001#32 [] = some (0x89000000#32, [], 0x71#32) ∧
    answerAnd .status halted 0x15000000#32 [] = some (0x8A000000#32, [], 0x71#32) := by decide

/-- The halted block, steps 4a and 6. -/
theorem test_ctlReset :
    answerAnd .status halted 0x01000001#32 [] = some (0x89000000#32, [], 0x71#32) ∧
    (after halted 0x01000000#32 []).map (fun t => ({ t with resp := none } : State)) = some State.reset := by
  decide

theorem test_ctlRdreg :
    answer State.reset 0x02000000#32 [] = some (4#32, [0x44#8, 0x50#8, 0x4E#8, 0x47#8]) ∧
    answer halted 0x02200000#32 [] = some (4#32, [0#8, 0#8, 0#8, 0x71#8]) := by decide

theorem test_ctlWrreg :
    answerAnd .format State.reset 0x03500004#32 [0x0F#8, 1#8, 7#8, 0x1F#8]
      = some (0#32, [], 0x0F01071F#32) ∧
    answerAnd .status State.reset 0x03500004#32 [0#8, 0#8, 0#8, 0x80#8]
      = some (0x87000000#32, [], 0x71#32) ∧
    answerAnd .status State.reset 0x03100004#32 [0#8, 0#8, 0#8, 2#8]
      = some (0x87000000#32, [], 0x71#32) ∧
    answerAnd .status State.reset 0x03200004#32 [0#8, 0#8, 0#8, 0#8]
      = some (0x87000000#32, [], 0x71#32) := by decide

/-! ## CRC (section 2.1) -/

theorem test_crcTable :
    crcTable 0#32 = 0#32 ∧ crcTable 1#32 = 0x77073096#32 ∧ crcTable 8#32 = 0x0EDB8832#32 ∧
    crcTable 255#32 = 0x2D02EF8D#32 := by decide

theorem test_crcInit :
    answerAnd .crcState { State.reset with crc := 0x340BC6D9#32 } 0x10000000#32 []
      = some (0#32, [], 0xFFFFFFFF#32) := by decide

/-- "ND" after "IE". -/
theorem test_crcUpdate :
    answerAnd .crcState { State.reset with crc := 0x992BAC53#32 } 0x11000002#32 [0x4E#8, 0x44#8]
      = some (0#32, [], 0x51BD9F7D#32) := by decide +kernel

theorem test_crcFinish :
    answer { State.reset with crc := 0x51BD9F7D#32 } 0x12000000#32 []
      = some (4#32, [0xAE#8, 0x42#8, 0x60#8, 0x82#8]) := by decide

/-- "IENE", checking on and off. -/
theorem test_crcCheck_mismatch :
    answerAnd .status { State.reset with crc := 0x26BAAFEB#32 } 0x13000004#32
      [0xAE#8, 0x42#8, 0x60#8, 0x82#8] = some (0x82000000#32, [], 0x121#32) ∧
    answerAnd .status { State.reset with crc := 0x26BAAFEB#32, ctrl := 0#32 } 0x13000004#32
      [0xAE#8, 0x42#8, 0x60#8, 0x82#8] = some (4#32, [0xD9#8, 0x45#8, 0x50#8, 0x14#8], 0x100#32) := by
  decide

theorem test_crcCheck_match :
    answerAnd .status { State.reset with crc := 0x340BC6D9#32 } 0x13000004#32
      [0xCB#8, 0xF4#8, 0x39#8, 0x26#8] = some (4#32, [0xCB#8, 0xF4#8, 0x39#8, 0x26#8], 0#32) := by decide

theorem test_crcOneshot :
    answerAnd .crcState { State.reset with crc := 0x340BC6D9#32 } 0x14000001#32 [0x61#8]
      = some (4#32, [0xE8#8, 0xB7#8, 0xBE#8, 0x43#8], 0x340BC6D9#32) := by decide +kernel

/-! ## Unpacker and packer (section 2.3) -/

theorem test_unpkStart :
    answerAnd .unpkCur (image 0#32 0#32 2#32) 0x20000000#32 [] = some (0#32, [], 0x00020000#32) ∧
    answerAnd .status (image 0#32 0#32 3#32) 0x20000000#32 [] = some (0x81000000#32, [], 0x11#32) := by
  decide

theorem test_unpkLoad :
    answerAnd .status (unpacker 2 [] false 0#8 0) 0x21100001#32 [0x1B#8] = some (0#32, [], 0x600#32) ∧
    answer (unpacker 2 [] true 0#8 0) 0x21000001#32 [0x1B#8] = some (0x85000000#32, []) := by decide

/-- The capacity line, with a queue of 4 bytes. -/
theorem test_unpkLoad_capacity :
    answerAnd .status { unpacker 8 [1#8, 2#8, 3#8, 4#8] false 0#8 0 with params := ⟨4, 1048574, none⟩ }
      0x21000001#32 [5#8] = some (0x88000000#32, [], 0x281#32) := by decide

theorem test_unpkGet :
    answerAnd .unpkCur (unpacker 4 [0x7E#8, 0x19#8] true 0#8 0) 0x22000003#32 []
      = some (6#32, [0#8, 7#8, 0#8, 14#8, 0#8, 1#8], 0x00040119#32) ∧
    answer (unpacker 16 [0xFF#8, 0xFE#8, 0#8, 1#8] true 0#8 0) 0x22000002#32 []
      = some (4#32, [0xFF#8, 0xFE#8, 0#8, 1#8]) := by decide

/-- WAIT with 3 samples left and more to come, and TRUNCATION once the source is complete (P3b). -/
theorem test_unpkGet_short :
    answerAnd .unpkCur (unpacker 2 [] false 0xC8#8 3) 0x22000004#32 []
      = some (0x40000000#32, [], 0x000203C8#32) ∧
    answerAnd .status (unpacker 16 [0x56#8] true 0#8 0) 0x22000001#32 []
      = some (0x83000000#32, [], 0x631#32) := by decide

theorem test_unpkEndline :
    answerAnd .unpkCur (unpacker 4 [0x19#8] true 0x7E#8 1) 0x23000000#32 []
      = some (0#32, [], 0x0004007E#32) := by decide

theorem test_unpkEnd :
    answerAnd .unpkCur (unpacker 2 [] true 0xC8#8 3) 0x24000000#32 [] = some (0#32, [], 0#32) ∧
    answer (unpacker 8 [1#8] true 0#8 0) 0x24000000#32 [] = some (0x84000000#32, []) ∧
    answer (unpacker 8 [] false 0#8 0) 0x24000000#32 [] = some (0x85000000#32, []) := by decide

theorem test_packStart :
    answerAnd .packAcc (image 0#32 0#32 2#32) 0x30000000#32 [] = some (0#32, [], 0x00020000#32) ∧
    answerAnd .status (image 0#32 0#32 3#32) 0x30000000#32 [] = some (0x81000000#32, [], 0x11#32) := by
  decide

theorem test_packPut :
    answerAnd .packAcc (packer 4 0 0) 0x31000006#32 [0#8, 7#8, 0#8, 14#8, 0#8, 1#8]
      = some (1#32, [0x7E#8], 0x00040401#32) ∧
    answerAnd .packAcc (packer 16 0 0) 0x31000004#32 [0x12#8, 0x34#8, 0xFF#8, 0xFF#8]
      = some (4#32, [0x12#8, 0x34#8, 0xFF#8, 0xFF#8], 0x00100000#32) := by decide

/-- The refused put packs nothing; an odd length is refused before it. -/
theorem test_packPut_refused :
    answerAnd .packAcc (packer 4 0 0) 0x31000004#32 [0#8, 1#8, 0#8, 16#8]
      = some (0x86000000#32, [], 0x00040000#32) ∧
    answer (packer 16 0 0) 0x31000003#32 [0#8, 0#8, 0#8] = some (0x89000000#32, []) := by decide

theorem test_packEndline :
    answerAnd .packAcc (packer 2 0x32 6) 0x32000000#32 [] = some (1#32, [0xC8#8], 0x00020000#32) ∧
    answer (packer 2 0 0) 0x32000000#32 [] = some (0#32, []) := by decide

theorem test_packEnd :
    answerAnd .status (packer 2 0 0) 0x33000000#32 [] = some (0#32, [], 0#32) ∧
    answer (packer 2 0x32 6) 0x33000000#32 [] = some (0x84000000#32, []) := by decide

/-! ## Adam7 (section 2.4) -/

theorem test_a7Passes :
    answer (image 5#32 7#32 0#32) 0x40000000#32 []
      = some (8#32, [0#8, 0#8, 0#8, 5#8, 0#8, 0#8, 0#8, 7#8]) ∧
    answerAnd .status (image 0#32 7#32 0#32) 0x40000000#32 [] = some (0x81000000#32, [], 0x11#32) := by
  decide

/-- The rows 7x3 and 33x31 of the table of pass dimensions. -/
theorem test_pass_dimensions :
    (geometryOf 7 3 true).map (fun q => (q.pw, q.ph))
      = [(1, 1), (1, 1), (2, 0), (2, 1), (4, 1), (3, 2), (7, 1)] ∧
    (geometryOf 33 31 true).map (fun q => (q.pw, q.ph))
      = [(5, 4), (4, 4), (9, 4), (8, 8), (17, 8), (16, 16), (33, 15)] := by decide

theorem test_a7Passinfo :
    answer (image 10#32 10#32 0x10000#32) 0x41600000#32 []
      = some (12#32, [0#8, 1#8, 1#8, 2#8, 0#8, 0#8, 0#8, 10#8, 0#8, 0#8, 0#8, 5#8]) ∧
    answer (image 10#32 10#32 0x10000#32) 0x41700000#32 [] = some (0x86000000#32, []) ∧
    answer (image 5#32 7#32 0#32) 0x41100000#32 [] = some (0x86000000#32, []) := by decide

theorem test_a7Offset :
    answer (image 10#32 10#32 0x10000#32) 0x42600008#32 [0#8, 0#8, 0#8, 9#8, 0#8, 0#8, 0#8, 4#8]
      = some (8#32, [0#8, 0#8, 0#8, 0#8, 0#8, 0#8, 1#8, 0x8C#8]) ∧
    answer (image 10#32 10#32 0x10000#32) 0x42600008#32 [0#8, 0#8, 0#8, 10#8, 0#8, 0#8, 0#8, 0#8]
      = some (0x86000000#32, []) := by decide

/-- The 64-bit limit: the last index that fits and one that does not. -/
theorem test_a7Offset_limit :
    answer (image 0xFFFFFFFF#32 0xFFFFFFFF#32 0#32) 0x42000008#32
      [0#8, 0#8, 0#8, 0#8, 0x40#8, 0#8, 0#8, 0#8]
      = some (8#32, [0xFF#8, 0xFF#8, 0xFF#8, 0xFF#8, 0#8, 0#8, 0#8, 0#8]) ∧
    answer (image 0xFFFFFFFF#32 0xFFFFFFFF#32 0#32) 0x42000008#32
      [0xFF#8, 0xFF#8, 0xFF#8, 0xFE#8, 0xFF#8, 0xFF#8, 0xFF#8, 0xFE#8] = some (0x86000000#32, []) := by
  decide

/-! ## Filter (sections 2.5 to 2.7) -/

theorem test_paeth :
    paeth 10#8 20#8 15#8 = 15#8 ∧ paeth 5#8 5#8 0#8 = 5#8 ∧ paeth 50#8 60#8 255#8 = 50#8 ∧
    paeth 128#8 64#8 200#8 = 64#8 ∧ paeth 15#8 0#8 10#8 = 0#8 := by decide

theorem test_filtPaeth :
    answer State.reset 0x52000003#32 [10#8, 20#8, 15#8] = some (1#32, [15#8]) := by decide

theorem test_fdecStart :
    answerAnd .filtPos (image 2#32 2#32 0x208#32) 0x50000000#32 [] = some (0#32, [], 0x30#32) ∧
    answerAnd .status (image 2#32 2#32 0x204#32) 0x50000000#32 [] = some (0x81000000#32, [], 0x11#32) ∧
    answerAnd .status { image 2#32 2#32 0x208#32 with params := ⟨4096, 5, none⟩ } 0x50000000#32 []
      = some (0x88000000#32, [], 0x81#32) := by decide

/-- Interlaced 3x3 gray: the passes with no rows are left out (P2). -/
theorem test_fdecStart_interlaced :
    (after (image 3#32 3#32 0x10008#32) 0x50000000#32 []).map (fun t => t.filt.passes)
      = some [⟨0, 1, 1⟩, ⟨3, 1, 1⟩, ⟨4, 2, 1⟩, ⟨5, 1, 2⟩, ⟨6, 3, 1⟩] := by decide

/-- RGB 2x2, row 2 under Average and under Paeth. -/
theorem test_fdecRow :
    answerAnd .status (session .decode 2 2 6 3 8 3 15#4 1 [0x0A#8, 0x14#8, 0x1E#8, 0x28#8, 0x32#8, 0x3C#8])
      0x51000007#32 [3#8, 1#8, 2#8, 3#8, 0xC8#8, 0xFA#8, 0xFF#8]
      = some (6#32, [0x06#8, 0x0C#8, 0x12#8, 0xDF#8, 0x19#8, 0x26#8], 0x3000#32) ∧
    answer (session .decode 2 2 6 3 8 3 15#4 1 [0x0A#8, 0x14#8, 0x1E#8, 0x28#8, 0x32#8, 0x3C#8])
      0x51000007#32 [4#8, 1#8, 2#8, 3#8, 0xC8#8, 0xFA#8, 0xFF#8]
      = some (6#32, [0x0B#8, 0x16#8, 0x21#8, 0xF0#8, 0x2C#8, 0x3B#8]) := by decide +kernel

/-- A short row, a tag that is no filter, and a row before the start. -/
theorem test_fdecRow_refused :
    answerAnd .status (session .decode 2 2 6 3 8 3 15#4 0 []) 0x51000006#32
      [0#8, 1#8, 2#8, 3#8, 4#8, 5#8] = some (0x89000000#32, [], 0x1091#32) ∧
    answerAnd .status (session .decode 2 1 2 1 8 1 15#4 0 []) 0x51000003#32 [5#8, 0#8, 0#8]
      = some (0x81000000#32, [], 0x1011#32) ∧
    answer State.reset 0x51000001#32 [0#8] = some (0x85000000#32, []) := by decide

theorem test_fencStart :
    answerAnd .status (image 2#32 2#32 0x0F000208#32) 0x60000000#32 [] = some (0#32, [], 0x2000#32) ∧
    answer (image 2#32 2#32 0x0F010208#32) 0x60000000#32 [] = some (0x81000000#32, []) ∧
    answer (image 2#32 2#32 0x05000208#32) 0x60000000#32 [] = some (0x81000000#32, []) := by decide

/-- Gray 4x2, row 2: the adaptive choice is Up, and Average forced. -/
theorem test_fencRow :
    answer (session .encode 4 2 4 1 8 1 15#4 1 [0x0A#8, 0x14#8, 0x1E#8, 0x28#8]) 0x61000004#32
      [0x0F#8, 0x19#8, 0x14#8, 0x3C#8] = some (5#32, [2#8, 5#8, 5#8, 0xF6#8, 0x14#8]) ∧
    answer (session .encode 4 2 4 1 8 1 3#4 1 [0x0A#8, 0x14#8, 0x1E#8, 0x28#8]) 0x61000004#32
      [0x0F#8, 0x19#8, 0x14#8, 0x3C#8] = some (5#32, [3#8, 0x0A#8, 8#8, 0xF9#8, 0x1E#8]) := by
  decide +kernel

/-- A tie goes to the lower tag: None and Up cost 256 each. -/
theorem test_fencRow_tie :
    answer (session .encode 3 1 3 1 8 1 15#4 0 []) 0x61000003#32 [0x80#8, 0#8, 0x80#8]
      = some (4#32, [0#8, 0x80#8, 0#8, 0x80#8]) := by decide +kernel

/-! ## Witnesses: states and operands that meet the hypotheses of each statement, clause by clause -/

/-- A block whose port holds one command. -/
def pending (s : State) (h : Word) (p : List Byte) : State := { s with port := [⟨h, p⟩] }

/-- The longest payload a command carries. -/
theorem longest_payload : (List.replicate maxPayload 0#8).length ≤ maxPayload := by
  rw [List.length_replicate]

theorem witness_DecodedCommandIsItsEncoding :
    decode ⟨0x41700000#32, []⟩ = .ok (.a7Passinfo 7#3 ⟨0#20, []⟩) := rfl

theorem witness_EncodingExamples : ([0xAE#8, 0x42#8, 0x60#8, 0x82#8] : List Byte).length = 4 := rfl

theorem witness_HeadersOfTheAssemblyForms :
    (List.replicate maxPayload 0#8).length ≤ maxPayload ∧ 2 ^ 20 - 1 < 2 ^ 20 ∧
    2 * (List.replicate 524287 0).length ≤ maxPayload ∧
    (List.replicate 1048574 0#8).length + 1 ≤ maxPayload := by
  refine ⟨longest_payload, by decide, ?_, ?_⟩ <;> rw [List.length_replicate] <;> decide

/-- Slots 12 and 13, passes 7 and 8, an undefined opcode. -/
theorem witness_ReservedHeadersRaiseIllegal :
    (∃ o : Op, o.code = opcodeField 0x02C00000#32 ∧ ModRule o (modField 0x02C00000#32)) ∧
    (∃ o : Op, o.code = opcodeField 0x41700000#32 ∧ ModRule o (modField 0x41700000#32)) ∧
    (¬ ∃ o : Op, o.code = opcodeField 0x02D00000#32 ∧ ModRule o (modField 0x02D00000#32)) ∧
    (¬ ∃ o : Op, o.code = opcodeField 0x41800000#32 ∧ ModRule o (modField 0x41800000#32)) ∧
    (¬ ∃ o : Op, o.code = opcodeField 0x15000000#32 ∧ ModRule o (modField 0x15000000#32)) ∧
    (pending State.reset 0x15000000#32 []).halt = false ∧
    (pending State.reset 0x15000000#32 []).port = [⟨0x15000000#32, []⟩] := by
  refine ⟨⟨.ctlRdreg, by decide⟩, ⟨.a7Passinfo, by decide⟩, ?_, ?_, ?_, rfl, rfl⟩ <;> rintro ⟨o, h⟩ <;>
    revert h <;> cases o <;> decide

theorem witness_TransportReadsBackFramedCommands :
    (Asm.unpkLoadLast [0x1B#8]).Framed ∧ (Asm.unpkGet 5).Framed ∧ (Asm.packPut [1, 2]).Framed ∧
    (Asm.crcCheck 0xAE426082#32).Framed ∧ Asm.ctlNop.Framed := by decide

/-- The longest response, an `UNPK_GET` of 2^20 − 1 samples. -/
theorem witness_ResponseHeaderFields :
    (Response.ok (List.replicate 2097150 0#8)).data.length < 2 ^ 24 := by
  show (List.replicate 2097150 0#8).length < 2 ^ 24
  rw [List.length_replicate]
  decide

theorem witness_ResponsesAreReadBack :
    (Response.err .halted).data.length < 2 ^ 24 ∧ (0xC0000000#32 : Word).extractLsb' 30 2 = 3#2 := by decide

theorem witness_StepRunsTheDecodedCommand :
    (pending State.reset 0x22000003#32 []).port = [⟨0x22000003#32, []⟩] ∧
    decode ⟨0x22000003#32, []⟩ = .ok (.unpkGet ⟨3#20, []⟩) ∧ State.reset.port = [] := ⟨rfl, rfl, rfl⟩

theorem witness_EveryCommandAnswersOnce :
    (pending State.reset 0x15000000#32 []).port = [⟨0x15000000#32, []⟩] := rfl

theorem witness_HaltedBlockRefusesOtherCommands :
    (pending halted 0x10000000#32 []).halt = true ∧
    (pending halted 0x10000000#32 []).port = [⟨0x10000000#32, []⟩] ∧
    opcodeField 0x10000000#32 ≠ 0x00#8 ∧ opcodeField 0x10000000#32 ≠ 0x01#8 ∧
    opcodeField 0x10000000#32 ≠ 0x02#8 ∧
    framed .z ⟨0#20, []⟩ = true ∧ framed .z ⟨1#20, []⟩ = false := by decide

theorem witness_NestedErrorsKeepTheFirstCode :
    (pending halted 0x02D00000#32 []).halt = true ∧ opcodeField 0x02D00000#32 = 0x02#8 ∧
    (∀ i, decode ⟨0x02D00000#32, []⟩ ≠ .ok i) ∧
    decode ⟨0x01000001#32, []⟩ = .ok (.ctlReset ⟨1#20, []⟩) ∧
    ¬ FramingRule (Instr.ctlReset ⟨1#20, []⟩).op.kind (Instr.ctlReset ⟨1#20, []⟩).args := by
  refine ⟨rfl, rfl, fun i h => ?_, rfl, by simp [Instr.op, Op.kind, Instr.args]⟩
  have h' : Except.error DecodeError.reservedSlot = .ok i := h
  cases h'

theorem witness_MisframedCommandsRaiseLength :
    State.reset.halt = false ∧
    ¬ FramingRule (Instr.packPut ⟨3#20, [0#8, 0#8, 0#8]⟩).op.kind ⟨3#20, [0#8, 0#8, 0#8]⟩ ∧
    ¬ FramingRule (Instr.unpkGet ⟨3#20, [0#8]⟩).op.kind ⟨3#20, [0#8]⟩ ∧
    ¬ FramingRule (Instr.crcCheck ⟨3#20, [0#8, 0#8, 0#8]⟩).op.kind ⟨3#20, [0#8, 0#8, 0#8]⟩ := by
  refine ⟨rfl, ?_, ?_, ?_⟩ <;> simp [Instr.op, Op.kind]

/-- An INTEGRITY, which also sets CRC_MISMATCH, and a STATE. -/
theorem witness_ErrorsArePrecise :
    (∃ t, step (pending { State.reset with crc := 0#32 } 0x13000004#32 [0#8, 0#8, 0#8, 0#8]) = .next t ∧
      t.resp = some (.err .integrity) ∧ t.crcMismatch = true) ∧
    (∃ t, step (pending State.reset 0x22000001#32 []) = .next t ∧ t.resp = some (.err .state)) :=
  ⟨⟨_, rfl, by decide⟩, ⟨_, rfl, rfl⟩⟩

theorem witness_WaitChangesNothing :
    ∃ t, step (pending (unpacker 8 [] false 0#8 0) 0x22000001#32 []) = .next t ∧ t.resp = some .wait :=
  ⟨_, rfl, rfl⟩

theorem witness_OnlyResetEndsTheHalt :
    (pending halted 0x01000000#32 []).halt = true ∧
    (pending halted 0x01000000#32 []).port = [⟨0x01000000#32, []⟩] ∧
    decode ⟨0x01000000#32, []⟩ = .ok (.ctlReset Asm.noArgs) ∧
    (∃ t, step (pending halted 0x01000000#32 []) = .next t ∧ t.halt = false) ∧
    decode ⟨0x01000001#32, []⟩ ≠ .ok (.ctlReset Asm.noArgs) ∧
    ∃ t, step (pending halted 0x01000001#32 []) = .next t ∧ t.halt = true := by
  refine ⟨rfl, rfl, rfl, ⟨_, rfl, rfl⟩, fun h => ?_, ⟨_, rfl, rfl⟩⟩
  have h' : (Except.ok (.ctlReset ⟨1#20, []⟩) : Except DecodeError Instr) = .ok (.ctlReset Asm.noArgs) := h
  cases h'

theorem witness_ConfigurationAndUnitsAreApart :
    (∃ t, exec (Asm.ctlWrreg .width 7#32) State.reset = .next t ∧ t.width = 7#32) ∧
    (∃ t, exec (Asm.crcUpdate [0#8]) State.reset = .next t) ∧
    Asm.crcInit.op ≠ .ctlWrreg ∧ Asm.crcInit.op ≠ .ctlReset := ⟨⟨_, rfl, by decide⟩, ⟨_, rfl⟩, by decide, by decide⟩

/-- A command of each of the four units that changes its unit. -/
theorem witness_CommandsChangeOnlyTheirUnit :
    (∃ t, exec Asm.crcInit { State.reset with crc := 0#32 } = .next t ∧ t.crc ≠ 0#32) ∧
    (∃ t, exec Asm.unpkStart (image 1#32 1#32 8#32) = .next t ∧ t.unpk ≠ Unpk.reset) ∧
    (∃ t, exec Asm.packStart (image 1#32 1#32 8#32) = .next t ∧ t.pack ≠ Pack.reset) ∧
    (∃ t, exec Asm.fdecStart (image 1#32 1#32 8#32) = .next t ∧ t.filt ≠ Filt.reset) ∧
    (∃ t, exec (Asm.crcCheck 1#32) State.reset = .next t ∧ t.crcMismatch ≠ false) :=
  ⟨⟨_, rfl, by decide⟩, ⟨_, rfl, by decide⟩, ⟨_, rfl, by decide⟩, ⟨_, rfl, by decide⟩, ⟨_, rfl, by decide⟩⟩

theorem witness_QueriesRepeat :
    Asm.crcFinish.op ∈ [Op.ctlRdreg, .crcFinish, .crcOneshot, .a7Passes, .a7Passinfo, .a7Offset,
      .filtPaeth] ∧
    ∃ t d, exec Asm.crcFinish State.reset = .next t ∧ t.resp = some (.ok d) :=
  ⟨by decide, _, _, rfl, rfl⟩

theorem witness_DataLengthOfEveryAnswer :
    ∃ t d, exec (Asm.unpkGet 1) (unpacker 8 [5#8] false 0#8 0) = .next t ∧ t.resp = some (.ok d) ∧
      d.length = 2 := ⟨_, _, rfl, rfl, rfl⟩

theorem witness_ReadRegisterAnswersItsValue : 13 ≤ 13 ∧ 13 ≤ 15 ∧ 13 ≤ 15 ∧ 15 ≤ 15 := by decide

/-- The invariant holds in a session after a row, with an unpacker and a packer in the middle of a byte. -/
def busy : State :=
  { session .decode 2 2 6 3 8 3 15#4 1 [1#8, 2#8, 3#8, 4#8, 5#8, 6#8] with
    unpk := ⟨true, 1, [9#8], false, 0xA5#8, 7⟩, pack := ⟨true, 1, 127, 7⟩ }

theorem busy_inv : busy.Inv :=
  ⟨by decide, by decide, by decide, by decide, by decide⟩

theorem reset_inv : State.reset.Inv :=
  ⟨by decide, by decide, by decide, by decide, by decide⟩

theorem witness_ViewRegisterFields :
    busy.Inv ∧ busy.filt.mode = .decode ∧ State.reset.Inv ∧ State.reset.filt.mode = .idle :=
  ⟨busy_inv, rfl, reset_inv, rfl⟩

/-- 1 and 2 for CTRL, every writable bit and a reserved bit for FORMAT. -/
theorem witness_WriteRegisterWritesOrRefuses :
    State.reset.halt = false ∧ (1#32).toNat ≤ 1 ∧ ¬ (2#32).toNat ≤ 1 ∧
    0x0F01071F#32 &&& ~~~(0x0F01071F#32) = 0#32 ∧ 0x00000080#32 &&& ~~~(0x0F01071F#32) ≠ 0#32 ∧
    Reg.filtByteWidth ∈ [Reg.id, .status, .crcState, .unpkLevel, .unpkCur, .packAcc, .filtPos, .filtRow,
      .filtByteWidth] := by decide

theorem witness_WrittenRegisterReadsBack :
    State.reset.Inv ∧ State.reset.halt = false ∧
    ∃ t, exec (Asm.ctlWrreg .format 0x0F01071F#32) State.reset = .next t ∧ t.resp = some (.ok []) :=
  ⟨reset_inv, rfl, _, rfl, by decide⟩

theorem witness_CrcCommandsAnswer :
    State.reset.halt = false ∧ (List.replicate maxPayload 0#8).length ≤ maxPayload :=
  ⟨rfl, longest_payload⟩

theorem witness_CrcCheckComparesAndRecords :
    State.reset.halt = false ∧ State.reset.crc ^^^ 0xFFFFFFFF#32 = 0#32 ∧
    State.reset.crc ^^^ 0xFFFFFFFF#32 ≠ 1#32 ∧ State.reset.ctrl.getLsbD 0 = true ∧
    ({ State.reset with ctrl := 0#32 } : State).ctrl.getLsbD 0 = false := by decide

theorem witness_ChecksumSplitsAnywhere :
    State.reset.halt = false ∧ ∀ q ∈ ([[1#8], [], [2#8]] : List (List Byte)), q.length ≤ maxPayload := by
  decide

theorem witness_SingleByteChangesAreDetected :
    2 < ([1#8, 2#8, 3#8] : List Byte).length ∧ ([1#8, 2#8, 3#8] : List Byte)[2]? ≠ some 4#8 := by decide

theorem witness_BitUnitStartsLatchTheDepth :
    State.reset.halt = false ∧ (image 0#32 0#32 16#32).bitDepth ∈ [1, 2, 4, 8, 16] ∧
    (image 0#32 0#32 17#32).bitDepth ∉ [1, 2, 4, 8, 16] ∧ State.reset.bitDepth ∉ [1, 2, 4, 8, 16] := by
  decide

/-- Inactive, complete, one byte too many, and a load that fills the queue exactly. -/
theorem witness_LoadAppendsOrRefuses :
    State.reset.unpk.active = false ∧ (unpacker 8 [] true 0#8 0).unpk.eos = true ∧
    (unpacker 8 [1#8] false 0#8 0).unpk.active = true ∧ (unpacker 8 [1#8] false 0#8 0).unpk.eos = false ∧
    (unpacker 8 [1#8] false 0#8 0).unpk.buf.length + ([2#8, 3#8] : List Byte).length > 2 ∧
    (unpacker 8 [1#8] false 0#8 0).unpk.buf.length + ([2#8] : List Byte).length ≤ 2 ∧
    ([2#8, 3#8] : List Byte).length ≤ maxPayload ∧
    ({ unpacker 8 [1#8] false 0#8 0 with params := ⟨2, 1, none⟩ } : State).params.unpkBufBytes = 2 := by decide

/-- Exactly enough and one sample too many, before and after the source is complete. -/
theorem witness_GetConsumesWhatItNeeds :
    (unpacker 1 [0#8] true 0#8 7).Inv ∧ (unpacker 1 [0#8] false 0#8 7).Inv ∧
    (unpacker 1 [0#8] true 0#8 7).unpk.depth ∈ [1, 2, 4] ∧
    (15 - min 15 7 + 8 / 1 - 1) / (8 / 1) = 1 ∧ (16 - min 16 7 + 8 / 1 - 1) / (8 / 1) = 2 ∧
    1 ≤ (unpacker 1 [0#8] true 0#8 7).unpk.buf.length ∧ 2 > (unpacker 1 [0#8] true 0#8 7).unpk.buf.length ∧
    State.reset.unpk.active = false :=
  ⟨⟨by decide, by decide, by decide, by decide, by decide⟩,
   ⟨by decide, by decide, by decide, by decide, by decide⟩, by decide⟩

/-- Depths 8 and 16, exactly enough bytes. -/
theorem witness_GetConsumesWhatItNeeds_whole_bytes :
    (unpacker 8 [1#8] false 0#8 0).Inv ∧ (unpacker 16 [1#8, 2#8] false 0#8 0).Inv ∧
    (unpacker 8 [1#8] false 0#8 0).unpk.depth = 8 ∧ 1 ≤ (unpacker 8 [1#8] false 0#8 0).unpk.buf.length ∧
    (unpacker 16 [1#8, 2#8] false 0#8 0).unpk.depth = 16 ∧
    2 * 1 ≤ (unpacker 16 [1#8, 2#8] false 0#8 0).unpk.buf.length :=
  ⟨⟨by decide, by decide, by decide, by decide, by decide⟩,
   ⟨by decide, by decide, by decide, by decide, by decide⟩, by decide⟩

theorem witness_SamplesComeMostSignificantFirst :
    (unpacker 2 [0xC8#8] true 0#8 0).halt = false ∧ (unpacker 2 [0xC8#8] true 0#8 0).unpk.active = true ∧
    (unpacker 2 [0xC8#8] true 0#8 0).unpk.rem = 0 ∧ (unpacker 2 [0xC8#8] true 0#8 0).unpk.depth = 2 ∧
    (unpacker 8 [1#8] true 0#8 0).unpk.depth = 8 ∧ (unpacker 16 [1#8, 2#8] true 0#8 0).unpk.depth = 16 ∧
    (unpacker 16 [1#8, 2#8] true 0#8 0).unpk.buf = [1#8, 2#8] := by decide

theorem witness_UnpackerRowEndAndClose :
    State.reset.unpk.active = false ∧ (unpacker 8 [] false 0#8 0).unpk.eos = false ∧
    (unpacker 8 [1#8] true 0#8 0).unpk.buf ≠ [] ∧ (unpacker 8 [] true 0#8 0).unpk.buf = [] ∧
    (unpacker 8 [] true 0#8 0).unpk.active = true ∧ (unpacker 8 [] true 0#8 0).halt = false := by decide

/-- The largest sample that fits and the smallest that does not. -/
theorem witness_PutPacksOrRefuses :
    (packer 4 7 4).Inv ∧ (packer 8 0 0).Inv ∧ (packer 16 0 0).Inv ∧ (packer 4 7 4).halt = false ∧ (∀ x ∈ [15, 0], x < 2 ^ (packer 4 7 4).pack.depth) ∧
    (∃ x ∈ [15, 16], 2 ^ (packer 4 7 4).pack.depth ≤ x) ∧ (packer 4 7 4).pack.depth < 8 ∧
    (∀ x ∈ [255], x < 2 ^ (packer 8 0 0).pack.depth) ∧
    (∀ x ∈ [65535], x < 2 ^ (packer 16 0 0).pack.depth) ∧
    State.reset.pack.active = false :=
  ⟨⟨by decide, by decide, by decide, by decide, by decide⟩,
   ⟨by decide, by decide, by decide, by decide, by decide⟩,
   ⟨by decide, by decide, by decide, by decide, by decide⟩, by decide⟩

theorem witness_PackerRowEndAndClose :
    State.reset.pack.active = false ∧ (packer 1 127 7).pack.bits > 0 ∧ (packer 1 127 7).halt = false ∧
    (packer 1 0 0).pack.bits = 0 ∧ (packer 1 0 0).pack.active = true := by decide

/-- Three samples at depth 2, and the unpacker that holds their row, the byte C8. -/
theorem witness_UnpackingUndoesPacking :
    (packer 2 0 0).Inv ∧ (packer 2 0 0).pack.bits = 0 ∧ (∀ x ∈ [3, 0, 2], x < 2 ^ 2) ∧
    (∃ t1 t2, exec (Asm.packPut [3, 0, 2]) (packer 2 0 0) = .next t1 ∧ t1.resp = some (.ok []) ∧
      exec Asm.packEndline t1 = .next t2 ∧ t2.resp = some (.ok [0xC8#8])) ∧
    (unpacker 2 [0xC8#8] false 0#8 0).unpk.rem = 0 ∧
    (unpacker 2 [0xC8#8] false 0#8 0).unpk.buf = [] ++ [0xC8#8] := by
  refine ⟨⟨by decide, by decide, by decide, by decide, by decide⟩, rfl, by decide,
    ⟨_, _, rfl, by decide, rfl, by decide⟩, rfl, rfl⟩

/-- A queue of 4 bytes, an empty one and a full one, and a request for 5. -/
theorem witness_OversizedRequestWaitsForEver :
    ({ unpacker 8 [] false 0#8 0 with params := ⟨4, 1, none⟩ } : State).Inv ∧
    ({ unpacker 8 [1#8, 2#8, 3#8, 4#8] false 0#8 0 with params := ⟨4, 1, none⟩ } : State).Inv ∧
    (unpacker 8 [] false 0#8 0).unpk.need 5 > 4 ∧
    (unpacker 8 [] false 0#8 0).unpk.need 5 ≤ 0 + ([1#8, 2#8, 3#8, 4#8, 5#8] : List Byte).length :=
  ⟨⟨by decide, by decide, by decide, by decide, by decide⟩,
   ⟨by decide, by decide, by decide, by decide, by decide⟩, by decide⟩

theorem witness_PassDimensionCountsCoordinates : 0 < 8 ∧ 0 < passDim 5 4 8 ∧ 4 + 0 * 8 < 5 := by decide

/-- Zero size; pass 6 and no pass 7; the last column and one past it; the index limit. -/
theorem witness_GeometryCommandsAnswer :
    (image 0#32 1#32 0#32).width = 0#32 ∧ (image 1#32 0#32 0#32).height = 0#32 ∧
    (image 10#32 10#32 0x10000#32).halt = false ∧ (image 10#32 10#32 0x10000#32).width ≠ 0#32 ∧
    (geometryOf 10 10 true)[7]? = none ∧ (geometryOf 10 10 true)[6]? = some ⟨0, 1, 1, 2, 10, 5⟩ ∧
    (geometryOf 10 10 false)[1]? = none ∧ 10 ≤ (10#32).toNat ∧ (9#32).toNat < 10 ∧ (4#32).toNat < 5 ∧
    2 ^ 64 ≤ ((0 + 0xFFFFFFFE * 1) * 0xFFFFFFFF + (0 + 0xFFFFFFFE * 1)) * 4 ∧
    ((0 + 0x40000000 * 1) * 0xFFFFFFFF + (0 + 0 * 1)) * 4 < 2 ^ 64 := by decide

theorem witness_PassesPartitionTheImage :
    1 ≤ 5 ∧ ⟨4, 0, 8, 8, 1, 1⟩ ∈ geometryOf 5 5 true ∧ 0 < 1 ∧ 4 < 5 := by decide

/-- A row that fills the row buffer exactly, FILTSEL 4 and 15. -/
theorem witness_FilterStartsLatchTheSession :
    (image 2#32 2#32 0x04000208#32).halt = false ∧ (image 2#32 2#32 0x04000208#32).width ≠ 0#32 ∧
    (image 2#32 2#32 0x04000208#32).height ≠ 0#32 ∧
    samplesPerPixel (image 2#32 2#32 0x04000208#32).colorType = some 3 ∧
    depthAllowed 2 (image 2#32 2#32 0x04000208#32).bitDepth = true ∧
    [⟨0, 2, 2⟩] = (geometryOf 2 2 (image 2#32 2#32 0x04000208#32).interlace).zipIdx.filterMap (fun (q, k) =>
      if 0 < q.pw ∧ 0 < q.ph then some (⟨k, q.pw, q.ph⟩ : Pass) else none) ∧
    [⟨0, 1, 1⟩, ⟨3, 1, 1⟩, ⟨4, 2, 1⟩, ⟨5, 1, 2⟩, ⟨6, 3, 1⟩] = (geometryOf 3 3 true).zipIdx.filterMap (fun (q, k) =>
      if 0 < q.pw ∧ 0 < q.ph then some (⟨k, q.pw, q.ph⟩ : Pass) else none) ∧
    (2 * 3 * 8 + 8 - 1) / 8 ≤
      ({ image 2#32 2#32 0x04000208#32 with params := ⟨4096, 6, none⟩ } : State).params.maxRowBytes ∧ (image 2#32 2#32 0x04000208#32).filtSel.toNat ≤ 4 ∧
    (image 2#32 2#32 0x0F000208#32).filtSel = 15#4 := by decide

/-- Zero size, an unknown colour type, a depth not allowed; FILTSEL 5 and 14; a row one byte too long. -/
theorem witness_FilterStartsRefuse :
    State.reset.width = 0#32 ∧ samplesPerPixel (image 1#32 1#32 0x108#32).colorType = none ∧
    depthAllowed 3 (image 1#32 1#32 0x310#32).bitDepth = false ∧
    (image 1#32 1#32 0x10008#32).interlace = true ∧ 4 < (image 1#32 1#32 0x05000008#32).filtSel.toNat ∧
    (image 1#32 1#32 0x0E000008#32).filtSel.toNat < 15 ∧
    (∃ q ∈ geometryOf 2 2 false, 0 < q.pw ∧ 0 < q.ph ∧
      ({ image 2#32 2#32 0x208#32 with params := ⟨4096, 5, none⟩ } : State).params.maxRowBytes
        < (q.pw * 3 * 8 + 8 - 1) / 8) ∧
    State.reset.halt = false := by decide

theorem witness_DecodeRowAddsThePredictor :
    busy.Inv ∧ busy.halt = false ∧ busy.filt.mode = .decode ∧
    ([1#8, 2#8, 3#8, 4#8, 5#8, 6#8] : List Byte).length = busy.filt.bw := ⟨busy_inv, rfl, rfl, rfl⟩

/-- An encode session at row 1, FILTSEL 15. -/
def encoding : State := session .encode 4 2 4 1 8 1 15#4 1 [0x0A#8, 0x14#8, 0x1E#8, 0x28#8]

theorem encoding_inv : encoding.Inv :=
  ⟨by decide, by decide, by decide, by decide, by decide⟩

theorem witness_EncodeRowSubtractsThePredictor :
    encoding.Inv ∧ encoding.halt = false ∧ encoding.filt.mode = .encode ∧
    ([1#8, 2#8, 3#8, 4#8] : List Byte).length = encoding.filt.bw := ⟨encoding_inv, rfl, rfl, rfl⟩

/-- Every mode; lengths one off; tag 5. -/
theorem witness_RowCommandsRefuse :
    State.reset.filt.mode = .idle ∧ encoding.filt.mode = .encode ∧ busy.filt.mode = .decode ∧
    (session .done 2 2 0 3 8 3 15#4 0 []).filt.mode = .done ∧
    ([0#8, 1#8, 2#8, 3#8, 4#8, 5#8] : List Byte).length ≠ busy.filt.bw + 1 ∧
    ([0#8, 1#8, 2#8] : List Byte).length ≠ encoding.filt.bw ∧
    ([5#8, 1#8, 2#8, 3#8, 4#8, 5#8, 6#8] : List Byte).length = busy.filt.bw + 1 ∧ 4 < (5#8 : Byte).toNat ∧
    busy.halt = false := by decide

/-- The last row of the only pass; a row before it; the last row of a pass that is followed by one. -/
theorem witness_AdvanceFollowsThePasses :
    busy.filt.passes[busy.filt.pi]? = some ⟨0, 2, 2⟩ ∧ busy.filt.row + 1 = 2 ∧
    busy.filt.passes[busy.filt.pi + 1]? = none ∧ (session .decode 2 2 6 3 8 3 15#4 0 []).filt.row + 1 ≠ 2 ∧
    ([⟨0, 1, 1⟩, ⟨3, 1, 1⟩] : List Pass)[0 + 1]? = some ⟨3, 1, 1⟩ := by decide

theorem witness_PaethPicksTheNearest : State.reset.halt = false := rfl

theorem witness_SelectionMinimisesTheCost :
    (session .encode 4 2 4 1 8 1 4#4 0 []).filt.sel = FilterType.paeth.tag.setWidth 4 ∧
    encoding.filt.sel = 15#4 ∧ FilterType.none.tag.toNat < FilterType.up.tag.toNat := by decide

theorem witness_DecodingUndoesEncoding :
    encoding.Inv ∧
    { encoding.filt with mode := .decode, sel := 15#4 }
      = (session .decode 4 2 4 1 8 1 15#4 1 [0x0A#8, 0x14#8, 0x1E#8, 0x28#8]).filt ∧
    ∃ e' d, exec (Asm.fencRow [0x0F#8, 0x19#8, 0x14#8, 0x3C#8]) encoding = .next e' ∧
      e'.resp = some (.ok d) := ⟨encoding_inv, by decide, _, _, rfl, rfl⟩

theorem witness_SessionEndsAfterItsRows :
    (∃ t d, exec (.fencRow ⟨4#20, [1#8, 2#8, 3#8, 4#8]⟩) encoding = .next t ∧ t.resp = some (.ok d)) ∧
    (∃ t d, exec Asm.fdecStart (image 3#32 3#32 0x10008#32) = .next t ∧ t.resp = some (.ok d) ∧
      t.filt.rowsLeft = 6) := ⟨⟨_, _, rfl, rfl⟩, ⟨_, _, rfl, rfl, by decide⟩⟩

theorem witness_ResetMeetsTheInvariant : Params.suggested.Legal ∧ Params.Legal ⟨2, 1, none⟩ := by decide

theorem witness_EveryStepKeepsTheInvariant :
    (pending busy 0x22000005#32 []).Inv ∧ ∃ t, step (pending busy 0x22000005#32 []) = .next t ∧ t.Inv :=
  ⟨⟨by decide, by decide, by decide, by decide, by decide⟩, _, rfl,
   ⟨by decide, by decide, by decide, by decide, by decide⟩⟩

/-- A reachable state in a session. -/
theorem witness_ReachableStatesKeepTheInvariants :
    Params.suggested.Legal ∧
    ∃ s, Reachable Params.suggested s ∧ s.unpk.active = true ∧ s.unpk.depth = 8 := by
  refine ⟨by decide, ?_⟩
  have h1 : Reachable Params.suggested
      (pending (State.resetOf Params.suggested) 0x03500004#32 [0#8, 0#8, 0#8, 8#8]) := .issue _ .start
  have h2 := Reachable.issue [⟨0x20000000#32, []⟩] (h1.step rfl)
  exact ⟨_, h2.step rfl, by decide, by decide⟩

end Sys2Proof.Tests
end

section
/-! PROOFS. The common sequence (00_scope.md R3, R4; 30_encoding.md R90): one rule per outcome of `step`,
and the totality of every command. -/

namespace Sys2Proof.Machine

/-! ## One rule per outcome of a step -/

/-- With no command pending a step changes nothing. -/
theorem step_of_port_nil {s : State} (hp : s.port = []) : step s = .next s := by
  simp [step, takeCommand, hp]

/-- A pending command that decodes is executed on the state without it. -/
theorem step_of_decode_ok {s : State} {c : Command} {rest : List Command} {i : Instr}
    (hp : s.port = c :: rest) (hd : decode c = .ok i) : step s = exec i { s with port := rest } := by
  simp [step, takeCommand, hp, hd]

/-- A pending command that does not decode is answered on the state without it. -/
theorem step_of_decode_error {s : State} {c : Command} {rest : List Command} {why : DecodeError}
    (hp : s.port = c :: rest) (hd : decode c = .error why) :
    step s = undecodable c why { s with port := rest } := by
  simp [step, takeCommand, hp, hd]

/-! ## Every command answers a next state -/

/-- The outcome is a next state: no fault and no refusal. -/
def Answers (r : Result) : Prop := ∃ t, r = .next t

theorem answers_respondOk (s : State) (d : List Byte) : Answers (respondOk s d) := ⟨_, rfl⟩

theorem answers_respondWait (s : State) : Answers (respondWait s) := ⟨_, rfl⟩

theorem answers_raise (s : State) (e : ErrCode) : Answers (raise s e) := ⟨_, rfl⟩

theorem answers_respondHalted (s : State) : Answers (respondHalted s) := ⟨_, rfl⟩

theorem answers_ite {p : Prop} [Decidable p] {r r' : Result} (h : Answers r) (h' : Answers r') :
    Answers (if p then r else r') := by
  split
  · exact h
  · exact h'

/-- The common sequence adds only answers of its own to those of the body. -/
theorem answers_command (o : Op) (a : Args) (s : State) {body : Result} (h : Answers body) :
    Answers (command o a s body) :=
  answers_ite (answers_respondHalted s) (answers_ite h (answers_raise s _))

theorem answers_orRaise {α : Type} (s : State) (r : Except ErrCode α) {k : α → Result}
    (h : ∀ x, Answers (k x)) : Answers (orRaise s r k) := by
  cases r with
  | ok x => exact h x
  | error e => exact answers_raise s e

theorem answers_undecodable (c : Command) (why : DecodeError) (s : State) :
    Answers (undecodable c why s) :=
  answers_ite (answers_respondHalted s) (answers_raise s _)

theorem answers_checkCrcBody (s : State) (v : Word) : Answers (checkCrcBody s v) :=
  answers_ite (answers_respondOk _ _) (answers_ite (answers_raise _ _) (answers_respondOk _ _))

theorem answers_decodeRow (s : State) (p : List Byte) : Answers (decodeRow s p) := by
  unfold decodeRow
  split
  · exact answers_raise _ _
  · split
    · exact answers_raise _ _
    · exact answers_respondOk _ _

/-- Every command answers in every state, well framed or not. -/
theorem answers_exec (i : Instr) (s : State) : Answers (exec i s) := by
  have ok := answers_respondOk
  have err := answers_raise
  cases i with
  | ctlNop a | ctlReset a | ctlRdreg _ a | crcInit a | crcUpdate a | crcFinish a | crcOneshot a
  | filtPaeth a => exact answers_command _ a s (ok _ _)
  | ctlWrreg r a | a7Passes a | a7Passinfo p a | a7Offset p a | fdecStart a =>
    exact answers_command _ a s (answers_orRaise _ _ fun _ => ok _ _)
  | crcCheck a => exact answers_command _ a s (answers_checkCrcBody _ _)
  | unpkStart a | packStart a => exact answers_command _ a s (answers_ite (ok _ _) (err _ _))
  | unpkEndline a | packEndline a => exact answers_command _ a s (answers_ite (err _ _) (ok _ _))
  | unpkLoad last a | unpkEnd a =>
    exact answers_command _ a s
      (answers_ite (err _ _) (answers_ite (err _ _) (answers_ite (err _ _) (ok _ _))))
  | unpkGet a =>
    exact answers_command _ a s
      (answers_ite (err _ _) (answers_ite (answers_ite (err _ _) (answers_respondWait _)) (ok _ _)))
  | packPut a => exact answers_command _ a s (answers_ite (err _ _) (answers_ite (ok _ _) (err _ _)))
  | packEnd a => exact answers_command _ a s (answers_ite (err _ _) (answers_ite (err _ _) (ok _ _)))
  | fdecRow a =>
    refine answers_command _ a s ?_
    cases s.filt.mode with
    | idle | encode | done => exact err _ _
    | decode => exact answers_ite (answers_decodeRow _ _) (err _ _)
  | fencStart a =>
    exact answers_command _ a s
      (answers_ite (err _ _) (answers_ite (answers_orRaise _ _ fun _ => ok _ _) (err _ _)))
  | fencRow a =>
    refine answers_command _ a s ?_
    cases s.filt.mode with
    | idle | decode | done => exact err _ _
    | encode => exact answers_ite (ok _ _) (err _ _)

/-! ## What the next state holds -/

theorem writeReg_port {s s' : State} {r : Reg} {v : Word} (h : writeReg s r v = .ok s') :
    s'.port = s.port := by
  cases r with
  | width | height => cases h; rfl
  | ctrl | format =>
    simp only [writeReg] at h
    split at h
    · cases h; rfl
    · cases h
  | id | status | crcState | unpkLevel | unpkCur | packAcc | filtPos | filtRow | filtByteWidth => cases h

/-- The writes of a command leave the port as it is. -/
theorem Commits.port_eq {i : Instr} {s s' : State} {d : List Byte} (h : Commits i s s' d) :
    s'.port = s.port := by
  cases i with
  | ctlNop | ctlReset | ctlRdreg | crcInit | crcUpdate | crcFinish | crcOneshot | filtPaeth =>
    obtain ⟨rfl, -⟩ := h; rfl
  | ctlWrreg r a => obtain ⟨hw, -⟩ := h; exact writeReg_port hw
  | crcCheck =>
    obtain ⟨-, ⟨-, rfl⟩ | ⟨-, -, rfl⟩⟩ := h
    · rfl
    · rfl
  | unpkEndline | unpkStart | packStart | packEndline => obtain ⟨-, -, rfl⟩ := h; rfl
  | unpkGet | packPut | packEnd => obtain ⟨-, -, -, rfl⟩ := h; rfl
  | unpkLoad | unpkEnd => obtain ⟨-, -, -, -, rfl⟩ := h; rfl
  | a7Passes | a7Passinfo | a7Offset => obtain ⟨_, -, rfl, -⟩ := h; rfl
  | fdecStart => obtain ⟨_, -, -, rfl⟩ := h; rfl
  | fdecRow => obtain ⟨_, _, -, -, -, -, rfl⟩ := h; rfl
  | fencStart => obtain ⟨_, -, -, -, -, rfl⟩ := h; rfl
  | fencRow => obtain ⟨-, -, -, rfl⟩ := h; rfl

/-- A command leaves a response and the port as it was. -/
theorem exec_resp_port {i : Instr} {s t : State} (h : exec i s = .next t) :
    ∃ r, t.resp = some r ∧ t.port = s.port := by
  obtain ⟨-, -, rfl⟩ | ⟨-, ⟨e, -, rfl⟩ | ⟨-, -, rfl⟩ | ⟨-, rfl⟩ | ⟨-, s', d, hc, rfl⟩⟩ := exec_cases h
  · exact ⟨_, rfl, rfl⟩
  · exact ⟨_, rfl, rfl⟩
  · exact ⟨_, rfl, rfl⟩
  · exact ⟨_, rfl, rfl⟩
  · exact ⟨_, rfl, hc.port_eq⟩

/-- A command that does not decode leaves a response and the port as it was. -/
theorem undecodable_resp_port {c : Command} {why : DecodeError} {s t : State}
    (h : undecodable c why s = .next t) : ∃ r, t.resp = some r ∧ t.port = s.port := by
  obtain ⟨-, -, rfl⟩ | ⟨-, rfl⟩ := undecodable_cases h
  · exact ⟨_, rfl, rfl⟩
  · exact ⟨_, rfl, rfl⟩

/-! ## The obligations -/

/-- Settles O9: a step is the decoded command's `exec` on the state without it, and changes nothing when
the port is empty. -/
theorem stepRunsTheDecodedCommand : Obligations.StepRunsTheDecodedCommand :=
  ⟨fun _ _ _ _ hp hd => step_of_decode_ok hp hd, fun _ hp => step_of_port_nil hp⟩

/-- Settles O10, by the two outcomes of decoding the pending command: each answers a next state, and that
state holds a response and the rest of the port. -/
theorem everyCommandAnswersOnce : Obligations.EveryCommandAnswersOnce := by
  intro s c rest hp
  cases hd : decode c with
  | error why =>
    obtain ⟨t, ht⟩ := answers_undecodable c why { s with port := rest }
    obtain ⟨r, hr, hport⟩ := undecodable_resp_port ht
    exact ⟨t, r, (step_of_decode_error hp hd).trans ht, hr, hport⟩
  | ok i =>
    obtain ⟨t, ht⟩ := answers_exec i { s with port := rest }
    obtain ⟨r, hr, hport⟩ := exec_resp_port ht
    exact ⟨t, r, (step_of_decode_ok hp hd).trans ht, hr, hport⟩

end Sys2Proof.Machine
end

section
/-! PROOFS. What keeps the invariant (10_state.md R38-R40, R48): one rule per operation of the unpacker, the
packer, the filter unit and the registers, then every command and every step. -/

namespace Sys2Proof.Machine

/-! ## Depths -/

theorem legalDepth_iff {d : Nat} :
    legalDepth d = true ↔ d = 1 ∨ d = 2 ∨ d = 4 ∨ d = 8 ∨ d = 16 := by
  simp [legalDepth, or_assoc]

theorem subByte_iff {d : Nat} : subByte d = true ↔ d = 1 ∨ d = 2 ∨ d = 4 := by
  simp [subByte, or_assoc]

/-- Among the legal depths, those that pack several samples into a byte are the ones below 8. -/
theorem subByte_iff_lt {d : Nat} (h : legalDepth d = true) : subByte d = true ↔ d < 8 := by
  rw [legalDepth_iff] at h
  rw [subByte_iff]
  omega

/-! ## The unpacker -/

/-- What an active unpacker has to meet. -/
theorem Unpk.inv_of_active {p : Params} {u : Unpk} (ha : u.active = true)
    (hd : legalDepth u.depth = true) (hb : u.buf.length ≤ p.unpkBufBytes)
    (hwide : 8 ≤ u.depth → u.rem = 0) (hsub : u.depth < 8 → u.rem ≤ 8 / u.depth - 1) : u.Inv p :=
  ⟨fun hf => absurd (ha.symm.trans hf) (by decide), fun _ => hd, hb, hwide, hsub⟩

theorem Unpk.nextSample_buf_length_le (u : Unpk) : u.nextSample.2.buf.length ≤ u.buf.length := by
  unfold Unpk.nextSample Unpk.nextByte
  split
  · split <;> simp
  · split <;> simp

theorem Unpk.nextSample_rem_of_wide {u : Unpk} (h : subByte u.depth = false) :
    u.nextSample.2.rem = u.rem := by
  simp only [Unpk.nextSample, h, Bool.false_eq_true, if_false]
  split <;> rfl

theorem Unpk.nextSample_rem_of_subByte {u : Unpk} (h : subByte u.depth = true) :
    u.nextSample.2.rem = (if u.rem = 0 then 8 / u.depth else u.rem) - 1 := by
  simp only [Unpk.nextSample, h, if_true, beq_iff_eq]
  split <;> rfl

theorem Unpk.nextSample_inv {p : Params} {u : Unpk} (ha : u.active = true) (h : u.Inv p) :
    u.nextSample.2.Inv p := by
  obtain ⟨-, hd, hb, hwide, hsub⟩ := h
  obtain ⟨fa, fd, -⟩ := u.nextSample_frame
  have hlt := subByte_iff_lt (hd ha)
  refine Unpk.inv_of_active (fa.trans ha) (fd ▸ hd ha) (u.nextSample_buf_length_le.trans hb) ?_ ?_
  · intro h8
    rw [fd] at h8
    have hs : subByte u.depth = false := Bool.eq_false_iff.mpr fun hs => by have := hlt.mp hs; omega
    exact (Unpk.nextSample_rem_of_wide hs).trans (hwide h8)
  · intro h8
    rw [fd] at h8 ⊢
    have := hsub h8
    rw [Unpk.nextSample_rem_of_subByte (hlt.mpr h8)]
    split <;> omega

theorem Unpk.takeSamples_inv {p : Params} {u : Unpk} (n : Nat) (ha : u.active = true) (h : u.Inv p) :
    (u.takeSamples n).2.Inv p := by
  induction n generalizing u with
  | zero => exact h
  | succ n ih => exact ih (u.nextSample_frame.1.trans ha) (Unpk.nextSample_inv ha h)

theorem Unpk.reset_inv (p : Params) : Unpk.reset.Inv p :=
  ⟨by decide, by decide, Nat.zero_le _, by decide, by decide⟩

/-! ## The packer -/

/-- Appending a sample that fits the depth to an accumulator that fits its bits. -/
theorem appendSample_lt {acc bits d x : Nat} (ha : acc < 2 ^ bits) (hx : x < 2 ^ d) :
    acc * 2 ^ d + x < 2 ^ (bits + d) :=
  calc acc * 2 ^ d + x < (acc + 1) * 2 ^ d := by rw [Nat.succ_mul]; omega
    _ ≤ 2 ^ bits * 2 ^ d := Nat.mul_le_mul_right _ ha
    _ = 2 ^ (bits + d) := (pow_add ..).symm

/-- What a packer without a partial byte has to meet. -/
theorem Pack.inv_of_empty {k : Pack} (hi : k.active = false → k.depth = 0)
    (hd : k.active = true → legalDepth k.depth = true) (hb : k.bits = 0) (ha : k.acc = 0) : k.Inv :=
  ⟨fun h => ⟨hb, hi h⟩, hd, fun _ => by simp [hb], fun _ => hb, by simp [hb, ha]⟩

theorem Pack.put_inv {k : Pack} {x : Nat} (ha : k.active = true) (hx : x < 2 ^ k.depth) (h : k.Inv) :
    (k.put x).2.Inv := by
  obtain ⟨-, hd, hsub, hwide, hacc⟩ := id h
  unfold Pack.put
  split
  · rename_i hs
    rw [subByte_iff] at hs
    obtain ⟨hmod, hlt⟩ := hsub (by omega)
    dsimp only
    split
    · exact Pack.inv_of_empty (by simp [ha]) hd rfl rfl
    · rename_i hne
      rw [beq_iff_eq] at hne
      refine ⟨fun hf => absurd (ha.symm.trans hf) (by decide), fun _ => hd ha, fun _ => ?_, ?_,
        appendSample_lt hacc hx⟩
      · dsimp only
        rcases hs with hs | hs | hs <;> rw [hs] at hmod hne ⊢ <;> omega
      · dsimp only
        omega
  · split <;> exact h

theorem Pack.putAll_inv {k : Pack} {l : List Nat} (ha : k.active = true)
    (hl : ∀ x ∈ l, x < 2 ^ k.depth) (h : k.Inv) : (k.putAll l).2.Inv := by
  induction l generalizing k with
  | nil => exact h
  | cons x xs ih =>
    obtain ⟨fa, fd⟩ := k.put_frame x
    have hxs : ∀ y ∈ xs, y < 2 ^ (k.put x).2.depth := fun y hy => fd ▸ hl y (by simp [hy])
    exact ih (fa.trans ha) hxs (Pack.put_inv ha (hl x (by simp)) h)

theorem Pack.reset_inv : Pack.reset.Inv := by decide

/-! ## The filter unit -/

theorem Filt.pass_mem {f : Filt} {i : Nat} (h : i < f.passes.length) : f.pass i ∈ f.passes := by
  rw [Filt.pass, List.getD_eq_getElem _ _ h]
  exact List.getElem_mem h

theorem Filt.getElem?_passes {f : Filt} {i : Nat} (h : i < f.passes.length) :
    f.passes[i]? = some (f.pass i) := by
  rw [Filt.pass, List.getD_eq_getElem _ _ h, List.getElem?_eq_getElem h]

/-- What a session latches when it starts, and no row of it changes (44_filter_decode.md R194, R200;
45_filter_encode.md R220). -/
structure Filt.Latched (p : Params) (f : Filt) : Prop where
  passes : ∀ q ∈ f.passes, q.Inv p f.bpp f.depth
  length_le : f.passes.length ≤ 7
  sel : legalFiltSel f.sel = true
  bpp_pos : 1 ≤ f.bpp
  bpp_le : f.bpp ≤ 4
  depth : legalDepth f.depth = true
  stride : f.stride = strideOf f.bpp f.depth

theorem Filt.Inv.latched {p : Params} {f : Filt} (h : f.Inv p) (hs : f.mode.inSession = true) :
    f.Latched p := by
  obtain ⟨-, -, -, -, hses, hpass, hlen, hsel⟩ := h
  obtain ⟨-, hb1, hb4, hd, hst⟩ := hses hs
  exact ⟨hpass, hlen, hsel, hb1, hb4, hd, hst⟩

/-- Entering a pass of the list meets the invariant, whatever the position was before. -/
theorem Filt.enterPass_inv {p : Params} {f : Filt} {i : Nat} (h : f.Latched p)
    (hs : f.mode.inSession = true) (hi : i < f.passes.length) : (f.enterPass i).Inv p := by
  obtain ⟨-, -, hph, -⟩ := h.passes _ (Filt.pass_mem hi)
  exact ⟨fun _ => ⟨hi, hph⟩, by simp, by simp, fun hn => absurd (hs.symm.trans hn) (by decide),
    fun _ => ⟨rfl, h.bpp_pos, h.bpp_le, h.depth, h.stride⟩, h.passes, h.length_le, h.sel⟩

theorem Filt.complete_inv {p : Params} {f : Filt} (h : f.Inv p) : f.complete.Inv p := by
  obtain ⟨-, -, -, -, -, hpass, hlen, hsel⟩ := h
  exact ⟨by simp [FiltMode.inSession], by simp, by simp, by simp, by simp [FiltMode.inSession],
    hpass, hlen, hsel⟩

theorem Filt.nextRow_inv {p : Params} {f : Filt} {r : List Byte} (h : f.Inv p)
    (hs : f.mode.inSession = true) (hr : r.length = f.bw) (hrow : f.row + 1 < (f.pass f.pi).ph) :
    Filt.Inv p { f with prev := r, hasPrev := true, row := f.row + 1 } := by
  obtain ⟨hpos, -, -, -, hses, hpass, hlen, hsel⟩ := h
  exact ⟨fun _ => ⟨(hpos hs).1, hrow⟩, fun _ => ⟨hr, Nat.le_add_left ..⟩, by simp,
    fun hn => absurd (hs.symm.trans hn) (by decide), hses, hpass, hlen, hsel⟩

/-- Advancing by a row of the session's width (44_filter_decode.md R196). -/
theorem Filt.advance_inv {p : Params} {f : Filt} {r : List Byte} (h : f.Inv p)
    (hs : f.mode.inSession = true) (hr : r.length = f.bw) : (f.advance r).Inv p := by
  obtain ⟨-, hi, he⟩ | ⟨-, -, he⟩ | ⟨hne, he⟩ := f.advance_cases r
  · exact he ▸ Filt.enterPass_inv (h.latched hs) hs hi
  · exact he ▸ Filt.complete_inv h
  · obtain ⟨hpos, -⟩ := id h
    have := (hpos hs).2
    exact he ▸ Filt.nextRow_inv h hs hr (by omega)

theorem samplesPerPixel_range {ct bpp : Nat} (h : samplesPerPixel ct = some bpp) : 1 ≤ bpp ∧ bpp ≤ 4 := by
  unfold samplesPerPixel at h
  split at h <;> cases h <;> decide

theorem depthAllowed_legal {ct d : Nat} (h : depthAllowed ct d = true) : legalDepth d = true := by
  rw [legalDepth_iff]
  unfold depthAllowed at h
  split at h <;> simp only [Bool.or_eq_true, beq_iff_eq, Bool.false_eq_true] at h <;> omega

/-- An image without a zero dimension has a row in pass 0, interlaced or not (43_adam7.md R177). -/
theorem rowPasses_geometryOf_pos {w h : Nat} (b : Bool) (hw : 0 < w) (hh : 0 < h) :
    0 < (rowPasses 0 (geometryOf w h b)).length := by
  cases b with
  | false => simp [geometryOf, rowPasses, hw, hh]
  | true =>
    have pos : ∀ {n : Nat}, 0 < n → 0 < passDim n 0 8 := fun hn => by
      simp only [passDim, gt_iff_lt, hn, if_true]
      omega
    simp [geometryOf, adam7Table, rowPasses, pos hw, pos hh]

theorem setup_passes_pos {s : State} {c : Setup} (h : setup s = .ok c) : 0 < c.passes.length := by
  obtain ⟨hw, hh, -, -, -, -, hp, -⟩ := setup_ok h
  rw [hp]
  exact rowPasses_geometryOf_pos _ (BitVec.toNat_pos_of_ne_zero hw) (BitVec.toNat_pos_of_ne_zero hh)

/-- The passes an accepted set-up latches may stand in the pass list (10_state.md R40). -/
theorem setup_passes_inv {s : State} {c : Setup} (h : setup s = .ok c) :
    ∀ q ∈ c.passes, q.Inv s.params c.bpp c.depth := by
  obtain ⟨-, -, -, -, hd, -, hp, hcap⟩ := setup_ok h
  intro q hq
  have hbw := hcap q hq
  rw [hp] at hq
  obtain ⟨hpw, hph, hidx, g, hg, hgw, hgh⟩ := mem_rowPasses hq
  obtain ⟨hlw, hlh⟩ := geometryOf_le hg
  have hlen := length_geometryOf_le s.width.toNat s.height.toNat s.interlace
  have := s.width.isLt
  have := s.height.isLt
  exact ⟨hpw, by omega, hph, by omega, by omega, hd ▸ hbw⟩

theorem Filt.startSession_inv {s : State} {f : Filt} {c : Setup} {sel : BitVec 4} {m : FiltMode}
    (h : setup s = .ok c) (hsel : legalFiltSel sel = true) (hm : m.inSession = true) :
    (f.startSession c sel m).Inv s.params := by
  have hpass := setup_passes_inv h
  have hpos := setup_passes_pos h
  obtain ⟨-, -, hspp, hda, hd, hst, hp, -⟩ := setup_ok h
  obtain ⟨hb1, hb4⟩ := samplesPerPixel_range hspp
  have hlen : c.passes.length ≤ 7 :=
    hp ▸ (length_rowPasses_le 0 _).trans (length_geometryOf_le ..)
  exact Filt.enterPass_inv
    ⟨hpass, hlen, hsel, hb1, hb4, by simpa [hd] using depthAllowed_legal hda, by simpa [hd] using hst⟩
    hm hpos

theorem Filt.reset_inv (p : Params) : Filt.reset.Inv p :=
  ⟨by decide, by decide, by decide, by decide, by decide, by simp [Filt.reset], by decide, by decide⟩

/-! ## The registers -/

/-- Every error but HALTED is one that ERRCODE can latch (60_exceptions.md R241). -/
theorem ErrCode.code_range {e : ErrCode} (h : e ≠ .halted) : e.code ≠ 0#4 ∧ e.code.toNat ≤ 9 := by
  cases e with
  | halted => exact absurd rfl h
  | _ => decide

theorem State.raised_regInv {s : State} {e : ErrCode} (he : e ≠ .halted) (h : s.RegInv) :
    (s.raised e).RegInv := by
  obtain ⟨hhalt, herr, hctrl, hformat⟩ := h
  obtain ⟨hne, hle⟩ := ErrCode.code_range he
  refine ⟨?_, ?_, hctrl, hformat⟩
  · cases hs : s.halt with
    | false => simpa [hs] using hne
    | true => simpa [hs] using hhalt
  · rw [State.raised_errcode]
    split
    · exact herr
    · exact hle

/-- A word whose bits [31:1] are masked to 0 has them all 0. -/
theorem extractLsb'_one_of_mask {v : Word} (h : v &&& ~~~(1#32) = 0#32) : v.extractLsb' 1 31 = 0#31 := by
  ext i hi
  have hb := congrArg (fun w : Word => w.getLsbD (1 + i)) h
  simp only [BitVec.getLsbD_and, BitVec.getLsbD_not, BitVec.getLsbD_one] at hb
  simpa [show 1 + i < 32 by omega] using hb

theorem State.setCheckCrc_mask {s : State} {b : Bool} (h : s.ctrl &&& ~~~(1#32) = 0#32) :
    (s.setCheckCrc b).ctrl &&& ~~~(1#32) = 0#32 := by
  rw [State.setCheckCrc_ctrl, extractLsb'_one_of_mask h]
  cases b <;> decide

/-- Everything an accepted register write can do (40_control.md R113). -/
theorem writeReg_cases {s s' : State} {r : Reg} {v : Word} (h : writeReg s r v = .ok s') :
    (r = .ctrl ∧ v.extractLsb' 1 31 = 0#31 ∧ s' = s.setCheckCrc (v.getLsbD 0)) ∨
    (r = .width ∧ s' = { s with width := v }) ∨
    (r = .height ∧ s' = { s with height := v }) ∨
    (r = .format ∧ v &&& ~~~formatMask = 0#32 ∧ s' = { s with format := v }) := by
  cases r with
  | ctrl =>
    simp only [writeReg] at h
    split at h
    · exact .inl ⟨rfl, eq_of_beq ‹_›, (Except.ok.inj h).symm⟩
    · cases h
  | width => exact .inr (.inl ⟨rfl, (Except.ok.inj h).symm⟩)
  | height => exact .inr (.inr (.inl ⟨rfl, (Except.ok.inj h).symm⟩))
  | format =>
    simp only [writeReg] at h
    split at h
    · exact .inr (.inr (.inr ⟨rfl, eq_of_beq ‹_›, (Except.ok.inj h).symm⟩))
    · cases h
  | id | status | crcState | unpkLevel | unpkCur | packAcc | filtPos | filtRow | filtByteWidth => cases h

/-! ## The whole state -/

theorem State.Inv.with_unpk {s : State} {u : Unpk} (h : s.Inv) (hu : u.Inv s.params) :
    State.Inv { s with unpk := u } := by
  obtain ⟨hp, hr, -, hk, hf⟩ := h
  exact ⟨hp, hr, hu, hk, hf⟩

theorem State.Inv.with_pack {s : State} {k : Pack} (h : s.Inv) (hk : k.Inv) :
    State.Inv { s with pack := k } := by
  obtain ⟨hp, hr, hu, -, hf⟩ := h
  exact ⟨hp, hr, hu, hk, hf⟩

theorem State.Inv.with_filt {s : State} {f : Filt} (h : s.Inv) (hf : f.Inv s.params) :
    State.Inv { s with filt := f } := by
  obtain ⟨hp, hr, hu, hk, -⟩ := h
  exact ⟨hp, hr, hu, hk, hf⟩

theorem State.Inv.raised {s : State} {e : ErrCode} (h : s.Inv) (he : e ≠ .halted) : (s.raised e).Inv := by
  obtain ⟨hp, hr, hu, hk, hf⟩ := h
  exact ⟨hp, State.raised_regInv he hr, hu, hk, hf⟩

theorem State.resetOf_inv {p : Params} (h : p.Legal) : (State.resetOf p).Inv :=
  ⟨h, ⟨by simp [State.resetOf], by simp [State.resetOf], by simp [State.resetOf],
    by simp [State.resetOf, formatMask]⟩, Unpk.reset_inv p, Pack.reset_inv, Filt.reset_inv p⟩

theorem writeReg_inv {s s' : State} {r : Reg} {v : Word} (h : s.Inv) (hw : writeReg s r v = .ok s') :
    s'.Inv := by
  obtain ⟨hp, ⟨hhalt, herr, hctrl, hformat⟩, hu, hk, hf⟩ := id h
  obtain ⟨-, -, rfl⟩ | ⟨-, rfl⟩ | ⟨-, rfl⟩ | ⟨-, hmask, rfl⟩ := writeReg_cases hw
  · exact ⟨hp, ⟨hhalt, herr, State.setCheckCrc_mask hctrl, hformat⟩, hu, hk, hf⟩
  · exact h
  · exact h
  · exact ⟨hp, ⟨hhalt, herr, hctrl, hmask⟩, hu, hk, hf⟩

/-- The writes of every command keep the invariant. -/
theorem Commits.inv {i : Instr} {s s' : State} {d : List Byte} (hc : Commits i s s' d) (h : s.Inv) :
    s'.Inv := by
  obtain ⟨hp, -, hu, hk, hf⟩ := id h
  cases i with
  | ctlNop | ctlRdreg | crcInit | crcUpdate | crcFinish | crcOneshot | filtPaeth =>
    obtain ⟨rfl, -⟩ := hc
    exact h
  | ctlReset =>
    obtain ⟨rfl, -⟩ := hc
    exact State.resetOf_inv hp
  | ctlWrreg => exact writeReg_inv h hc.1
  | crcCheck =>
    obtain ⟨-, ⟨-, rfl⟩ | ⟨-, -, rfl⟩⟩ := hc
    · exact h
    · exact h
  | unpkStart =>
    obtain ⟨hd, -, rfl⟩ := hc
    exact h.with_unpk (Unpk.inv_of_active rfl hd (Nat.zero_le _) (fun _ => rfl) fun _ => Nat.zero_le _)
  | unpkLoad =>
    obtain ⟨ha, -, hcap, -, rfl⟩ := hc
    obtain ⟨-, hd, -, hwide, hsub⟩ := hu
    exact h.with_unpk (Unpk.inv_of_active ha (hd ha) (by simpa using hcap) hwide hsub)
  | unpkGet =>
    obtain ⟨ha, -, -, rfl⟩ := hc
    exact h.with_unpk (Unpk.takeSamples_inv _ ha hu)
  | unpkEndline =>
    obtain ⟨ha, -, rfl⟩ := hc
    obtain ⟨-, hd, hb, -, -⟩ := hu
    exact h.with_unpk (Unpk.inv_of_active ha (hd ha) hb (fun _ => rfl) fun _ => Nat.zero_le _)
  | unpkEnd =>
    obtain ⟨-, -, hb, -, rfl⟩ := hc
    exact h.with_unpk ⟨fun _ => ⟨hb, rfl, rfl, rfl, rfl⟩, by simp,
      by simp [hb], fun _ => rfl, fun _ => Nat.zero_le _⟩
  | packStart =>
    obtain ⟨hd, -, rfl⟩ := hc
    exact h.with_pack (Pack.inv_of_empty (by simp) (fun _ => hd) rfl rfl)
  | packPut =>
    obtain ⟨ha, hx, -, rfl⟩ := hc
    exact h.with_pack (Pack.putAll_inv ha hx hk)
  | packEndline =>
    obtain ⟨ha, -, rfl⟩ := hc
    obtain ⟨-, hd, -⟩ := hk
    exact h.with_pack (Pack.inv_of_empty (by simp [ha]) hd rfl rfl)
  | packEnd =>
    obtain ⟨-, hb, -, rfl⟩ := hc
    obtain ⟨-, -, -, -, hacc⟩ := hk
    exact h.with_pack (Pack.inv_of_empty (fun _ => rfl) (by simp) hb (by simpa [hb] using hacc))
  | a7Passes | a7Passinfo | a7Offset =>
    obtain ⟨_, -, rfl, -⟩ := hc
    exact h
  | fdecStart =>
    obtain ⟨c, hset, -, rfl⟩ := hc
    exact h.with_filt (Filt.startSession_inv hset (by decide) rfl)
  | fdecRow =>
    obtain ⟨t, raw, hm, -, hlen, -, rfl⟩ := hc
    exact h.with_filt (Filt.advance_inv hf (by simp [hm, FiltMode.inSession]) (by simpa using hlen))
  | fencStart =>
    obtain ⟨c, -, hsel, hset, -, rfl⟩ := hc
    exact h.with_filt (Filt.startSession_inv hset hsel rfl)
  | fencRow =>
    obtain ⟨hm, hlen, -, rfl⟩ := hc
    exact h.with_filt (Filt.advance_inv hf (by simp [hm, FiltMode.inSession]) hlen)

theorem exec_inv {i : Instr} {s t : State} (h : s.Inv) (he : exec i s = .next t) : t.Inv := by
  obtain ⟨-, -, rfl⟩ | ⟨-, ⟨e, ⟨hne, -⟩, rfl⟩ | ⟨-, -, rfl⟩ | ⟨-, rfl⟩ | ⟨-, s', d, hc, rfl⟩⟩ :=
    exec_cases he
  · exact h
  · exact h.raised hne
  · have hm : State.Inv { s with crcMismatch := true } := h
    exact hm.raised (by decide)
  · exact h
  · have hs' := hc.inv h
    exact hs'

theorem undecodable_inv {c : Command} {why : DecodeError} {s t : State} (h : s.Inv)
    (hu : undecodable c why s = .next t) : t.Inv := by
  obtain ⟨-, -, rfl⟩ | ⟨-, rfl⟩ := undecodable_cases hu
  · exact h
  · exact h.raised (by decide)

theorem step_inv {s t : State} (h : s.Inv) (hs : step s = .next t) : t.Inv := by
  cases hp : s.port with
  | nil =>
    rw [step_of_port_nil hp] at hs
    exact Host.Outcome.next.inj hs ▸ h
  | cons c rest =>
    have h' : State.Inv { s with port := rest } := h
    cases hd : decode c with
    | error why => exact undecodable_inv h' ((step_of_decode_error hp hd).symm.trans hs)
    | ok i => exact exec_inv h' ((step_of_decode_ok hp hd).symm.trans hs)

theorem Reachable.inv {p : Params} {s : State} (hp : p.Legal) (hr : Reachable p s) : s.Inv := by
  induction hr with
  | start => exact State.resetOf_inv hp
  | issue q _ ih => exact ih
  | step _ hs ih => exact step_inv ih hs

/-- The modes with a session are decode and encode (10_state.md R40). -/
theorem FiltMode.inSession_iff {m : FiltMode} : m.inSession = true ↔ m = .decode ∨ m = .encode := by
  cases m <;> simp [FiltMode.inSession]

/-! ## The obligations -/

/-- Settles O58: the state without the pending command meets the invariant, and so does what a decoded or
an undecodable command makes of it. -/
theorem everyStepKeepsTheInvariant : Obligations.EveryStepKeepsTheInvariant :=
  fun _ _ => step_inv

/-- Settles O59: the invariant holds at reset and every step keeps it, and the eight clauses are parts
of it. -/
theorem reachableStatesKeepTheInvariants : Obligations.ReachableStatesKeepTheInvariants := by
  intro p s hp hr
  obtain ⟨-, ⟨hhalt, -⟩, ⟨hidle, -, -, hwide, hsub⟩, ⟨hkidle, -, hksub, hkwide, -⟩, hpos, hprev, -⟩ :=
    hr.inv hp
  refine ⟨fun ha => ?_, hwide, hsub, fun ha => (hkidle ha).1, ⟨hksub, hkwide⟩, fun hm => ?_, hprev, hhalt⟩
  · obtain ⟨hbuf, heos, hrem, hdepth, -⟩ := hidle ha
    exact ⟨hbuf, heos, hrem, hdepth⟩
  · obtain ⟨hi, hrow⟩ := hpos (FiltMode.inSession_iff.mpr hm)
    exact ⟨_, Filt.getElem?_passes hi, hrow⟩

/-- Settles O57: each unit's reset values meet its part of the invariant, for any legal parameters. -/
theorem resetMeetsTheInvariant : Obligations.ResetMeetsTheInvariant :=
  ⟨fun _ => State.resetOf_inv, State.resetOf_inv (by decide)⟩

end Sys2Proof.Machine
end

section
/-! PROOFS. The register space (10_state.md R22-R36, 40_control.md R112, R113): the fields of the stored
and the view registers, a written register read back, and which command changes which unit (R44). -/

namespace Sys2Proof.Machine

/-! ## The fields of the register words -/

/-- The layout that UNPK_CUR and PACK_ACC share (10_state.md R31, R32). -/
def byteViewWord (depth : BitVec 5) (n : BitVec 3) (b : Byte) : Word := 0#11 ++ depth ++ 0#5 ++ n ++ b

theorem unpkCurWord_eq (u : Unpk) :
    unpkCurWord u = byteViewWord (BitVec.ofNat 5 u.depth) (BitVec.ofNat 3 u.rem) u.cur := rfl

theorem packAccWord_eq (k : Pack) :
    packAccWord k =
      byteViewWord (BitVec.ofNat 5 k.depth) (BitVec.ofNat 3 k.bits) (BitVec.ofNat 8 k.acc) := rfl

theorem byteViewWord_fields (depth : BitVec 5) (n : BitVec 3) (b : Byte) :
    (byteViewWord depth n b).extractLsb' 0 8 = b ∧
    (byteViewWord depth n b).extractLsb' 8 3 = n ∧
    (byteViewWord depth n b).extractLsb' 11 5 = 0#5 ∧
    (byteViewWord depth n b).extractLsb' 16 5 = depth ∧
    (byteViewWord depth n b).extractLsb' 21 11 = 0#11 := by
  refine ⟨?_, ?_, ?_, ?_, ?_⟩ <;>
    simp (disch := decide) only [byteViewWord, BitVec.extractLsb'_append_eq_of_le,
      BitVec.extractLsb'_append_eq_of_add_le]
  all_goals simp

/-- FILT_POS in a session (10_state.md R33). -/
theorem filtPosWord_fields {f : Filt} (hs : f.mode.inSession = true) :
    (filtPosWord f).extractLsb' 0 3 = BitVec.ofNat 3 (f.pass f.pi).idx ∧
    (filtPosWord f).getLsbD 3 = false ∧
    (filtPosWord f).extractLsb' 4 4 = BitVec.ofNat 4 f.stride ∧
    (filtPosWord f).getLsbD 8 = f.hasPrev ∧
    (filtPosWord f).extractLsb' 9 23 = 0#23 := by
  simp only [filtPosWord, hs, if_true]
  refine ⟨?_, ?_, ?_, ?_, ?_⟩ <;>
    simp (disch := decide) only [BitVec.getLsbD_append, BitVec.extractLsb'_append_eq_of_le,
      BitVec.extractLsb'_append_eq_of_add_le]
  all_goals simp

/-- STATUS (10_state.md R25). -/
theorem statusWord_fields (s : State) :
    (statusWord s).getLsbD 0 = s.halt ∧
    (statusWord s).extractLsb' 1 3 = 0#3 ∧
    (statusWord s).extractLsb' 4 4 = s.errcode ∧
    (statusWord s).getLsbD 8 = s.crcMismatch ∧
    (statusWord s).getLsbD 9 = s.unpk.active ∧
    (statusWord s).getLsbD 10 = s.unpk.eos ∧
    (statusWord s).getLsbD 11 = s.pack.active ∧
    (statusWord s).extractLsb' 12 2 = s.filt.mode.code ∧
    (statusWord s).extractLsb' 14 18 = 0#18 := by
  refine ⟨?_, ?_, ?_, ?_, ?_, ?_, ?_, ?_, ?_⟩ <;>
    simp (disch := decide) only [statusWord, BitVec.getLsbD_append, BitVec.extractLsb'_append_eq_of_le,
      BitVec.extractLsb'_append_eq_of_add_le]
  all_goals simp

/-- A bit of a word as a digit of its value. -/
theorem getLsbD_iff_div (w : Word) (i : Nat) : w.getLsbD i = true ↔ w.toNat / 2 ^ i % 2 = 1 := by
  rw [← BitVec.testBit_toNat, Nat.testBit_eq_decide_div_mod_eq, decide_eq_true_iff]

/-- A field of a word as digits of its value. -/
theorem toNat_field (w : Word) (lo len : Nat) :
    (w.extractLsb' lo len).toNat = w.toNat / 2 ^ lo % 2 ^ len := by
  rw [BitVec.extractLsb'_toNat, Nat.shiftRight_eq_div_pow]

/-! ## The views under the invariant -/

/-- A field that takes the low bits of a number holds the number itself if it fits. -/
theorem toNat_of_eq_ofNat {w n : Nat} {x : BitVec w} (hx : x = BitVec.ofNat w n) (hn : n < 2 ^ w) :
    x.toNat = n := by
  rw [hx, BitVec.toNat_ofNat, Nat.mod_eq_of_lt hn]

theorem legalDepth_le {d : Nat} (h : legalDepth d = true) : d ≤ 16 := by
  rw [legalDepth_iff] at h
  omega

/-- The depth and REM of an unpacker fit their fields (10_state.md R38). -/
theorem Unpk.Inv.field_bounds {p : Params} {u : Unpk} (h : u.Inv p) : u.depth ≤ 16 ∧ u.rem < 8 := by
  obtain ⟨hidle, hd, -, hwide, hsub⟩ := h
  constructor
  · cases ha : u.active with
    | false => obtain ⟨-, -, -, h0, -⟩ := hidle ha; omega
    | true => exact legalDepth_le (hd ha)
  · by_cases h8 : u.depth < 8
    · have := hsub h8
      have := Nat.div_le_self 8 u.depth
      omega
    · have := hwide (by omega)
      omega

/-- The depth, BITS and ACC of a packer fit their fields (10_state.md R39). -/
theorem Pack.Inv.field_bounds {k : Pack} (h : k.Inv) : k.depth ≤ 16 ∧ k.bits < 8 ∧ k.acc < 256 := by
  obtain ⟨hidle, hd, hsub, hwide, hacc⟩ := h
  have hdepth : k.depth ≤ 16 := by
    cases ha : k.active with
    | false => have := (hidle ha).2; omega
    | true => exact legalDepth_le (hd ha)
  have hbits : k.bits < 8 := by
    by_cases h8 : k.depth < 8
    · exact (hsub h8).2
    · have := hwide (by omega)
      omega
  exact ⟨hdepth, hbits, hacc.trans_le (Nat.pow_le_pow_right (n := 2) (by decide) hbits.le)⟩

theorem strideOf_le (bpp d : Nat) (h : 1 ≤ bpp) : strideOf bpp d ≤ 2 * bpp := by
  unfold strideOf
  split
  · omega
  · split <;> omega

/-- The position registers' values of a session fit their fields (10_state.md R33-R35, R40). -/
theorem Filt.Inv.field_bounds {p : Params} {f : Filt} (h : f.Inv p) (hp : p.Legal)
    (hs : f.mode.inSession = true) :
    (f.pass f.pi).idx < 8 ∧ f.stride < 16 ∧ f.row < 2 ^ 32 ∧ f.bw < 2 ^ 32 := by
  have hl := h.latched hs
  obtain ⟨hpos, -, -, -, hses, -⟩ := h
  obtain ⟨hi, hrow⟩ := hpos hs
  obtain ⟨hbw, -⟩ := hses hs
  obtain ⟨-, -, -, hph, hidx, hcap⟩ := hl.passes _ (Filt.pass_mem hi)
  obtain ⟨-, -, -, hmax⟩ := hp
  have := strideOf_le f.bpp f.depth hl.bpp_pos
  have := hl.bpp_le
  have := hl.stride
  exact ⟨by omega, by omega, by omega, by omega⟩

theorem FiltMode.inSession_eq_false_iff {m : FiltMode} :
    m.inSession = false ↔ m = .idle ∨ m = .done := by
  cases m <;> simp [FiltMode.inSession]

/-! ## Writing a register -/

theorem word32_be (v : Word) : word32 (be 4 v.toNat) = v := by
  rw [word32, unBE_be 4 _ v.isLt, BitVec.ofNat_toNat, BitVec.setWidth_eq]

/-- A word is its bits [31:1] followed by bit 0. -/
theorem extractLsb'_append_ofBool (v : Word) : v.extractLsb' 1 31 ++ BitVec.ofBool (v.getLsbD 0) = v := by
  apply BitVec.eq_of_getLsbD_eq
  intro i hi
  rw [BitVec.getLsbD_append, BitVec.getLsbD_extractLsb']
  cases i with
  | zero => simp
  | succ i => simp [show i < 31 by omega, Nat.add_comm 1 i]

/-- Writing CHECK_CRC makes CTRL the written word, since the reserved bits are 0 on both sides. -/
theorem State.setCheckCrc_ctrl_eq {s : State} {v : Word} (hs : s.ctrl &&& ~~~(1#32) = 0#32)
    (hv : v.extractLsb' 1 31 = 0#31) : (s.setCheckCrc (v.getLsbD 0)).ctrl = v := by
  rw [State.setCheckCrc_ctrl, extractLsb'_one_of_mask hs, ← hv, extractLsb'_append_ofBool]

theorem readReg_of_writeReg {s s' : State} {r : Reg} {v : Word} (hs : s.ctrl &&& ~~~(1#32) = 0#32)
    (h : writeReg s r v = .ok s') : readReg s' r = v := by
  obtain ⟨rfl, hv, rfl⟩ | ⟨rfl, rfl⟩ | ⟨rfl, rfl⟩ | ⟨rfl, -, rfl⟩ := writeReg_cases h
  · exact State.setCheckCrc_ctrl_eq hs hv
  · rfl
  · rfl
  · rfl

theorem readReg_setCheckCrc {s : State} {b : Bool} {q : Reg} (hq : q ≠ .ctrl) :
    readReg (s.setCheckCrc b) q = readReg s q := by
  cases q with
  | ctrl => exact absurd rfl hq
  | _ => rfl

theorem readReg_with_width {s : State} {v : Word} {q : Reg} (hq : q ≠ .width) :
    readReg { s with width := v } q = readReg s q := by
  cases q with
  | width => exact absurd rfl hq
  | _ => rfl

theorem readReg_with_height {s : State} {v : Word} {q : Reg} (hq : q ≠ .height) :
    readReg { s with height := v } q = readReg s q := by
  cases q with
  | height => exact absurd rfl hq
  | _ => rfl

theorem readReg_with_format {s : State} {v : Word} {q : Reg} (hq : q ≠ .format) :
    readReg { s with format := v } q = readReg s q := by
  cases q with
  | format => exact absurd rfl hq
  | _ => rfl

theorem readReg_of_writeReg_ne {s s' : State} {r q : Reg} {v : Word} (h : writeReg s r v = .ok s')
    (hq : q ≠ r) : readReg s' q = readReg s q := by
  obtain ⟨rfl, -, rfl⟩ | ⟨rfl, rfl⟩ | ⟨rfl, rfl⟩ | ⟨rfl, -, rfl⟩ := writeReg_cases h
  · exact readReg_setCheckCrc hq
  · exact readReg_with_width hq
  · exact readReg_with_height hq
  · exact readReg_with_format hq

@[simp] theorem readReg_answered (s : State) (d : List Byte) (r : Reg) :
    readReg (s.answered d) r = readReg s r := by
  cases r <;> rfl

/-- A command that answers OK has committed its writes. -/
theorem exec_ok {i : Instr} {s t : State} {d : List Byte} (h : exec i s = .next t)
    (hr : t.resp = some (.ok d)) : ∃ s', Commits i s s' d ∧ t = s'.answered d := by
  obtain ⟨-, -, rfl⟩ | ⟨-, ⟨e, -, rfl⟩ | ⟨-, -, rfl⟩ | ⟨-, rfl⟩ | ⟨-, s', d', hc, rfl⟩⟩ := exec_cases h
  · cases hr
  · cases hr
  · cases hr
  · cases hr
  · cases hr
    exact ⟨s', hc, rfl⟩

/-- CTL_RDREG is accepted while halted and has no operand but its slot (40_control.md R112). -/
theorem exec_ctlRdreg (r : Reg) (s : State) :
    exec (Asm.ctlRdreg r) s = .next (s.answered (be 4 (readReg s r).toNat)) :=
  command_body (.inr rfl) rfl

/-- A CTL_RDREG of a slot without a register does not decode (10_state.md R36, 30_encoding.md R88). -/
theorem decode_ctlRdreg_reserved {m : BitVec 4} {a : BitVec 20} {p : List Byte}
    (h : Reg.ofIndex? m = none) :
    decode ⟨headerOf Op.ctlRdreg.code m a, p⟩ = .error .reservedSlot := by
  simp [decode, Op.build, slotMod, h]

/-! ## Which unit a command changes -/

/-- The units that are not the command's own are as they were (R44, with the unit of R81). -/
def ChangesOnlyItsUnit (i : Instr) (s t : State) : Prop :=
  (t.crc ≠ s.crc → i.op.code.extractLsb' 4 4 = 1#4) ∧
  (t.unpk ≠ s.unpk → i.op.code.extractLsb' 4 4 = 2#4) ∧
  (t.pack ≠ s.pack → i.op.code.extractLsb' 4 4 = 3#4) ∧
  (t.filt ≠ s.filt → i.op.code.extractLsb' 4 4 = 5#4 ∨ i.op.code.extractLsb' 4 4 = 6#4) ∧
  (t.crcMismatch ≠ s.crcMismatch → i.op = .crcCheck ∧ t.crcMismatch = true)

theorem changesOnlyItsUnit_self (i : Instr) (s : State) : ChangesOnlyItsUnit i s s :=
  ⟨absurd rfl, absurd rfl, absurd rfl, absurd rfl, absurd rfl⟩

theorem changesOnlyItsUnit_crc {i : Instr} {s : State} {c : Word} (hi : i.op.code.extractLsb' 4 4 = 1#4) :
    ChangesOnlyItsUnit i s { s with crc := c } :=
  ⟨fun _ => hi, absurd rfl, absurd rfl, absurd rfl, absurd rfl⟩

theorem changesOnlyItsUnit_unpk {i : Instr} {s : State} {u : Unpk} (hi : i.op.code.extractLsb' 4 4 = 2#4) :
    ChangesOnlyItsUnit i s { s with unpk := u } :=
  ⟨absurd rfl, fun _ => hi, absurd rfl, absurd rfl, absurd rfl⟩

theorem changesOnlyItsUnit_pack {i : Instr} {s : State} {k : Pack} (hi : i.op.code.extractLsb' 4 4 = 3#4) :
    ChangesOnlyItsUnit i s { s with pack := k } :=
  ⟨absurd rfl, absurd rfl, fun _ => hi, absurd rfl, absurd rfl⟩

theorem changesOnlyItsUnit_filt {i : Instr} {s : State} {f : Filt}
    (hi : i.op.code.extractLsb' 4 4 = 5#4 ∨ i.op.code.extractLsb' 4 4 = 6#4) :
    ChangesOnlyItsUnit i s { s with filt := f } :=
  ⟨absurd rfl, absurd rfl, absurd rfl, fun _ => hi, absurd rfl⟩

theorem changesOnlyItsUnit_crcMismatch {i : Instr} {s : State} (hi : i.op = .crcCheck) :
    ChangesOnlyItsUnit i s { s with crcMismatch := true } :=
  ⟨absurd rfl, absurd rfl, absurd rfl, absurd rfl, fun _ => ⟨hi, rfl⟩⟩

theorem changesOnlyItsUnit_writeReg {i : Instr} {s s' : State} {r : Reg} {v : Word}
    (h : writeReg s r v = .ok s') : ChangesOnlyItsUnit i s s' := by
  obtain ⟨-, -, rfl⟩ | ⟨-, rfl⟩ | ⟨-, rfl⟩ | ⟨-, -, rfl⟩ := writeReg_cases h
  · exact changesOnlyItsUnit_self i s
  · exact changesOnlyItsUnit_self i s
  · exact changesOnlyItsUnit_self i s
  · exact changesOnlyItsUnit_self i s

/-- Every command but CTL_RESET writes to its own unit alone. -/
theorem Commits.changesOnlyItsUnit {i : Instr} {s s' : State} {d : List Byte} (h : Commits i s s' d)
    (hi : i.op ≠ .ctlReset) : ChangesOnlyItsUnit i s s' := by
  cases i with
  | ctlReset => exact absurd rfl hi
  | ctlNop | ctlRdreg | crcFinish | crcOneshot | filtPaeth =>
    obtain ⟨rfl, -⟩ := h
    exact changesOnlyItsUnit_self _ _
  | a7Passes | a7Passinfo | a7Offset =>
    obtain ⟨_, -, rfl, -⟩ := h
    exact changesOnlyItsUnit_self _ _
  | ctlWrreg =>
    obtain ⟨hw, -⟩ := h
    exact changesOnlyItsUnit_writeReg hw
  | crcInit | crcUpdate =>
    obtain ⟨rfl, -⟩ := h
    exact changesOnlyItsUnit_crc (by simp [Instr.op, Op.code])
  | crcCheck =>
    obtain ⟨-, ⟨-, rfl⟩ | ⟨-, -, rfl⟩⟩ := h
    · exact changesOnlyItsUnit_self _ _
    · exact changesOnlyItsUnit_crcMismatch rfl
  | unpkStart | unpkEndline =>
    obtain ⟨-, -, rfl⟩ := h
    exact changesOnlyItsUnit_unpk (by simp [Instr.op, Op.code])
  | unpkGet =>
    obtain ⟨-, -, -, rfl⟩ := h
    exact changesOnlyItsUnit_unpk (by simp [Instr.op, Op.code])
  | unpkLoad | unpkEnd =>
    obtain ⟨-, -, -, -, rfl⟩ := h
    exact changesOnlyItsUnit_unpk (by simp [Instr.op, Op.code])
  | packStart | packEndline =>
    obtain ⟨-, -, rfl⟩ := h
    exact changesOnlyItsUnit_pack (by simp [Instr.op, Op.code])
  | packPut | packEnd =>
    obtain ⟨-, -, -, rfl⟩ := h
    exact changesOnlyItsUnit_pack (by simp [Instr.op, Op.code])
  | fdecStart =>
    obtain ⟨_, -, -, rfl⟩ := h
    exact changesOnlyItsUnit_filt (by simp [Instr.op, Op.code])
  | fdecRow =>
    obtain ⟨_, _, -, -, -, -, rfl⟩ := h
    exact changesOnlyItsUnit_filt (by simp [Instr.op, Op.code])
  | fencStart =>
    obtain ⟨_, -, -, -, -, rfl⟩ := h
    exact changesOnlyItsUnit_filt (by simp [Instr.op, Op.code])
  | fencRow =>
    obtain ⟨-, -, -, rfl⟩ := h
    exact changesOnlyItsUnit_filt (by simp [Instr.op, Op.code])

/-! ## The obligations -/

/-- Settles O18: a refusal, an error and a WAIT change no unit, the INTEGRITY error of CRC_CHECK keeps the
mismatch flag it set, and an accepted command writes to its own unit. -/
theorem commandsChangeOnlyTheirUnit : Obligations.CommandsChangeOnlyTheirUnit := by
  intro i s t h hi
  change ChangesOnlyItsUnit i s t
  obtain ⟨-, -, rfl⟩ | ⟨-, ⟨e, -, rfl⟩ | ⟨⟨a, rfl⟩, -, rfl⟩ | ⟨-, rfl⟩ | ⟨-, s', d, hc, rfl⟩⟩ := exec_cases h
  · exact changesOnlyItsUnit_self i s
  · exact changesOnlyItsUnit_self i s
  · exact changesOnlyItsUnit_crcMismatch (i := .crcCheck a) (s := s) rfl
  · exact changesOnlyItsUnit_self i s
  · exact hc.changesOnlyItsUnit hi

/-- Settles O25: each field of a view holds the low bits of its value, and the invariant bounds the value
by the field's size. -/
theorem viewRegisterFields : Obligations.ViewRegisterFields := by
  rintro s ⟨hp, -, hu, hk, hf⟩
  refine ⟨?_, ?_, ?_, fun hm => ?_, fun hm => ?_⟩
  · obtain ⟨-, -, hbuf, -⟩ := hu
    obtain ⟨-, hmax, -⟩ := hp
    exact toNat_of_eq_ofNat rfl (by omega)
  · obtain ⟨hdepth, hrem⟩ := hu.field_bounds
    obtain ⟨fcur, frem, fres, fdepth, fhigh⟩ :=
      byteViewWord_fields (BitVec.ofNat 5 s.unpk.depth) (BitVec.ofNat 3 s.unpk.rem) s.unpk.cur
    simp only [readReg, unpkCurWord_eq]
    exact ⟨fcur, toNat_of_eq_ofNat frem hrem, fres, toNat_of_eq_ofNat fdepth (by omega), fhigh⟩
  · obtain ⟨hdepth, hbits, hacc⟩ := hk.field_bounds
    obtain ⟨facc, fbits, fres, fdepth, fhigh⟩ :=
      byteViewWord_fields (BitVec.ofNat 5 s.pack.depth) (BitVec.ofNat 3 s.pack.bits)
        (BitVec.ofNat 8 s.pack.acc)
    simp only [readReg, packAccWord_eq]
    exact ⟨toNat_of_eq_ofNat facc hacc, toNat_of_eq_ofNat fbits hbits, fres,
      toNat_of_eq_ofNat fdepth (by omega), fhigh⟩
  · have hs := FiltMode.inSession_iff.mpr hm
    obtain ⟨hidx, hstride, hrow, hbw⟩ := hf.field_bounds hp hs
    obtain ⟨hpos, -⟩ := hf
    obtain ⟨fidx, fres, fstride, fprev, fhigh⟩ := filtPosWord_fields hs
    simp only [readReg, filtRowWord, filtByteWidthWord, hs, if_true]
    exact ⟨⟨_, Filt.getElem?_passes (hpos hs).1, toNat_of_eq_ofNat fidx hidx⟩, fres,
      toNat_of_eq_ofNat fstride hstride, fprev, fhigh, toNat_of_eq_ofNat rfl hrow,
      toNat_of_eq_ofNat rfl hbw⟩
  · have hs := FiltMode.inSession_eq_false_iff.mpr hm
    simp [readReg, filtPosWord, filtRowWord, filtByteWidthWord, hs]

/-- Settles O27: an accepted write leaves the written word in its slot and every other slot as it was, and
reading a slot answers its word. -/
theorem writtenRegisterReadsBack : Obligations.WrittenRegisterReadsBack := by
  rintro s t r v ⟨-, ⟨-, -, hctrl, -⟩, -⟩ - h hr
  obtain ⟨s', ⟨hw, -⟩, rfl⟩ := exec_ok h hr
  have hw' : writeReg s r v = .ok s' := word32_be v ▸ hw
  refine ⟨?_, unBE_be 4 _ v.isLt, fun q hq => ?_⟩
  · rw [exec_ctlRdreg, readReg_answered, readReg_of_writeReg hctrl hw']
    rfl
  · rw [readReg_answered, readReg_of_writeReg_ne hw' hq]

/-- Settles O23: CTL_RDREG runs in every state, and no register has the index 13, 14 or 15. -/
theorem readRegisterAnswersItsValue : Obligations.ReadRegisterAnswersItsValue := by
  refine ⟨exec_ctlRdreg, fun s => ⟨rfl, rfl, rfl, rfl, rfl, rfl⟩, fun k p h13 h15 => ?_⟩
  obtain rfl | rfl | rfl : k = 13 ∨ k = 14 ∨ k = 15 := by omega
  · exact decode_ctlRdreg_reserved (m := 13#4) (a := 0#20) rfl
  · exact decode_ctlRdreg_reserved (m := 14#4) (a := 0#20) rfl
  · exact decode_ctlRdreg_reserved (m := 15#4) (a := 0#20) rfl

/-- Settles O24, with the codes of the four filter modes. -/
theorem statusBits : Obligations.StatusBits := by
  intro s
  obtain ⟨fhalt, flow, ferr, fmis, fua, fue, fpa, fmode, fhigh⟩ := statusWord_fields s
  refine ⟨fhalt, flow, ferr, fmis, fua, fue, fpa, fmode.trans ?_, fhigh⟩
  cases s.filt.mode <;> rfl

/-- Settles O60: each accessor is a bit or a field of its register, read as digits of the value. -/
theorem controlAndFormatFields : Obligations.ControlAndFormatFields := by
  intro s
  exact ⟨(getLsbD_iff_div s.ctrl 0).trans (by simp), (toNat_field s.format 0 5).trans (by simp),
    toNat_field .., getLsbD_iff_div .., toNat_field ..⟩

end Sys2Proof.Machine
end

section
/-! PROOFS. The byte transport (20_memory.md R66, 30_encoding.md R92): each reader gives back the header word
and the data its header announces, and a header announces the data it was made for. -/

namespace Sys2Proof.Machine

/-! ## Reading the header word -/

/-- The command reader on any four header bytes. -/
theorem readCommand_append {b : List Byte} (hb : b.length = 4) {l : List Byte}
    (hl : payloadLength (word32 b) ≤ l.length) :
    readCommand (b ++ l) =
      some (⟨word32 b, l.take (payloadLength (word32 b))⟩, l.drop (payloadLength (word32 b))) := by
  match b, hb with
  | [_, _, _, _], _ => exact if_pos hl

/-- The response reader on any four header bytes. -/
theorem readResponse_append {b : List Byte} (hb : b.length = 4) {n : Nat}
    (hn : ((word32 b).extractLsb' 0 24).toNat = n) {l : List Byte} (hl : n ≤ l.length) :
    readResponse (b ++ l) = (Response.read? (word32 b) (l.take n)).map fun r => (r, l.drop n) := by
  subst hn
  match b, hb with
  | [_, _, _, _], _ => exact if_pos hl

/-- The bytes of a word, most significant first (00_scope.md R10). -/
theorem be_four_eq_fields (w : Word) :
    be 4 w.toNat = (List.range 4).map fun k => w.extractLsb' (24 - 8 * k) 8 := by
  have byte (n : Nat) : BitVec.ofNat 8 (w.toNat / 2 ^ n) = w.extractLsb' n 8 := by
    apply BitVec.eq_of_toNat_eq
    rw [toNat_field, BitVec.toNat_ofNat]
  have h : be 4 w.toNat = [BitVec.ofNat 8 (w.toNat / 2 ^ 24), BitVec.ofNat 8 (w.toNat / 2 ^ 16),
      BitVec.ofNat 8 (w.toNat / 2 ^ 8), BitVec.ofNat 8 (w.toNat / 2 ^ 0)] := by
    simp [be, Nat.div_div_eq_div_mul]
  rw [h, byte, byte, byte, byte]
  rfl

/-! ## Commands -/

/-- The header of a well-framed command gives the length of its payload (30_encoding.md R82, R92). -/
theorem payloadLength_headerOf {o : Op} {a : Args} (m : BitVec 4) (h : framed o.kind a = true) :
    payloadLength (headerOf o.code m a.arg) = a.payload.length := by
  simp only [payloadLength, opcodeField_headerOf, Op.ofCode?_code, argField_headerOf]
  cases hk : o.kind with
  | z =>
    obtain ⟨-, hp⟩ := framed_z.mp (hk ▸ h)
    rw [hp, List.length_nil]
  | l => exact (framed_l.mp (hk ▸ h)).symm
  | e =>
    obtain ⟨hp, -⟩ := framed_e.mp (hk ▸ h)
    exact hp.symm
  | f n =>
    obtain ⟨-, hp⟩ := framed_f.mp (hk ▸ h)
    exact hp.symm
  | c => rw [framed_c.mp (hk ▸ h), List.length_nil]

/-- Settles O6: the header word is read back from its bytes, and announces exactly the payload. -/
theorem transportReadsBackFramedCommands : Obligations.TransportReadsBackFramedCommands := by
  intro i rest hf
  have hlen : payloadLength (encode i).header = (encode i).payload.length :=
    payloadLength_headerOf i.modBits hf
  have hword : word32 (be 4 (encode i).header.toNat) = (encode i).header := word32_be _
  rw [Command.toBytes, List.append_assoc, readCommand_append (length_be 4 _) (by simp [hword, hlen]),
    hword, hlen, List.take_left, List.drop_left]

/-! ## Responses -/

@[simp] theorem ErrCode.ofCode?_code (e : ErrCode) : ErrCode.ofCode? e.code = some e := by
  cases e <;> rfl

/-- The fields of a response header (30_encoding.md R84). -/
theorem Response.header_fields (r : Response) :
    r.header.extractLsb' 30 2 = r.kind ∧ r.header.extractLsb' 28 2 = 0#2 ∧
    r.header.extractLsb' 24 4 = r.codeField ∧
    r.header.extractLsb' 0 24 = BitVec.ofNat 24 r.data.length := by
  refine ⟨?_, ?_, ?_, ?_⟩ <;>
    simp (disch := decide) only [Response.header, BitVec.extractLsb'_append_eq_of_le,
      BitVec.extractLsb'_append_eq_of_add_le]
  all_goals simp

/-- The field RLEN holds the number of result bytes. -/
theorem Response.header_rlen {r : Response} (h : r.data.length < 2 ^ 24) :
    (r.header.extractLsb' 0 24).toNat = r.data.length := by
  obtain ⟨-, -, -, hlen⟩ := r.header_fields
  exact toNat_of_eq_ofNat hlen h

theorem Response.read?_header {r : Response} (h : r.data.length < 2 ^ 24) :
    Response.read? r.header r.data = some r := by
  obtain ⟨hkind, hzero, hcode, -⟩ := r.header_fields
  simp only [Response.read?, hkind, hzero, hcode, Response.header_rlen h]
  cases r <;> simp [Response.kind, Response.codeField, Response.data]

/-- A response of KIND 11 is malformed (30_encoding.md R91). -/
theorem Response.read?_kind_three {h : Word} (hk : h.extractLsb' 30 2 = 3#2) (d : List Byte) :
    Response.read? h d = none := by
  simp [Response.read?, hk]

theorem readResponse_toBytes {r : Response} (h : r.data.length < 2 ^ 24) (rest : List Byte) :
    readResponse (r.toBytes ++ rest) = some (r, rest) := by
  have hword : word32 (be 4 r.header.toNat) = r.header := word32_be _
  rw [Response.toBytes, List.append_assoc,
    readResponse_append (length_be 4 _) (hword ▸ Response.header_rlen h) (by simp), hword,
    List.take_left, List.drop_left, Response.read?_header h]
  rfl

/-- Settles O8: the header's fields select the response, and its RLEN the data's length. -/
theorem responsesAreReadBack : Obligations.ResponsesAreReadBack := by
  refine ⟨fun r h => ⟨Response.read?_header h, ?_, ?_, readResponse_toBytes h⟩,
    fun _ d hk => Response.read?_kind_three hk d⟩
  · rw [← be_four_eq_fields]
    exact List.take_left' (length_be 4 _)
  · exact List.drop_left' (length_be 4 _)

end Sys2Proof.Machine
end

section
/-! PROOFS. What a command reads and writes beside its unit (20_memory.md R69, R70; 70_reset_and_hazards.md
R277): no command reads the last response or DPB_BASE, and the configuration registers change by CTL_WRREG
and CTL_RESET alone. -/

namespace Sys2Proof.Machine

/-! ## What a command writes -/

/-- A command other than CTL_WRREG and CTL_RESET writes to the units alone (70_reset_and_hazards.md R277). -/
theorem Commits.only_units {i : Instr} {s s' : State} {d : List Byte} (h : Commits i s s' d)
    (hw : i.op ≠ .ctlWrreg) (hr : i.op ≠ .ctlReset) :
    ∃ c m u k f, s' = { s with crc := c, crcMismatch := m, unpk := u, pack := k, filt := f } := by
  cases i with
  | ctlWrreg => exact absurd rfl hw
  | ctlReset => exact absurd rfl hr
  | ctlNop | ctlRdreg | crcInit | crcUpdate | crcFinish | crcOneshot | filtPaeth =>
    exact ⟨_, _, _, _, _, h.1⟩
  | crcCheck =>
    obtain ⟨-, ⟨-, hs⟩ | ⟨-, -, hs⟩⟩ := h
    · exact ⟨_, _, _, _, _, hs⟩
    · exact ⟨_, _, _, _, _, hs⟩
  | unpkStart | unpkEndline | packStart | packEndline =>
    obtain ⟨-, -, hs⟩ := h
    exact ⟨_, _, _, _, _, hs⟩
  | unpkGet | packPut | packEnd | fencRow =>
    obtain ⟨-, -, -, hs⟩ := h
    exact ⟨_, _, _, _, _, hs⟩
  | unpkLoad | unpkEnd =>
    obtain ⟨-, -, -, -, hs⟩ := h
    exact ⟨_, _, _, _, _, hs⟩
  | a7Passes | a7Passinfo | a7Offset =>
    obtain ⟨_, -, hs, -⟩ := h
    exact ⟨_, _, _, _, _, hs⟩
  | fdecStart =>
    obtain ⟨_, -, -, hs⟩ := h
    exact ⟨_, _, _, _, _, hs⟩
  | fdecRow =>
    obtain ⟨_, _, -, -, -, -, hs⟩ := h
    exact ⟨_, _, _, _, _, hs⟩
  | fencStart =>
    obtain ⟨_, -, -, -, -, hs⟩ := h
    exact ⟨_, _, _, _, _, hs⟩

theorem writeReg_params {s s' : State} {r : Reg} {v : Word} (h : writeReg s r v = .ok s') :
    s'.params = s.params := by
  obtain ⟨-, -, rfl⟩ | ⟨-, rfl⟩ | ⟨-, rfl⟩ | ⟨-, -, rfl⟩ := writeReg_cases h
  · rfl
  · rfl
  · rfl
  · rfl

/-- No command writes the parameters (20_memory.md R70, log entry 4). -/
theorem Commits.params_eq {i : Instr} {s s' : State} {d : List Byte} (h : Commits i s s' d) :
    s'.params = s.params := by
  by_cases hw : i.op = .ctlWrreg
  · cases i with
    | ctlWrreg => exact writeReg_params h.1
    | _ => cases hw
  · by_cases hr : i.op = .ctlReset
    · cases i with
      | ctlReset => obtain ⟨rfl, -⟩ := h; rfl
      | _ => cases hr
    · obtain ⟨_, _, _, _, _, rfl⟩ := h.only_units hw hr
      rfl

theorem exec_params {i : Instr} {s t : State} (h : exec i s = .next t) : t.params = s.params := by
  obtain ⟨-, -, rfl⟩ | ⟨-, ⟨e, -, rfl⟩ | ⟨-, -, rfl⟩ | ⟨-, rfl⟩ | ⟨-, s', d, hc, rfl⟩⟩ := exec_cases h
  · rfl
  · rfl
  · rfl
  · rfl
  · exact hc.params_eq

/-- The configuration registers are as they were (70_reset_and_hazards.md R277). -/
def SameConfiguration (s t : State) : Prop :=
  t.ctrl = s.ctrl ∧ t.width = s.width ∧ t.height = s.height ∧ t.format = s.format

theorem exec_sameConfiguration {i : Instr} {s t : State} (h : exec i s = .next t)
    (hw : i.op ≠ .ctlWrreg) (hr : i.op ≠ .ctlReset) : SameConfiguration s t := by
  obtain ⟨-, -, rfl⟩ | ⟨-, ⟨e, -, rfl⟩ | ⟨-, -, rfl⟩ | ⟨-, rfl⟩ | ⟨-, s', d, hc, rfl⟩⟩ := exec_cases h
  · exact ⟨rfl, rfl, rfl, rfl⟩
  · exact ⟨rfl, rfl, rfl, rfl⟩
  · exact ⟨rfl, rfl, rfl, rfl⟩
  · exact ⟨rfl, rfl, rfl, rfl⟩
  · obtain ⟨_, _, _, _, _, rfl⟩ := hc.only_units hw hr
    exact ⟨rfl, rfl, rfl, rfl⟩

/-- CTL_WRREG is of unit 0, so it changes none of the units 1 to 6 (R44, R81). -/
theorem exec_ctlWrreg_units {i : Instr} {s t : State} (h : exec i s = .next t) (hi : i.op = .ctlWrreg) :
    t.crc = s.crc ∧ t.unpk = s.unpk ∧ t.pack = s.pack ∧ t.filt = s.filt ∧
      t.crcMismatch = s.crcMismatch := by
  obtain ⟨hcrc, hunpk, hpack, hfilt, hmis⟩ := commandsChangeOnlyTheirUnit i s t h (by simp [hi])
  have hu : i.op.code.extractLsb' 4 4 = 0#4 := by rw [hi]; rfl
  rw [hu] at hcrc hunpk hpack hfilt
  refine ⟨by_contra fun hne => ?_, by_contra fun hne => ?_, by_contra fun hne => ?_,
    by_contra fun hne => ?_, by_contra fun hne => ?_⟩
  · exact absurd (hcrc hne) (by decide)
  · exact absurd (hunpk hne) (by decide)
  · exact absurd (hpack hne) (by decide)
  · exact absurd (hfilt hne) (by decide)
  · rw [hi] at hmis
    exact absurd (hmis hne).1 (by decide)

/-! ## DPB_BASE is not read -/

/-- The same block placed elsewhere in the host's address space (20_memory.md R70). -/
def State.withBase (s : State) (b : Option Nat) : State :=
  { s with params := { s.params with dpbBase := b } }

@[simp] theorem State.withBase_filt (s : State) (b : Option Nat) : (s.withBase b).filt = s.filt := rfl

/-- The second outcome is the first with another DPB_BASE. -/
def SameButBase (b : Option Nat) (r r' : Result) : Prop :=
  ∃ t : State, r = .next t ∧ r' = .next (t.withBase b)

section
variable (b : Option Nat)

theorem sameButBase_respondOk (s : State) (d : List Byte) :
    SameButBase b (respondOk s d) (respondOk (s.withBase b) d) := ⟨_, rfl, rfl⟩

theorem sameButBase_respondWait (s : State) :
    SameButBase b (respondWait s) (respondWait (s.withBase b)) := ⟨_, rfl, rfl⟩

theorem sameButBase_raise (s : State) (e : ErrCode) :
    SameButBase b (raise s e) (raise (s.withBase b) e) := ⟨_, rfl, rfl⟩

theorem sameButBase_respondHalted (s : State) :
    SameButBase b (respondHalted s) (respondHalted (s.withBase b)) := ⟨_, rfl, rfl⟩

variable {b}

theorem sameButBase_ite {p : Prop} [Decidable p] {r₁ r₁' r₂ r₂' : Result} (h₁ : SameButBase b r₁ r₁')
    (h₂ : SameButBase b r₂ r₂') : SameButBase b (if p then r₁ else r₂) (if p then r₁' else r₂') := by
  split
  · exact h₁
  · exact h₂

theorem sameButBase_command (o : Op) (a : Args) (s : State) {body body' : Result}
    (h : SameButBase b body body') :
    SameButBase b (command o a s body) (command o a (s.withBase b) body') :=
  sameButBase_ite (sameButBase_respondHalted b s) (sameButBase_ite h (sameButBase_raise b s _))

theorem sameButBase_orRaise {α : Type} (s : State) (r : Except ErrCode α) {k k' : α → Result}
    (h : ∀ x, SameButBase b (k x) (k' x)) :
    SameButBase b (orRaise s r k) (orRaise (s.withBase b) r k') := by
  cases r with
  | ok x => exact h x
  | error e => exact sameButBase_raise b s e

end

theorem writeReg_withBase (b : Option Nat) (s : State) (r : Reg) (v : Word) :
    writeReg (s.withBase b) r v = (writeReg s r v).map (·.withBase b) := by
  cases r with
  | ctrl | format =>
    simp only [writeReg]
    split
    · rfl
    · rfl
  | _ => rfl

theorem sameButBase_writeReg (b : Option Nat) (s : State) (r : Reg) (v : Word) :
    SameButBase b (orRaise s (writeReg s r v) fun s' => respondOk s' [])
      (orRaise (s.withBase b) (writeReg (s.withBase b) r v) fun s' => respondOk s' []) := by
  rw [writeReg_withBase]
  cases writeReg s r v with
  | ok s' => exact sameButBase_respondOk b s' []
  | error e => exact sameButBase_raise b s e

theorem sameButBase_decodeRow (b : Option Nat) (s : State) (p : List Byte) :
    SameButBase b (decodeRow s p) (decodeRow (s.withBase b) p) := by
  cases p with
  | nil => exact sameButBase_raise b s _
  | cons tag raw =>
    simp only [decodeRow]
    cases FilterType.ofTag? tag with
    | none => exact sameButBase_raise b s _
    | some t => exact sameButBase_respondOk b { s with filt := s.filt.advance (s.filt.unfilter t raw) } _

/-- No command reads DPB_BASE (20_memory.md R70). -/
theorem sameButBase_exec (b : Option Nat) (i : Instr) (s : State) :
    SameButBase b (exec i s) (exec i (s.withBase b)) := by
  have ok := sameButBase_respondOk b
  have err := sameButBase_raise b
  cases i with
  | ctlNop a | ctlRdreg r a | crcFinish a | crcOneshot a | filtPaeth a =>
    exact sameButBase_command _ a s (ok s _)
  | ctlReset a => exact sameButBase_command _ a s (ok s.softReset _)
  | ctlWrreg r a => exact sameButBase_command _ a s (sameButBase_writeReg b s r _)
  | crcInit a => exact sameButBase_command _ a s (ok { s with crc := _ } _)
  | crcUpdate a => exact sameButBase_command _ a s (ok { s with crc := _ } _)
  | crcCheck a =>
    exact sameButBase_command _ a s (sameButBase_ite (ok s _)
      (sameButBase_ite (err { s with crcMismatch := true } _) (ok { s with crcMismatch := true } _)))
  | unpkStart a => exact sameButBase_command _ a s (sameButBase_ite (ok { s with unpk := _ } _) (err s _))
  | packStart a => exact sameButBase_command _ a s (sameButBase_ite (ok { s with pack := _ } _) (err s _))
  | unpkEndline a => exact sameButBase_command _ a s (sameButBase_ite (err s _) (ok { s with unpk := _ } _))
  | packEndline a => exact sameButBase_command _ a s (sameButBase_ite (err s _) (ok { s with pack := _ } _))
  | unpkLoad last a | unpkEnd a =>
    exact sameButBase_command _ a s (sameButBase_ite (err s _)
      (sameButBase_ite (err s _) (sameButBase_ite (err s _) (ok { s with unpk := _ } _))))
  | unpkGet a =>
    exact sameButBase_command _ a s (sameButBase_ite (err s _)
      (sameButBase_ite (sameButBase_ite (err s _) (sameButBase_respondWait b s)) (ok { s with unpk := _ } _)))
  | packPut a =>
    exact sameButBase_command _ a s
      (sameButBase_ite (err s _) (sameButBase_ite (ok { s with pack := _ } _) (err s _)))
  | packEnd a =>
    exact sameButBase_command _ a s
      (sameButBase_ite (err s _) (sameButBase_ite (err s _) (ok { s with pack := _ } _)))
  | a7Passes a | a7Passinfo p a | a7Offset p a =>
    exact sameButBase_command _ a s (sameButBase_orRaise s _ fun _ => ok s _)
  | fdecStart a =>
    exact sameButBase_command _ a s (sameButBase_orRaise s _ fun _ => ok { s with filt := _ } _)
  | fencStart a =>
    exact sameButBase_command _ a s (sameButBase_ite (err s _)
      (sameButBase_ite (sameButBase_orRaise s _ fun _ => ok { s with filt := _ } _) (err s _)))
  | fdecRow a =>
    refine sameButBase_command _ a s ?_
    simp only [State.withBase_filt]
    cases s.filt.mode with
    | idle | encode | done => exact err s _
    | decode => exact sameButBase_ite (sameButBase_decodeRow b s _) (err s _)
  | fencRow a =>
    refine sameButBase_command _ a s ?_
    simp only [State.withBase_filt]
    cases s.filt.mode with
    | idle | decode | done => exact err s _
    | encode => exact sameButBase_ite (ok { s with filt := _ } _) (err s _)

/-- Settles O17: the configuration and the units by what an accepted command writes, and DPB_BASE by what no
command reads. -/
theorem configurationAndUnitsAreApart : Obligations.ConfigurationAndUnitsAreApart := by
  intro i s t h
  obtain ⟨-, -, hport⟩ := exec_resp_port h
  refine ⟨exec_params h, hport, exec_sameConfiguration h, exec_ctlWrreg_units h, fun base => ?_⟩
  obtain ⟨t', ht, hbase⟩ := sameButBase_exec base i s
  obtain rfl : t = t' := Host.Outcome.next.inj (h.symm.trans ht)
  exact hbase

/-! ## The last response is not read -/

theorem orRaise_writeReg_with_resp (s : State) (q : Reg) (v : Word) (r : Option Response) :
    (orRaise { s with resp := r } (writeReg { s with resp := r } q v) fun s' => respondOk s' []) =
      orRaise s (writeReg s q v) fun s' => respondOk s' [] := by
  cases q with
  | ctrl | format =>
    simp only [writeReg]
    split
    · rfl
    · rfl
  | _ => rfl

/-- Every outcome writes its own response, and no command reads the one before. -/
theorem exec_with_resp (i : Instr) (s : State) (r : Option Response) :
    exec i { s with resp := r } = exec i s := by
  cases i with
  | ctlWrreg q a => exact congrArg (command .ctlWrreg a s) (orRaise_writeReg_with_resp s q _ r)
  | _ => rfl

/-- The commands of 20_memory.md R69 commit no write. -/
theorem Commits.eq_of_query {i : Instr} {s s' : State} {d : List Byte} (h : Commits i s s' d)
    (hi : i.op ∈ [Op.ctlRdreg, .crcFinish, .crcOneshot, .a7Passes, .a7Passinfo, .a7Offset, .filtPaeth]) :
    s' = s := by
  cases i with
  | ctlRdreg | crcFinish | crcOneshot | filtPaeth => exact h.1
  | a7Passes | a7Passinfo | a7Offset => obtain ⟨_, -, hs, -⟩ := h; exact hs
  | _ => simp [Instr.op] at hi

/-- Settles O19: a query commits no write, so it runs again on a state that differs in the response alone. -/
theorem queriesRepeat : Obligations.QueriesRepeat := by
  intro i s t d hi h hr
  obtain ⟨s', hc, rfl⟩ := exec_ok h hr
  obtain rfl := hc.eq_of_query hi
  exact ⟨rfl, (exec_with_resp i s' _).trans h⟩

end Sys2Proof.Machine
end

section
/-! PROOFS. The command encoding (30_encoding.md R81-R91): the decoder inverts the encoder, the headers it
refuses, and the framing check in front of every command. -/

namespace Sys2Proof.Machine

/-! ## The MOD check (30_encoding.md R83, R88) -/

theorem noMod_eq_ok_iff {m : BitVec 4} {i j : Instr} : noMod m i = .ok j ↔ m = 0#4 ∧ i = j := by
  by_cases h : m = 0#4 <;> simp [noMod, h]

theorem slotMod_eq_ok_iff {m : BitVec 4} {mk : Reg → Instr} {j : Instr} :
    slotMod m mk = .ok j ↔ ∃ r : Reg, r.index = m ∧ mk r = j := by
  unfold slotMod
  split
  · rename_i r hr
    constructor
    · exact fun h => ⟨r, Reg.ofIndex?_some hr, Except.ok.inj h⟩
    · rintro ⟨q, rfl, rfl⟩
      rw [Reg.ofIndex?_index] at hr
      rw [Option.some.inj hr]
  · rename_i hr
    constructor
    · exact fun h => nomatch h
    · rintro ⟨q, rfl, -⟩
      rw [Reg.ofIndex?_index] at hr
      exact nomatch hr

/-- The MOD values whose high three bits are 0 are the two that carry LAST in their low bit. -/
theorem lastMod_bits (m : BitVec 4) : m.extractLsb' 1 3 = 0#3 ↔ 0#3 ++ BitVec.ofBool (m.getLsbD 0) = m := by
  revert m
  decide

theorem lastMod_eq_ok_iff {m : BitVec 4} {mk : Bool → Instr} {j : Instr} :
    lastMod m mk = .ok j ↔ ∃ last : Bool, 0#3 ++ BitVec.ofBool last = m ∧ mk last = j := by
  unfold lastMod
  constructor
  · intro h
    split at h
    · exact ⟨_, (lastMod_bits m).mp (eq_of_beq ‹_›), Except.ok.inj h⟩
    · cases h
  · rintro ⟨last, rfl, rfl⟩
    cases last <;> rfl

/-- The MOD values whose high bit is 0 are those that carry a pass in their low three bits. -/
theorem passMod_bits (m : BitVec 4) : m.getLsbD 3 = false ↔ 0#1 ++ m.extractLsb' 0 3 = m := by
  revert m
  decide

theorem passMod_eq_ok_iff {m : BitVec 4} {mk : BitVec 3 → Instr} {j : Instr} :
    passMod m mk = .ok j ↔ ∃ p : BitVec 3, 0#1 ++ p = m ∧ mk p = j := by
  unfold passMod
  constructor
  · intro h
    split at h
    · exact ⟨_, (passMod_bits m).mp (eq_of_beq ‹_›), Except.ok.inj h⟩
    · cases h
  · rintro ⟨p, rfl, rfl⟩
    have low : (0#1 ++ p).extractLsb' 0 3 = p := by
      revert p
      decide
    have high : (0#1 ++ p).getLsbD 3 = false := by
      revert p
      decide
    rw [high, low]
    rfl

/-! ## The decoder inverts the encoder (30_encoding.md R81, R91) -/

/-- A selected operation builds exactly the command that has it, the MOD bits and the arguments. -/
theorem Op.build_eq_ok_iff {o : Op} {m : BitVec 4} {a : Args} {i : Instr} :
    o.build m a = .ok i ↔ i.op = o ∧ i.modBits = m ∧ i.args = a := by
  constructor
  · intro h
    cases o with
    | ctlRdreg | ctlWrreg =>
      rw [Op.build, slotMod_eq_ok_iff] at h
      obtain ⟨r, hm, rfl⟩ := h
      exact ⟨rfl, hm, rfl⟩
    | unpkLoad =>
      rw [Op.build, lastMod_eq_ok_iff] at h
      obtain ⟨last, hm, rfl⟩ := h
      exact ⟨rfl, hm, rfl⟩
    | a7Passinfo | a7Offset =>
      rw [Op.build, passMod_eq_ok_iff] at h
      obtain ⟨p, hm, rfl⟩ := h
      exact ⟨rfl, hm, rfl⟩
    | _ =>
      rw [Op.build, noMod_eq_ok_iff] at h
      obtain ⟨rfl, rfl⟩ := h
      exact ⟨rfl, rfl, rfl⟩
  · rintro ⟨rfl, rfl, rfl⟩
    cases i with
    | ctlRdreg r | ctlWrreg r =>
      rw [Instr.op, Op.build, slotMod_eq_ok_iff]
      exact ⟨r, rfl, rfl⟩
    | unpkLoad last =>
      rw [Instr.op, Op.build, lastMod_eq_ok_iff]
      exact ⟨last, rfl, rfl⟩
    | a7Passinfo p | a7Offset p =>
      rw [Instr.op, Op.build, passMod_eq_ok_iff]
      exact ⟨p, rfl, rfl⟩
    | _ =>
      rw [Instr.op, Op.build, noMod_eq_ok_iff]
      exact ⟨rfl, rfl⟩

/-- A command decodes when its opcode selects an operation that accepts its MOD bits (30_encoding.md R90). -/
theorem decode_eq_ok_iff_build {c : Command} {i : Instr} :
    decode c = .ok i ↔
      ∃ o : Op, o.code = opcodeField c.header ∧
        o.build (modField c.header) ⟨argField c.header, c.payload⟩ = .ok i := by
  unfold decode
  constructor
  · intro h
    split at h
    · cases h
    · exact ⟨_, Op.ofCode?_some ‹_›, h⟩
  · rintro ⟨o, ho, h⟩
    rw [← ho, Op.ofCode?_code]
    exact h

/-- The encoder and the decoder are inverse to each other. -/
theorem decode_eq_ok_iff {c : Command} {i : Instr} : decode c = .ok i ↔ encode i = c := by
  rw [decode_eq_ok_iff_build]
  simp only [Op.build_eq_ok_iff]
  constructor
  · rintro ⟨_, hop, rfl, hmod, hargs⟩
    simp only [encode, hop, hmod, hargs, headerOf_fields]
  · rintro rfl
    obtain ⟨hop, hmod, harg, hpay⟩ := Laws.encodedFields_of i
    exact ⟨i.op, hop.symm, rfl, hmod.symm, by rw [harg, hpay]⟩

/-- Settles O1: the round trip from the decoded command. -/
theorem decodeOfEncodeIsTheCommand : Obligations.DecodeOfEncodeIsTheCommand :=
  fun _ => decode_eq_ok_iff.mpr rfl

/-- Settles O2: the round trip from the header and the payload. -/
theorem decodedCommandIsItsEncoding : Obligations.DecodedCommandIsItsEncoding :=
  fun _ _ => decode_eq_ok_iff.mp

/-! ## The headers the decoder refuses (30_encoding.md R87, R88) -/

/-- The numbers below 256 that are opcode values are those of the map, each once. -/
theorem opcodes_perm :
    ((List.range 256).filter fun n => !Op.all.all fun o => o.code != BitVec.ofNat 8 n).Perm
      (Op.all.map fun o => o.code.toNat) := by
  refine (List.perm_ext_iff_of_nodup (List.nodup_range.filter _) (by decide)).mpr fun n => ?_
  simp only [List.mem_filter, List.mem_range, List.mem_map, Bool.not_eq_true', List.all_eq_false,
    bne_iff_ne, ne_eq, not_not]
  constructor
  · rintro ⟨hn, o, ho, hc⟩
    exact ⟨o, ho, by rw [hc, BitVec.toNat_ofNat, Nat.mod_eq_of_lt hn]⟩
  · rintro ⟨o, ho, rfl⟩
    exact ⟨o.code.isLt, o, ho, by simp⟩

theorem length_filter_range_compl {p : Nat → Bool} {n k : Nat}
    (h : ((List.range n).filter fun x => !p x).length = k) : ((List.range n).filter p).length = n - k := by
  have hs := List.length_eq_length_filter_add (l := List.range n) p
  rw [List.length_range, h] at hs
  omega

/-- 256 − 26 opcode values select no operation (30_encoding.md R87). -/
theorem length_undefined_opcodes :
    ((List.range 256).filter fun n => Op.all.all fun o => o.code != BitVec.ofNat 8 n).length = 230 :=
  length_filter_range_compl opcodes_perm.length_eq

theorem exists_reg_index_iff {m : BitVec 4} : (∃ r : Reg, r.index = m) ↔ m.toNat ≤ 12 := by
  constructor
  · rintro ⟨r, rfl⟩
    cases r <;> decide
  · have all : ∀ m : BitVec 4, m.toNat ≤ 12 → (Reg.ofIndex? m).isSome := by decide
    intro h
    obtain ⟨r, hr⟩ := Option.isSome_iff_exists.mp (all m h)
    exact ⟨r, Reg.ofIndex?_some hr⟩

theorem exists_last_iff {m : BitVec 4} :
    (∃ last : Bool, 0#3 ++ BitVec.ofBool last = m) ↔ m.toNat ≤ 1 := by
  revert m
  decide

theorem exists_pass_iff {m : BitVec 4} : (∃ p : BitVec 3, 0#1 ++ p = m) ↔ m.toNat ≤ 7 := by
  revert m
  decide

/-- An operation accepts exactly the MOD values of 30_encoding.md R83. -/
theorem Op.build_isOk_iff (o : Op) (m : BitVec 4) (a : Args) :
    (∃ i, o.build m a = .ok i) ↔ ModRule o m := by
  cases o with
  | ctlRdreg | ctlWrreg =>
    rw [ModRule, ← exists_reg_index_iff]
    simp [Op.build, slotMod_eq_ok_iff]
  | unpkLoad =>
    rw [ModRule, ← exists_last_iff]
    simp only [Op.build, lastMod_eq_ok_iff]
    exact ⟨fun ⟨_, last, h, _⟩ => ⟨last, h⟩, fun ⟨last, h⟩ => ⟨_, last, h, rfl⟩⟩
  | a7Passinfo | a7Offset =>
    rw [ModRule, ← exists_pass_iff]
    simp [Op.build, passMod_eq_ok_iff]
  | _ => simp [Op.build, noMod_eq_ok_iff, ModRule]

/-- Exactly the headers that keep the rules of 30_encoding.md R87 and R88 decode. -/
theorem decode_isOk_iff (c : Command) :
    (∃ i, decode c = .ok i) ↔
      ∃ o : Op, o.code = opcodeField c.header ∧ ModRule o (modField c.header) := by
  constructor
  · rintro ⟨i, hi⟩
    obtain ⟨o, ho, hb⟩ := decode_eq_ok_iff_build.mp hi
    exact ⟨o, ho, (Op.build_isOk_iff o _ _).mp ⟨i, hb⟩⟩
  · rintro ⟨o, ho, hm⟩
    obtain ⟨i, hb⟩ := (Op.build_isOk_iff o _ ⟨argField c.header, c.payload⟩).mpr hm
    exact ⟨i, decode_eq_ok_iff_build.mpr ⟨o, ho, hb⟩⟩

/-- Outside the halt a command that does not decode raises ILLEGAL. -/
theorem undecodable_of_not_halted {c : Command} {why : DecodeError} {s : State} (hs : s.halt = false) :
    undecodable c why s = raise s .illegal := by
  simp [undecodable, hs]

/-- What an error leaves outside the halt (60_exceptions.md R241). -/
theorem raise_of_not_halted {s : State} (e : ErrCode) (hs : s.halt = false) :
    raise s e = .next { s with halt := true, errcode := e.code, resp := some (.err e) } := by
  simp [raise, State.raised, hs]

/-- Settles O5: a header that no operation accepts leaves the decoder with an error, which is answered
ILLEGAL. -/
theorem reservedHeadersRaiseIllegal : Obligations.ReservedHeadersRaiseIllegal := by
  refine ⟨length_undefined_opcodes, fun c => ⟨(decode_isOk_iff c).mpr, fun hc s rest hs hp => ?_⟩⟩
  cases hd : decode c with
  | ok i => exact absurd ((decode_isOk_iff c).mp ⟨i, hd⟩) hc
  | error why =>
    have hs' : State.halt { s with port := rest } = false := hs
    rw [step_of_decode_error hp hd, undecodable_of_not_halted hs']
    exact raise_of_not_halted .illegal hs'

/-! ## The framing check (30_encoding.md R82, R89) -/

theorem framed_iff {k : ArgKind} {a : Args} : framed k a = true ↔ FramingRule k a := by
  cases k with
  | z => exact framed_z
  | l => exact framed_l
  | e => exact framed_e
  | f n => exact framed_f
  | c => exact framed_c

/-- Every command is the common sequence around a body of its own (30_encoding.md R90). -/
theorem exec_eq_command (i : Instr) (s : State) : ∃ body, exec i s = command i.op i.args s body := by
  cases i <;> exact ⟨_, rfl⟩

/-- Settles O13: the framing check stands in front of every command's body. -/
theorem misframedCommandsRaiseLength : Obligations.MisframedCommandsRaiseLength := by
  intro i s hs hf
  obtain ⟨body, h⟩ := exec_eq_command i s
  rw [h, command_misframed (.inl hs) (Bool.eq_false_iff.mpr fun hk => hf (framed_iff.mp hk))]
  exact raise_of_not_halted .length hs

end Sys2Proof.Machine
end

section
/-! PROOFS. The words of the encoding (30_encoding.md R84, R93, R95): the header of a command as a number, the
headers of the assembly forms, and the fields of a response header. -/

namespace Sys2Proof.Machine

/-! ## The header of a command (30_encoding.md R81) -/

theorem toNat_headerOf (o : BitVec 8) (m : BitVec 4) (a : BitVec 20) :
    (headerOf o m a).toNat = o.toNat * 2 ^ 24 + m.toNat * 2 ^ 20 + a.toNat := by
  rw [headerOf, BitVec.toNat_append, BitVec.toNat_append, ← Nat.shiftLeft_add_eq_or_of_lt a.isLt,
    ← Nat.shiftLeft_add_eq_or_of_lt m.isLt]
  simp only [Nat.shiftLeft_eq]
  omega

/-- The encoding of a command whose fields are `o`, `m` and `a`. -/
theorem encode_of_fields {i : Instr} (o : Op) (m : BitVec 4) (a : BitVec 20) {p : List Byte} {v : Nat}
    (hi : i.op = o ∧ i.modBits = m ∧ i.args = ⟨a, p⟩)
    (hv : o.code.toNat * 2 ^ 24 + m.toNat * 2 ^ 20 + a.toNat = v) :
    encode i = ⟨BitVec.ofNat 32 v, p⟩ := by
  obtain ⟨hop, hmod, hargs⟩ := hi
  rw [encode, hop, hmod, hargs, ← hv, ← toNat_headerOf, BitVec.ofNat_toNat, BitVec.setWidth_eq]

theorem toNat_ofNat_twenty {n : Nat} (h : n ≤ maxPayload) : (BitVec.ofNat 20 n).toNat = n := by
  rw [maxPayload] at h
  exact toNat_of_eq_ofNat rfl (by omega)

/-- A form with a number as its ARG, of bytes or of samples. -/
theorem encode_of_length {i : Instr} (o : Op) (m : BitVec 4) {n : Nat} {p : List Byte} {b : Nat}
    (hi : i.op = o ∧ i.modBits = m ∧ i.args = ⟨BitVec.ofNat 20 n, p⟩)
    (hb : o.code.toNat * 2 ^ 24 + m.toNat * 2 ^ 20 = b) (hn : n ≤ maxPayload) :
    encode i = ⟨BitVec.ofNat 32 (b + n), p⟩ :=
  encode_of_fields o m _ hi (by rw [hb, toNat_ofNat_twenty hn])

/-- A form with a register or a pass in its MOD bits and a fixed ARG. -/
theorem encode_of_operand {i : Instr} (o : Op) (m : BitVec 4) (a : BitVec 20) {p : List Byte} {b : Nat}
    (hi : i.op = o ∧ i.modBits = m ∧ i.args = ⟨a, p⟩) (hb : o.code.toNat * 2 ^ 24 + a.toNat = b) :
    encode i = ⟨BitVec.ofNat 32 (b + m.toNat * 2 ^ 20), p⟩ :=
  encode_of_fields o m a hi (by rw [← hb, Nat.add_right_comm])

/-- A pass index as MOD bits keeps its value (30_encoding.md R83). -/
theorem toNat_passBits (p : BitVec 3) : (0#1 ++ p : BitVec 4).toNat = p.toNat := by
  revert p
  decide

/-- Settles O4: the header is the sum of the fields, and a form's fields are those of the opcode map. -/
theorem headersOfTheAssemblyForms : Obligations.HeadersOfTheAssemblyForms := by
  refine ⟨rfl, rfl, fun r => ?rdreg, fun r v => ?wrreg, rfl,
    fun p hp => ⟨?update, ?oneshot, ?load, ?loadLast, ?fencRow⟩, rfl, fun v => ?check, rfl,
    fun n hn => ?get, rfl, rfl, rfl, fun l hl => ?put, rfl, rfl, rfl, fun p => ?passinfo,
    fun p x y => ?offset, rfl, fun tag p hp => ?fdecRow, fun a b c => ?paeth, rfl⟩
  case rdreg =>
    exact congrArg Command.header (encode_of_operand .ctlRdreg r.index 0#20 ⟨rfl, rfl, rfl⟩ rfl)
  case wrreg => exact encode_of_operand .ctlWrreg r.index 4#20 ⟨rfl, rfl, rfl⟩ rfl
  case update => exact encode_of_length .crcUpdate 0#4 ⟨rfl, rfl, rfl⟩ rfl hp
  case oneshot => exact encode_of_length .crcOneshot 0#4 ⟨rfl, rfl, rfl⟩ rfl hp
  case load => exact encode_of_length .unpkLoad 0#4 ⟨rfl, rfl, rfl⟩ rfl hp
  case loadLast => exact encode_of_length .unpkLoad 1#4 ⟨rfl, rfl, rfl⟩ rfl hp
  case fencRow => exact encode_of_length .fencRow 0#4 ⟨rfl, rfl, rfl⟩ rfl hp
  case check => exact encode_of_fields .crcCheck 0#4 4#20 ⟨rfl, rfl, rfl⟩ rfl
  case get => exact encode_of_length .unpkGet 0#4 ⟨rfl, rfl, rfl⟩ rfl (Nat.le_of_lt_succ hn)
  case put =>
    have hlen : (l.flatMap (be 2)).length = 2 * l.length := length_sampleBytes l
    rw [← hlen] at hl ⊢
    exact encode_of_length .packPut 0#4 ⟨rfl, rfl, rfl⟩ rfl hl
  case passinfo =>
    rw [← toNat_passBits]
    exact congrArg Command.header (encode_of_operand .a7Passinfo (0#1 ++ p) 0#20 ⟨rfl, rfl, rfl⟩ rfl)
  case offset =>
    rw [← toNat_passBits]
    exact encode_of_operand .a7Offset (0#1 ++ p) 8#20 ⟨rfl, rfl, rfl⟩ rfl
  case fdecRow => exact encode_of_length .fdecRow 0#4 ⟨rfl, rfl, rfl⟩ rfl hp
  case paeth => exact encode_of_fields .filtPaeth 0#4 3#20 ⟨rfl, rfl, rfl⟩ rfl

/-- Settles O3: the encoder gives the words of the examples, and the decoder reads back what it gives. -/
theorem encodingExamples : Obligations.EncodingExamples := by
  refine ⟨decode_eq_ok_iff.mpr rfl, decode_eq_ok_iff.mpr rfl, decode_eq_ok_iff.mpr rfl,
    decode_eq_ok_iff.mpr rfl, decode_eq_ok_iff.mpr rfl, rfl, rfl, rfl, rfl, rfl, fun d hd => ?_, rfl, rfl⟩
  simp [Response.header, Response.kind, Response.codeField, Response.data, hd]

/-! ## The header of a response (30_encoding.md R84) -/

/-- Settles O7: the fields are those of the response, and RLEN is exact for data that fits it. -/
theorem responseHeaderFields : Obligations.ResponseHeaderFields := by
  intro r h
  obtain ⟨hkind, hzero, hcode, -⟩ := r.header_fields
  rw [hkind, hcode]
  refine ⟨?_, hzero, ?_, Response.header_rlen h, ?_⟩
  · cases r <;> rfl
  · cases r <;> rfl
  · rintro (rfl | ⟨e, rfl⟩)
    · rfl
    · rfl

end Sys2Proof.Machine
end

section
/-! PROOFS. Column "D length" of the opcode map (30_encoding.md R86): how many bytes each command answers. -/

namespace Sys2Proof.Machine

/-! ## The bytes of the packer (42_bitpack.md R149, R150) -/

theorem Pack.put_length_le (k : Pack) (x : Nat) : (k.put x).1.length ≤ 2 := by
  unfold Pack.put
  split
  · dsimp only
    split <;> simp
  · split <;> simp

theorem Pack.putAll_length_le (k : Pack) (l : List Nat) : (k.putAll l).1.length ≤ 2 * l.length := by
  induction l generalizing k with
  | nil => exact Nat.le_refl 0
  | cons x xs ih =>
    have hx := k.put_length_le x
    have hxs := ih (k.put x).2
    rw [Pack.putAll_cons, List.length_append, List.length_cons]
    omega

theorem Pack.flush_length_le (k : Pack) : k.flush.length ≤ 1 := by
  unfold Pack.flush
  split <;> simp

/-- A sample takes two bytes of the payload. -/
theorem samplesOf_length_le (p : List Byte) : 2 * (samplesOf p).length ≤ p.length := by
  induction p using samplesOf.induct with
  | case1 b0 b1 rest ih =>
    simp only [samplesOf, List.length_cons]
    omega
  | case2 => simp [samplesOf]
  | case3 => simp [samplesOf]

/-! ## The pass list (43_adam7.md R171, R174) -/

theorem length_geometryOf (w h : Nat) (b : Bool) :
    (geometryOf w h b).length = 1 ∨ (geometryOf w h b).length = 7 := by
  cases b with
  | false => exact .inl rfl
  | true => exact .inr rfl

theorem length_passSizes (g : List PassGeom) :
    (g.flatMap fun q => be 4 q.pw ++ be 4 q.ph).length = 8 * g.length := by
  simp [List.length_flatMap, Nat.mul_comm]

/-! ## The answers -/

/-- A command that answers OK is well framed (30_encoding.md R90). -/
theorem framed_of_exec_ok {i : Instr} {s t : State} {d : List Byte} (h : exec i s = .next t)
    (hr : t.resp = some (.ok d)) : i.Framed := by
  obtain ⟨body, hb⟩ := exec_eq_command i s
  obtain ⟨-, -, rfl⟩ | ⟨-, -, rfl⟩ | ⟨-, hf, -⟩ := command_cases (hb.symm.trans h)
  · cases hr
  · cases hr
  · exact hf

/-- Settles O20, by what each command commits. -/
theorem dataLengthOfEveryAnswer : Obligations.DataLengthOfEveryAnswer := by
  intro i s t d h hr
  have hf := framed_of_exec_ok h hr
  obtain ⟨s', hc, -⟩ := exec_ok h hr
  cases i with
  | ctlNop | ctlReset | ctlWrreg | crcInit | crcUpdate =>
    obtain ⟨-, rfl⟩ := hc
    rfl
  | unpkStart | unpkEndline | packStart =>
    obtain ⟨-, rfl, -⟩ := hc
    rfl
  | packEnd =>
    obtain ⟨-, -, rfl, -⟩ := hc
    rfl
  | unpkLoad | unpkEnd =>
    obtain ⟨-, -, -, rfl, -⟩ := hc
    rfl
  | fdecStart =>
    obtain ⟨_, -, rfl, -⟩ := hc
    rfl
  | fencStart =>
    obtain ⟨_, -, -, -, rfl, -⟩ := hc
    rfl
  | ctlRdreg | crcFinish | crcOneshot =>
    obtain ⟨-, rfl⟩ := hc
    exact length_be 4 _
  | crcCheck =>
    obtain ⟨rfl, -⟩ := hc
    exact length_be 4 _
  | unpkGet a =>
    obtain ⟨-, -, rfl, -⟩ := hc
    rw [length_sampleBytes, Unpk.takeSamples_length]
  | packPut a =>
    obtain ⟨-, -, rfl, -⟩ := hc
    have hlen : a.payload.length = a.arg.toNat := (framed_e.mp hf).1
    exact (Pack.putAll_length_le _ _).trans ((samplesOf_length_le _).trans hlen.le)
  | packEndline =>
    obtain ⟨-, rfl, -⟩ := hc
    exact Pack.flush_length_le _
  | a7Passes =>
    obtain ⟨g, hg, -, rfl⟩ := hc
    obtain ⟨-, -, rfl⟩ := geometry_ok hg
    have := length_geometryOf s.width.toNat s.height.toNat s.interlace
    rw [length_passSizes]
    omega
  | a7Passinfo =>
    obtain ⟨q, -, -, rfl⟩ := hc
    simp
  | a7Offset =>
    obtain ⟨off, -, -, rfl⟩ := hc
    exact length_be 8 off
  | fdecRow =>
    obtain ⟨f, raw, -, -, hlen, rfl, -⟩ := hc
    rw [Filt.unfilter_length, hlen]
  | filtPaeth =>
    obtain ⟨-, rfl⟩ := hc
    rfl
  | fencRow =>
    obtain ⟨-, hlen, rfl, -⟩ := hc
    rw [List.length_cons, Filt.filtered_length, hlen]

end Sys2Proof.Machine
end

section
/-! PROOFS. CTL_NOP, CTL_RESET and CTL_WRREG (40_control.md R110, R111, R113): the whole next state of each. -/

namespace Sys2Proof.Machine

/-! ## CTL_NOP and CTL_RESET -/

/-- Settles O21: both commands are accepted while halted and have no operand, so their bodies run. -/
theorem nopAndResetAnswerInEveryState : Obligations.NopAndResetAnswerInEveryState :=
  fun _ => ⟨command_body (.inr rfl) rfl, command_body (.inr rfl) rfl⟩

/-! ## The words CTRL accepts (10_state.md R24) -/

theorem extractLsb'_one_eq_zero_iff (v : Word) : v.extractLsb' 1 31 = 0#31 ↔ v.toNat ≤ 1 := by
  rw [← BitVec.toNat_inj, toNat_field, BitVec.toNat_zero]
  have := v.isLt
  omega

/-- Replacing bit 0 is masking it out and setting it from the written word. -/
theorem extractLsb'_append_bit_zero (c : Word) {v : Word} (hv : v.extractLsb' 1 31 = 0#31) :
    c.extractLsb' 1 31 ++ BitVec.ofBool (v.getLsbD 0) = (c &&& ~~~(1#32)) ||| v := by
  have hmask : ~~~(1#32) = BitVec.allOnes 31 ++ 0#1 := by decide
  have hword : 0#31 ++ BitVec.ofBool (v.getLsbD 0) = v := hv ▸ extractLsb'_append_ofBool v
  calc c.extractLsb' 1 31 ++ BitVec.ofBool (v.getLsbD 0)
    _ = (c.extractLsb' 1 31 &&& BitVec.allOnes 31 ||| 0#31) ++
          (BitVec.ofBool (c.getLsbD 0) &&& 0#1 ||| BitVec.ofBool (v.getLsbD 0)) := by
      rw [BitVec.and_allOnes, BitVec.or_zero, BitVec.and_zero, BitVec.zero_or]
    _ = (c.extractLsb' 1 31 ++ BitVec.ofBool (c.getLsbD 0)) &&& (BitVec.allOnes 31 ++ 0#1) |||
          (0#31 ++ BitVec.ofBool (v.getLsbD 0)) := by rw [BitVec.and_append, BitVec.or_append]
    _ = (c &&& ~~~(1#32)) ||| v := by rw [extractLsb'_append_ofBool, hmask, hword]

/-! ## Which register writes are accepted (40_control.md R113) -/

theorem writeReg_ctrl_of_le {s : State} {v : Word} (h : v.toNat ≤ 1) :
    writeReg s .ctrl v = .ok { s with ctrl := (s.ctrl &&& ~~~(1#32)) ||| v } := by
  have hv := (extractLsb'_one_eq_zero_iff v).mpr h
  rw [← extractLsb'_append_bit_zero s.ctrl hv]
  exact if_pos (beq_iff_eq.mpr hv)

theorem writeReg_ctrl_of_not_le {s : State} {v : Word} (h : ¬ v.toNat ≤ 1) :
    writeReg s .ctrl v = .error .illegal :=
  if_neg fun hv => h ((extractLsb'_one_eq_zero_iff v).mp (beq_iff_eq.mp hv))

theorem writeReg_width (s : State) (v : Word) : writeReg s .width v = .ok { s with width := v } := rfl

theorem writeReg_height (s : State) (v : Word) : writeReg s .height v = .ok { s with height := v } := rfl

theorem writeReg_format_of_mask {s : State} {v : Word} (h : v &&& ~~~formatMask = 0#32) :
    writeReg s .format v = .ok { s with format := v } :=
  if_pos (beq_iff_eq.mpr h)

theorem writeReg_format_of_not_mask {s : State} {v : Word} (h : v &&& ~~~formatMask ≠ 0#32) :
    writeReg s .format v = .error .illegal :=
  if_neg fun hv => h (beq_iff_eq.mp hv)

theorem writeReg_readOnly {s : State} {r : Reg} {v : Word}
    (hr : r ∈ [Reg.id, .status, .crcState, .unpkLevel, .unpkCur, .packAcc, .filtPos, .filtRow,
      .filtByteWidth]) : writeReg s r v = .error .illegal := by
  cases r with
  | ctrl | width | height | format => exact absurd hr (by decide)
  | id | status | crcState | unpkLevel | unpkCur | packAcc | filtPos | filtRow | filtByteWidth => rfl

/-! ## CTL_WRREG -/

/-- Outside the halt CTL_WRREG answers what `writeReg` makes of the word in its payload. -/
theorem exec_ctlWrreg {s : State} (r : Reg) (v : Word) (hs : s.halt = false) :
    exec (Asm.ctlWrreg r v) s = orRaise s (writeReg s r v) fun s' => respondOk s' [] := by
  have hbody : exec (Asm.ctlWrreg r v) s =
      orRaise s (writeReg s r (word32 (be 4 v.toNat))) fun s' => respondOk s' [] :=
    command_body (.inl hs) rfl
  rw [hbody, word32_be]

theorem exec_ctlWrreg_of_ok {s s' : State} {r : Reg} {v : Word} (hs : s.halt = false)
    (h : writeReg s r v = .ok s') : exec (Asm.ctlWrreg r v) s = .next (s'.answered []) := by
  rw [exec_ctlWrreg r v hs, h]
  rfl

theorem exec_ctlWrreg_of_illegal {s : State} {r : Reg} {v : Word} (hs : s.halt = false)
    (h : writeReg s r v = .error .illegal) : exec (Asm.ctlWrreg r v) s
      = .next { s with halt := true, errcode := 7#4, resp := some (.err .illegal) } := by
  rw [exec_ctlWrreg r v hs, h]
  exact raise_of_not_halted .illegal hs

/-- Settles O26, by which writes are accepted: an accepted one is answered OK, any other raises ILLEGAL. -/
theorem writeRegisterWritesOrRefuses : Obligations.WriteRegisterWritesOrRefuses :=
  fun s v hs =>
    ⟨fun h => exec_ctlWrreg_of_ok hs (writeReg_ctrl_of_le h),
     fun h => exec_ctlWrreg_of_illegal hs (writeReg_ctrl_of_not_le h),
     exec_ctlWrreg_of_ok hs (writeReg_width s v),
     exec_ctlWrreg_of_ok hs (writeReg_height s v),
     fun h => exec_ctlWrreg_of_ok hs (writeReg_format_of_mask h),
     fun h => exec_ctlWrreg_of_illegal hs (writeReg_format_of_not_mask h),
     fun _ hr => exec_ctlWrreg_of_illegal hs (writeReg_readOnly hr)⟩

end Sys2Proof.Machine
end

section
/-! PROOFS. The CRC-32 unit (spec/41_crc.md): a round of the shift register is linear and loses nothing, so
the table step is eight rounds on the state with the byte fed in, and the fold loses no change of a byte. -/

namespace Sys2Proof.Machine

/-! ## One round (41_crc.md R120) -/

/-- What a round adds to the shifted word when the bit `b` leaves it. -/
def crcFeedback (b : Bool) : Word := if b then 0xEDB88320#32 else 0#32

theorem crcFeedback_xor (a b : Bool) : crcFeedback (a ^^ b) = crcFeedback a ^^^ crcFeedback b := by
  cases a <;> cases b <;> decide

theorem crcRound_eq (c : Word) : crcRound c = (c >>> 1) ^^^ crcFeedback (c.getLsbD 0) := by
  cases h : c.getLsbD 0 with
  | false => simp only [crcRound, h, crcFeedback, Bool.false_eq_true, if_false, BitVec.xor_zero]
  | true => simp only [crcRound, h, crcFeedback, if_true, BitVec.xor_comm]

theorem crcRound_of_lsb_false {c : Word} (h : c.getLsbD 0 = false) : crcRound c = c >>> 1 := by
  rw [crcRound_eq, h]
  exact BitVec.xor_zero

theorem crcRound_xor (a b : Word) : crcRound (a ^^^ b) = crcRound a ^^^ crcRound b := by
  simp only [crcRound_eq, BitVec.ushiftRight_xor_distrib, BitVec.getLsbD_xor, crcFeedback_xor]
  ac_rfl

/-- The polynomial has its top bit set and a shifted word has not, so a round moves the low bit to the top. -/
theorem crcRound_getLsbD_top (c : Word) : (crcRound c).getLsbD 31 = c.getLsbD 0 := by
  rw [crcRound_eq, BitVec.getLsbD_xor, BitVec.getLsbD_ushiftRight, BitVec.getLsbD_of_ge c _ (by decide)]
  cases c.getLsbD 0 <;> rfl

/-- The top bit of the result is the bit shifted out, and without the feedback the rest stands below it. -/
theorem crcRound_injective : Function.Injective crcRound := by
  intro a b h
  have hlow : a.getLsbD 0 = b.getLsbD 0 := by rw [← crcRound_getLsbD_top, h, crcRound_getLsbD_top]
  have hhigh : a >>> 1 = b >>> 1 := by
    rw [crcRound_eq, crcRound_eq, hlow] at h
    exact (BitVec.xor_left_inj _).mp h
  refine BitVec.eq_of_getLsbD_eq fun i _ => ?_
  cases i with
  | zero => exact hlow
  | succ i => simpa [Nat.add_comm] using congrArg (·.getLsbD i) hhigh

/-! ## Several rounds -/

theorem crcRound_iterate_xor (k : Nat) (a b : Word) :
    crcRound^[k] (a ^^^ b) = crcRound^[k] a ^^^ crcRound^[k] b := by
  induction k generalizing a b with
  | zero => rfl
  | succ k ih => simp only [Function.iterate_succ_apply, crcRound_xor, ih]

/-- While zeros are shifted out, the rounds are a plain shift. -/
theorem crcRound_iterate_of_low_zero {k : Nat} {w : Word} (h : ∀ i < k, w.getLsbD i = false) :
    crcRound^[k] w = w >>> k := by
  induction k generalizing w with
  | zero => exact (BitVec.ushiftRight_zero w).symm
  | succ k ih =>
    have hshift : ∀ i < k, (w >>> 1).getLsbD i = false := fun i hi => by
      rw [BitVec.getLsbD_ushiftRight]
      exact h _ (by omega)
    rw [Function.iterate_succ_apply, crcRound_of_lsb_false (h 0 (by omega)), ih hshift,
      ← BitVec.shiftRight_add, Nat.add_comm]

theorem crcTable_eq_iterate (n : Word) : crcTable n = crcRound^[8] n := rfl

theorem crcTable_xor (a b : Word) : crcTable (a ^^^ b) = crcTable a ^^^ crcTable b :=
  crcRound_iterate_xor 8 a b

theorem crcTable_injective : Function.Injective crcTable := crcRound_injective.iterate 8

/-! ## Folding one byte (41_crc.md R121) -/

/-- Eight rounds look the low byte up in the table and shift the rest down. -/
theorem crcTable_eq_lookup_xor_shift (w : Word) : crcTable w = crcTable (w &&& 0xFF#32) ^^^ (w >>> 8) := by
  have hmask : ∀ i < 8, (0xFF#32).getLsbD i = true := by decide
  have hlow : ∀ i < 8, ((w &&& 0xFF#32) ^^^ w).getLsbD i = false := fun i hi => by
    rw [BitVec.getLsbD_xor, BitVec.getLsbD_and, hmask i hi, Bool.and_true, Bool.xor_self]
  have hshift : (0xFF#32) >>> 8 = 0#32 := by decide
  calc crcTable w
    _ = crcTable ((w &&& 0xFF#32) ^^^ ((w &&& 0xFF#32) ^^^ w)) := by
      rw [← BitVec.xor_assoc, BitVec.xor_self, BitVec.zero_xor]
    _ = crcTable (w &&& 0xFF#32) ^^^ ((w &&& 0xFF#32) ^^^ w) >>> 8 := by
      rw [crcTable_xor, crcTable_eq_iterate (_ ^^^ w), crcRound_iterate_of_low_zero hlow]
    _ = crcTable (w &&& 0xFF#32) ^^^ (w >>> 8) := by
      rw [BitVec.ushiftRight_xor_distrib, BitVec.ushiftRight_and_distrib, hshift, BitVec.and_zero,
        BitVec.zero_xor]

theorem setWidth_byte_ushiftRight (b : Byte) : b.setWidth 32 >>> 8 = 0#32 := by
  refine BitVec.eq_of_getLsbD_eq fun i _ => ?_
  simp [BitVec.getLsbD_of_ge]

/-- The table step is eight rounds on the state with the byte fed in at its low end. -/
theorem crcStep_eq_crcTable (s : Word) (b : Byte) : crcStep s b = crcTable (s ^^^ b.setWidth 32) := by
  rw [crcTable_eq_lookup_xor_shift, BitVec.ushiftRight_xor_distrib, setWidth_byte_ushiftRight,
    BitVec.xor_zero, crcStep]

theorem crcStep_injective_state (b : Byte) : Function.Injective (crcStep · b) := by
  intro s t (h : crcStep s b = crcStep t b)
  rw [crcStep_eq_crcTable, crcStep_eq_crcTable] at h
  exact (BitVec.xor_left_inj _).mp (crcTable_injective h)

theorem crcStep_injective_byte (s : Word) : Function.Injective (crcStep s) := by
  intro b c h
  rw [crcStep_eq_crcTable, crcStep_eq_crcTable] at h
  have hw : b.setWidth 32 = c.setWidth 32 := (BitVec.xor_right_inj s).mp (crcTable_injective h)
  simpa using congrArg (BitVec.setWidth 8) hw

/-! ## The bits of a byte, one by one -/

/-- The fold of `crcBitSerial` over the low `k` bits of a word. -/
def crcFeedBits (k : Nat) (s x : Word) : Word :=
  (List.range k).foldl (fun c i => crcRound (c ^^^ (BitVec.ofBool (x.getLsbD i)).setWidth 32)) s

theorem crcFeedBits_succ (k : Nat) (s x : Word) :
    crcFeedBits (k + 1) s x =
      crcRound (crcFeedBits k s x ^^^ (BitVec.ofBool (x.getLsbD k)).setWidth 32) := by
  rw [crcFeedBits, List.range_succ, List.foldl_append]
  rfl

/-- A bit that meets itself in the low place leaves the bits above it to be shifted down. -/
theorem crcRound_rest (x : Word) (k : Nat) :
    crcRound (x >>> k ^^^ (BitVec.ofBool (x.getLsbD k)).setWidth 32) = x >>> (k + 1) := by
  rw [crcRound_of_lsb_false (by simp)]
  refine BitVec.eq_of_getLsbD_eq fun i _ => ?_
  simp [Nat.add_assoc, Nat.add_comm 1 i]

/-- The word's bits not yet fed in, which stand in the low bits, still have to be taken out. -/
theorem crcFeedBits_eq (k : Nat) (s x : Word) :
    crcFeedBits k s x = crcRound^[k] (s ^^^ x) ^^^ (x >>> k) := by
  induction k with
  | zero =>
    show s = s ^^^ x ^^^ x >>> 0
    rw [BitVec.ushiftRight_zero, BitVec.xor_assoc, BitVec.xor_self, BitVec.xor_zero]
  | succ k ih =>
    calc crcFeedBits (k + 1) s x
      _ = crcRound (crcRound^[k] (s ^^^ x) ^^^ (x >>> k ^^^ (BitVec.ofBool (x.getLsbD k)).setWidth 32)) := by
        rw [crcFeedBits_succ, ih, BitVec.xor_assoc]
      _ = crcRound^[k + 1] (s ^^^ x) ^^^ (x >>> (k + 1)) := by
        rw [crcRound_xor, crcRound_rest, Function.iterate_succ_apply']

theorem crcBitSerial_eq_crcFeedBits (s : Word) (b : Byte) :
    crcBitSerial s b = crcFeedBits 8 s (b.setWidth 32) := by
  refine List.foldl_ext _ _ _ fun c i hi => ?_
  have hi8 := List.mem_range.mp hi
  rw [BitVec.getLsbD_setWidth, decide_eq_true (by omega), Bool.true_and]

/-- Settles O33: feeding the byte in at once or bit by bit is the same, since the rounds are linear. -/
theorem tableStepIsTheBitSerialStep : Obligations.TableStepIsTheBitSerialStep := by
  intro s b
  rw [crcBitSerial_eq_crcFeedBits, crcFeedBits_eq, setWidth_byte_ushiftRight, BitVec.xor_zero,
    crcStep_eq_crcTable, crcTable_eq_iterate]

/-! ## Folding a list (41_crc.md R122) -/

@[simp] theorem crcFold_nil (s : Word) : crcFold s [] = s := rfl

@[simp] theorem crcFold_cons (s : Word) (b : Byte) (l : List Byte) :
    crcFold s (b :: l) = crcFold (crcStep s b) l := rfl

theorem crcFold_append (s : Word) (l m : List Byte) : crcFold s (l ++ m) = crcFold (crcFold s l) m :=
  List.foldl_append

theorem crcFold_injective_state (l : List Byte) : Function.Injective (crcFold · l) := by
  induction l with
  | nil => exact Function.injective_id
  | cons b l ih => exact ih.comp (crcStep_injective_state b)

/-- A byte of the list is determined by the fold and the other bytes. -/
theorem getElem?_of_crcFold_set_eq {s : Word} {l : List Byte} {i : Nat} {b : Byte} (hi : i < l.length)
    (h : crcFold s (l.set i b) = crcFold s l) : l[i]? = some b := by
  induction l generalizing s i with
  | nil => exact absurd hi (Nat.not_lt_zero i)
  | cons x l ih =>
    cases i with
    | zero => exact congrArg some (crcStep_injective_byte s (crcFold_injective_state l h)).symm
    | succ i => exact ih (Nat.lt_of_succ_lt_succ hi) h

/-- Settles O32: the state after the changed byte differs, and the rest of the fold keeps it different. -/
theorem singleByteChangesAreDetected : Obligations.SingleByteChangesAreDetected :=
  fun _ _ _ hi hne h => hne (getElem?_of_crcFold_set_eq hi ((BitVec.xor_left_inj _).mp h))

/-- Settles O28: the equations are those of the fold, and the checksums are evaluated. -/
theorem checksumDefinition : Obligations.ChecksumDefinition :=
  ⟨crcFold_nil, crcFold_cons, fun _ => rfl, rfl,
    by simp [crc32, crcStep, crcTable, crcRound], by simp [crc32, crcStep, crcTable, crcRound]⟩

/-! ## The commands that never compare (41_crc.md R123-R125, R127) -/

/-- The arguments of a form with a byte list pass the framing check of kind L. -/
theorem framed_bytesArgs {p : List Byte} (hp : p.length ≤ maxPayload) :
    framed .l (Asm.bytesArgs p) = true :=
  framed_l.mpr (toNat_ofNat_twenty hp).symm

theorem exec_crcUpdate {s : State} {p : List Byte} (hs : s.halt = false) (hp : p.length ≤ maxPayload) :
    exec (Asm.crcUpdate p) s = .next { s with crc := crcFold s.crc p, resp := some (.ok []) } :=
  command_body (.inl hs) (framed_bytesArgs hp)

/-- Settles O29: each command passes the framing check, and its body writes what is said. -/
theorem crcCommandsAnswer : Obligations.CrcCommandsAnswer :=
  fun _ _ hs hp =>
    ⟨command_body (.inl hs) rfl, exec_crcUpdate hs hp, command_body (.inl hs) rfl,
      command_body (.inl hs) (framed_bytesArgs hp)⟩

/-- One CRC_UPDATE for every piece folds the pieces one after another. -/
theorem runAll_crcUpdate_cons {s : State} (hs : s.halt = false) (p : List Byte) (ps : List (List Byte))
    (hp : ∀ q ∈ p :: ps, q.length ≤ maxPayload) :
    runAll ((p :: ps).map Asm.crcUpdate) s
      = .next { s with crc := crcFold s.crc (p :: ps).flatten, resp := some (.ok []) } := by
  induction ps generalizing s p with
  | nil =>
    have hlast := exec_crcUpdate hs (hp p List.mem_cons_self)
    simp [runAll, hlast]
  | cons q qs ih =>
    have hfirst := exec_crcUpdate hs (hp p List.mem_cons_self)
    have hrest := ih (s := { s with crc := crcFold s.crc p, resp := some (.ok []) }) hs q
      fun r hr => hp r (List.mem_cons_of_mem p hr)
    rw [List.map_cons, runAll, hfirst]
    dsimp only
    rw [hrest, List.flatten_cons (l := p), crcFold_append]

/-- Settles O31: a fold goes on from where another ended, and so do the commands. -/
theorem checksumSplitsAnywhere : Obligations.ChecksumSplitsAnywhere :=
  ⟨crcFold_append, fun _ p ps hs hp => runAll_crcUpdate_cons hs p ps hp⟩

/-! ## CRC_CHECK (41_crc.md R126) -/

/-- Outside the halt CRC_CHECK answers its comparison with the word in its payload. -/
theorem exec_crcCheck {s : State} (v : Word) (hs : s.halt = false) :
    exec (Asm.crcCheck v) s = checkCrcBody s v := by
  have hbody : exec (Asm.crcCheck v) s = checkCrcBody s (word32 (be 4 v.toNat)) :=
    command_body (.inl hs) rfl
  rw [hbody, word32_be]

theorem checkCrcBody_of_eq {s : State} {v : Word} (h : s.crc ^^^ 0xFFFFFFFF#32 = v) :
    checkCrcBody s v = respondOk s (be 4 v.toNat) := by
  subst h
  exact if_pos (beq_self_eq_true _)

theorem checkCrcBody_of_ne {s : State} {v : Word} (h : s.crc ^^^ 0xFFFFFFFF#32 ≠ v) :
    checkCrcBody s v =
      if s.checkCrc then raise { s with crcMismatch := true } .integrity
      else respondOk { s with crcMismatch := true } (be 4 (s.crc ^^^ 0xFFFFFFFF#32).toNat) :=
  if_neg fun heq => h (beq_iff_eq.mp heq)

/-- Settles O30, by the two comparisons of the body: the checksum's and CHECK_CRC. -/
theorem crcCheckComparesAndRecords : Obligations.CrcCheckComparesAndRecords := by
  intro s v hs
  rw [exec_crcCheck v hs]
  refine ⟨fun heq => checkCrcBody_of_eq heq, fun hne (hoff : s.checkCrc = false) => ?_,
    fun hne (hon : s.checkCrc = true) => ?_⟩
  · rw [checkCrcBody_of_ne hne, if_neg (Bool.eq_false_iff.mp hoff)]
    rfl
  · rw [checkCrcBody_of_ne hne, if_pos hon]
    exact raise_of_not_halted .integrity hs

end Sys2Proof.Machine
end

section
/-! PROOFS. The unpacker (42_bitpack.md R140-R147): the samples that stand ahead of it, what its loop takes of
them, and the outcomes of its commands. -/

namespace Sys2Proof.Machine

theorem legalDepth_cases {d : Nat} (h : legalDepth d = true) : subByte d = true ∨ d = 8 ∨ d = 16 := by
  rw [legalDepth_iff] at h
  rw [subByte_iff]
  omega

/-! ## The samples of a byte (42_bitpack.md R141) -/

/-- Below depth 8 the samples fill the byte exactly. -/
theorem depth_mul_samplesPerByte {d : Nat} (h : subByte d = true) : d * (8 / d) = 8 := by
  rw [subByte_iff] at h
  rcases h with rfl | rfl | rfl <;> rfl

theorem samplesPerByte_ne_zero {d : Nat} (h : subByte d = true) : 8 / d ≠ 0 := fun h0 => by
  have := depth_mul_samplesPerByte h
  rw [h0] at this
  omega

@[simp] theorem length_byteSamples (d : Nat) (b : Byte) : (byteSamples d b).length = 8 / d := by
  simp [byteSamples]

/-- The last `r + 1` samples of a byte: the one that UNPK_GET splits off at `rem = r + 1`, and the rest. -/
theorem byteSamples_drop_succ {d r : Nat} (b : Byte) (hd : subByte d = true) (hr : r + 1 ≤ 8 / d) :
    (byteSamples d b).drop (8 / d - (r + 1)) =
      (b.toNat >>> (d * r)) % 2 ^ d :: (byteSamples d b).drop (8 / d - r) := by
  have hshift : 8 - d * (8 / d - r) = d * r := by
    rw [Nat.mul_sub, depth_mul_samplesPerByte hd]
    have := Nat.mul_le_mul_left d (Nat.le_of_succ_le hr)
    rw [depth_mul_samplesPerByte hd] at this
    omega
  have hnext : 8 / d - (r + 1) + 1 = 8 / d - r := by omega
  rw [List.drop_eq_getElem_cons (by rw [length_byteSamples]; omega), hnext]
  simp only [byteSamples, List.getElem_map, List.getElem_range, hnext, hshift, Nat.shiftRight_eq_div_pow]

/-! ## The loop of UNPK_GET below depth 8 -/

/-- The samples an unpacker below depth 8 has still to deliver, in order. -/
def Unpk.ahead (u : Unpk) : List Nat :=
  (byteSamples u.depth u.cur).drop (8 / u.depth - u.rem) ++ u.buf.flatMap (byteSamples u.depth)

/-- The unpacker after it has delivered `n` samples below depth 8 (42_bitpack.md R144, R145). -/
def Unpk.afterGet (u : Unpk) (n : Nat) : Unpk :=
  { u with
    buf := u.buf.drop (u.need n)
    cur := if u.need n = 0 then u.cur else u.buf.getD (u.need n - 1) 0#8
    rem := u.rem + u.need n * (8 / u.depth) - n }

theorem Unpk.nextSample_of_rem {u : Unpk} {r : Nat} (hd : subByte u.depth = true) (hr : u.rem = r + 1) :
    u.nextSample = (u.splitSample, { u with rem := r }) := by
  simp [Unpk.nextSample, hd, hr]

theorem Unpk.nextSample_of_rem_zero {u : Unpk} (hd : subByte u.depth = true) (hr : u.rem = 0) :
    u.nextSample = u.nextByte.nextSample := by
  have hpos : u.nextByte.rem ≠ 0 := samplesPerByte_ne_zero hd
  have hd' : subByte u.nextByte.depth = true := hd
  simp only [Unpk.nextSample, hd, hd', if_true, beq_iff_eq, hr, if_neg hpos]

theorem Unpk.need_of_subByte {u : Unpk} (hd : subByte u.depth = true) (n : Nat) :
    u.need n = ceilDiv (n - min n u.rem) (8 / u.depth) := by
  rw [Unpk.need, if_pos hd]

@[simp] theorem Unpk.need_zero (u : Unpk) : u.need 0 = 0 := by
  unfold Unpk.need
  split
  · rename_i hd
    rw [subByte_iff] at hd
    rcases hd with hd | hd | hd <;> simp [ceilDiv, hd]
  · split <;> rfl

/-- A sample of the byte being split needs no byte of the queue. -/
theorem Unpk.need_of_rem {u : Unpk} {r : Nat} (hd : subByte u.depth = true) (hr : u.rem = r + 1) (n : Nat) :
    u.need (n + 1) = Unpk.need { u with rem := r } n := by
  have hd' : subByte (Unpk.depth { u with rem := r }) = true := hd
  rw [Unpk.need_of_subByte hd, Unpk.need_of_subByte hd', hr, Nat.succ_min_succ, Nat.succ_sub_succ]

/-- With no sample left, the next one needs the byte that is split for it. -/
theorem Unpk.need_of_rem_zero {u : Unpk} (hd : subByte u.depth = true) (hr : u.rem = 0) (n : Nat) :
    u.need (n + 1) = u.nextByte.need (n + 1) + 1 := by
  have hd' : subByte u.nextByte.depth = true := hd
  rw [Unpk.need_of_subByte hd, Unpk.need_of_subByte hd', hr]
  simp only [Unpk.nextByte, ceilDiv]
  rw [subByte_iff] at hd
  rcases hd with hd | hd | hd <;> rw [hd] <;> omega

theorem Unpk.ahead_of_rem {u : Unpk} {r : Nat} (hd : subByte u.depth = true) (hr : u.rem = r + 1)
    (hle : u.rem ≤ 8 / u.depth) : u.ahead = u.splitSample :: Unpk.ahead { u with rem := r } := by
  rw [hr] at hle
  rw [Unpk.ahead, Unpk.ahead, Unpk.splitSample, hr, byteSamples_drop_succ u.cur hd hle]
  rfl

theorem Unpk.ahead_of_rem_zero {u : Unpk} (hr : u.rem = 0) (hb : u.buf ≠ []) :
    u.ahead = u.nextByte.ahead := by
  obtain ⟨b, rest, hb⟩ := List.exists_cons_of_ne_nil hb
  simp [Unpk.ahead, Unpk.nextByte, hr, hb]

theorem Unpk.afterGet_zero (u : Unpk) : u.afterGet 0 = u := by
  simp [Unpk.afterGet]

theorem Unpk.afterGet_of_rem {u : Unpk} {r : Nat} (hd : subByte u.depth = true) (hr : u.rem = r + 1)
    (n : Nat) : u.afterGet (n + 1) = Unpk.afterGet { u with rem := r } n := by
  simp only [Unpk.afterGet, Unpk.need_of_rem hd hr, hr, Nat.add_right_comm r 1, Nat.succ_sub_succ]

theorem Unpk.afterGet_of_rem_zero {u : Unpk} (hd : subByte u.depth = true) (hr : u.rem = 0)
    (hb : u.buf ≠ []) (n : Nat) : u.afterGet (n + 1) = u.nextByte.afterGet (n + 1) := by
  obtain ⟨b, rest, hb⟩ := List.exists_cons_of_ne_nil hb
  have hrem : u.rem + (u.nextByte.need (n + 1) + 1) * (8 / u.depth) - (n + 1) =
      8 / u.depth + u.nextByte.need (n + 1) * (8 / u.depth) - (n + 1) := by
    rw [hr, Nat.succ_mul]
    omega
  simp only [Unpk.afterGet, Unpk.need_of_rem_zero hd hr, hrem]
  cases hk : u.nextByte.need (n + 1) with
  | zero => simp [Unpk.nextByte, hb]
  | succ k => simp [Unpk.nextByte, hb]

/-- The loop of UNPK_GET below depth 8, with enough bytes in the queue: it takes the next samples. -/
theorem Unpk.takeSamples_of_subByte {u : Unpk} {n : Nat} (hd : subByte u.depth = true)
    (hr : u.rem ≤ 8 / u.depth) (hn : u.need n ≤ u.buf.length) :
    u.takeSamples n = (u.ahead.take n, u.afterGet n) := by
  induction n generalizing u with
  | zero => rw [Unpk.afterGet_zero, List.take_zero, Unpk.takeSamples]
  | succ n ih =>
    wlog hrem : ∃ r, u.rem = r + 1 generalizing u
    · have hzero : u.rem = 0 := by_contra fun h => hrem (Nat.exists_eq_succ_of_ne_zero h)
      have hneed := Unpk.need_of_rem_zero hd hzero n
      have hb : u.buf ≠ [] := fun hb => by simp [hb, hneed] at hn
      have hlen : u.nextByte.buf.length = u.buf.length - 1 := List.length_tail
      have hrest := this (u := u.nextByte) hd (Nat.le_refl _) (by omega)
        (Nat.exists_eq_succ_of_ne_zero (samplesPerByte_ne_zero hd))
      rw [Unpk.takeSamples_succ, Unpk.nextSample_of_rem_zero hd hzero, ← Unpk.takeSamples_succ, hrest,
        Unpk.ahead_of_rem_zero hzero hb, Unpk.afterGet_of_rem_zero hd hzero hb]
    · obtain ⟨r, hrem⟩ := hrem
      have htail := ih (u := { u with rem := r }) hd (by dsimp only; omega)
        (Unpk.need_of_rem hd hrem n ▸ hn)
      rw [Unpk.takeSamples_succ, Unpk.nextSample_of_rem hd hrem, htail, Unpk.ahead_of_rem hd hrem hr,
        Unpk.afterGet_of_rem hd hrem, List.take_succ_cons]

/-! ## The loop of UNPK_GET at depths 8 and 16 -/

theorem Unpk.need_of_depth_eight {u : Unpk} (hd : u.depth = 8) (n : Nat) : u.need n = n := by
  simp [Unpk.need, subByte, hd]

theorem Unpk.need_of_depth_sixteen {u : Unpk} (hd : u.depth = 16) (n : Nat) : u.need n = 2 * n := by
  simp [Unpk.need, subByte, hd]

theorem Unpk.takeSamples_of_depth_eight {u : Unpk} {n : Nat} (hd : u.depth = 8) (hn : n ≤ u.buf.length) :
    u.takeSamples n = ((u.buf.take n).map BitVec.toNat, { u with buf := u.buf.drop n }) := by
  induction n generalizing u with
  | zero => rfl
  | succ n ih =>
    match hb : u.buf with
    | [] => simp [hb] at hn
    | b :: rest =>
      have hnext : u.nextSample = (b.toNat, { u with buf := rest }) := by
        simp [Unpk.nextSample, subByte, hd, hb]
      have hrest := ih (u := { u with buf := rest }) hd (by simpa [hb] using hn)
      rw [Unpk.takeSamples_succ, hnext, hrest]
      rfl

theorem Unpk.takeSamples_of_depth_sixteen {u : Unpk} {n : Nat} (hd : u.depth = 16)
    (hn : 2 * n ≤ u.buf.length) :
    u.takeSamples n = (samplesOf (u.buf.take (2 * n)), { u with buf := u.buf.drop (2 * n) }) := by
  induction n generalizing u with
  | zero => rfl
  | succ n ih =>
    match hb : u.buf with
    | [] => simp [hb] at hn
    | [_] =>
      rw [hb, List.length_singleton] at hn
      omega
    | b0 :: b1 :: rest =>
      have hnext : u.nextSample = (unBE [b0, b1], { u with buf := rest }) := by
        simp [Unpk.nextSample, subByte, hd, hb, unBE]
      have hlen : 2 * n ≤ rest.length := by
        rw [hb, List.length_cons, List.length_cons] at hn
        omega
      have hrest := ih (u := { u with buf := rest }) hd hlen
      rw [Unpk.takeSamples_succ, hnext, hrest]
      rfl

/-! ## Samples as response data (30_encoding.md R85) -/

/-- A sample of depth 8 is answered as its byte below a zero byte. -/
theorem sampleBytes_map_toNat (l : List Byte) :
    sampleBytes (l.map BitVec.toNat) = l.flatMap fun b => [0#8, b] := by
  have hbyte (b : Byte) : be 2 b.toNat = [0#8, b] := by
    have hb := b.isLt
    simp [be, Nat.div_eq_of_lt hb]
  simp [sampleBytes, List.flatMap_map, hbyte]

/-- The samples of depth 16 are answered as the bytes they came in. -/
theorem sampleBytes_samplesOf {l : List Byte} (h : l.length % 2 = 0) : sampleBytes (samplesOf l) = l := by
  induction l using samplesOf.induct with
  | case1 b0 b1 rest ih =>
    have hpair : be 2 (unBE [b0, b1]) = [b0, b1] := be_unBE [b0, b1]
    have hrest := ih (by rw [List.length_cons, List.length_cons] at h; omega)
    rw [sampleBytes] at hrest ⊢
    rw [samplesOf, List.flatMap_cons, hpair, hrest]
    rfl
  | case2 => simp at h
  | case3 => rfl

/-! ## UNPK_GET (42_bitpack.md R145) -/

/-- Outside the halt UNPK_GET runs its body, and its ARG is the count of the form. -/
theorem exec_unpkGet {s : State} {n : Nat} (hs : s.halt = false) (hn : n < 2 ^ 20) :
    exec (Asm.unpkGet n) s =
      if !s.unpk.active then raise s .state
      else if s.unpk.need n > s.unpk.buf.length then
        if s.unpk.eos then raise s .truncation else respondWait s
      else respondOk { s with unpk := (s.unpk.takeSamples n).2 } (sampleBytes (s.unpk.takeSamples n).1) := by
  have harg : (Asm.countArgs n).arg.toNat = n := toNat_of_eq_ofNat rfl hn
  refine (command_body (.inl hs) rfl).trans ?_
  rw [harg]

theorem exec_unpkGet_of_inactive {s : State} {n : Nat} (hs : s.halt = false) (hn : n < 2 ^ 20)
    (ha : s.unpk.active = false) : exec (Asm.unpkGet n) s = raise s .state := by
  rw [exec_unpkGet hs hn, ha]
  rfl

/-- With too few bytes in the queue the outcome depends on whether more can come. -/
theorem exec_unpkGet_of_short {s : State} {n : Nat} (hs : s.halt = false) (hn : n < 2 ^ 20)
    (ha : s.unpk.active = true) (hshort : s.unpk.need n > s.unpk.buf.length) :
    exec (Asm.unpkGet n) s = if s.unpk.eos then raise s .truncation else respondWait s := by
  rw [exec_unpkGet hs hn, ha, if_pos hshort]
  rfl

theorem exec_unpkGet_of_enough {s : State} {n : Nat} (hs : s.halt = false) (hn : n < 2 ^ 20)
    (ha : s.unpk.active = true) (henough : s.unpk.need n ≤ s.unpk.buf.length) :
    exec (Asm.unpkGet n) s = .next { s with
      unpk := (s.unpk.takeSamples n).2, resp := some (.ok (sampleBytes (s.unpk.takeSamples n).1)) } := by
  rw [exec_unpkGet hs hn, ha, if_neg (Nat.not_lt.mpr henough)]
  rfl

theorem mem_subByte_iff {d : Nat} : d ∈ [1, 2, 4] ↔ subByte d = true := by
  simp [subByte_iff]

/-- The need of an unpacker at a legal depth, as 42_bitpack.md R144 gives it depth by depth. -/
theorem Unpk.need_eq {u : Unpk} {n need : Nat} (hd : legalDepth u.depth = true)
    (hsub : u.depth ∈ [1, 2, 4] → need = (n - min n u.rem + 8 / u.depth - 1) / (8 / u.depth))
    (hneed8 : u.depth = 8 → need = n) (hneed16 : u.depth = 16 → need = 2 * n) : u.need n = need := by
  obtain h | h | h := legalDepth_cases hd
  · rw [Unpk.need_of_subByte h, hsub (mem_subByte_iff.mpr h), ceilDiv]
  · rw [Unpk.need_of_depth_eight h, hneed8 h]
  · rw [Unpk.need_of_depth_sixteen h, hneed16 h]

/-- The queue's bytes beyond the need are not looked at. -/
theorem Unpk.ahead_take {u : Unpk} {n : Nat} (hd : subByte u.depth = true) (hr : u.rem ≤ 8 / u.depth)
    (hn : u.need n ≤ u.buf.length) :
    u.ahead.take n = ((byteSamples u.depth u.cur).drop (8 / u.depth - u.rem) ++
      (u.buf.take (u.need n)).flatMap (byteSamples u.depth)).take n := by
  have hcount : n ≤ u.rem + u.need n * (8 / u.depth) := by
    rw [Unpk.need_of_subByte hd, ceilDiv]
    rw [subByte_iff] at hd
    rcases hd with hd | hd | hd <;> rw [hd] <;> omega
  have hlen : n ≤ ((byteSamples u.depth u.cur).drop (8 / u.depth - u.rem) ++
      (u.buf.take (u.need n)).flatMap (byteSamples u.depth)).length := by
    have hbytes : ((u.buf.take (u.need n)).flatMap (byteSamples u.depth)).length =
        u.need n * (8 / u.depth) := by simp [List.length_flatMap, hn]
    rw [List.length_append, List.length_drop, length_byteSamples, hbytes]
    omega
  conv_lhs => rw [Unpk.ahead, ← List.take_append_drop (u.need n) u.buf, List.flatMap_append,
    ← List.append_assoc]
  exact List.take_append_of_le_length hlen

/-- Settles O36: the need decides between the three outcomes of an active unpacker, and the loop takes the
samples that stand ahead of it. -/
theorem getConsumesWhatItNeeds : Obligations.GetConsumesWhatItNeeds := by
  rintro s n need ⟨-, -, ⟨-, hdepth, -, -, hrem⟩, -, -⟩ hs hn hsub hneed8 hneed16
  refine ⟨fun ha => ?inactive, fun ha hshort heos => ?truncation, fun ha hshort heos => ?wait,
    fun ha henough => ?_⟩
  case inactive =>
    rw [exec_unpkGet_of_inactive hs hn ha]
    exact raise_of_not_halted .state hs
  all_goals obtain rfl := Unpk.need_eq (hdepth ha) hsub hneed8 hneed16
  case truncation =>
    rw [exec_unpkGet_of_short hs hn ha hshort, if_pos heos]
    exact raise_of_not_halted .truncation hs
  case wait =>
    rw [exec_unpkGet_of_short hs hn ha hshort, heos]
    rfl
  rw [exec_unpkGet_of_enough hs hn ha henough]
  refine ⟨fun d hd h => ?subByte, fun h => ?eight, fun h => ?sixteen⟩
  case subByte =>
    subst h
    have hd := mem_subByte_iff.mp hd
    have hle : s.unpk.rem ≤ 8 / s.unpk.depth :=
      (hrem ((subByte_iff_lt (hdepth ha)).mp hd)).trans (Nat.sub_le _ _)
    rw [Unpk.takeSamples_of_subByte hd hle henough, Unpk.ahead_take hd hle henough]
    rfl
  case eight =>
    rw [Unpk.need_of_depth_eight h] at henough
    rw [Unpk.takeSamples_of_depth_eight h henough, sampleBytes_map_toNat]
  case sixteen =>
    rw [Unpk.need_of_depth_sixteen h] at henough
    rw [Unpk.takeSamples_of_depth_sixteen h henough,
      sampleBytes_samplesOf (by rw [List.length_take]; omega)]

/-- Settles O37: with no sample left of the byte before, the samples of one byte of the queue are taken. -/
theorem samplesComeMostSignificantFirst : Obligations.SamplesComeMostSignificantFirst := by
  intro s b rest hs ha hr
  refine ⟨fun d hd h hb => ?subByte, fun h hb => ?eight, fun b1 h hb => ?sixteen⟩
  case subByte =>
    subst h
    have hd := mem_subByte_iff.mp hd
    have hneed : s.unpk.need (8 / s.unpk.depth) = 1 := by
      rw [Unpk.need_of_subByte hd, hr, ceilDiv]
      rw [subByte_iff] at hd
      rcases hd with hd | hd | hd <;> rw [hd] <;> rfl
    have hn : 8 / s.unpk.depth < 2 ^ 20 := (Nat.div_le_self 8 _).trans_lt (by decide)
    have henough : s.unpk.need (8 / s.unpk.depth) ≤ s.unpk.buf.length := by simp [hneed, hb]
    have hahead : s.unpk.ahead.take (8 / s.unpk.depth) = byteSamples s.unpk.depth b := by
      rw [Unpk.ahead, hr, hb, Nat.sub_zero, List.drop_eq_nil_of_le (length_byteSamples ..).le,
        List.flatMap_cons, List.nil_append]
      exact List.take_left' (length_byteSamples ..)
    rw [exec_unpkGet_of_enough hs hn ha henough, Unpk.takeSamples_of_subByte hd (by simp [hr]) henough,
      hahead, Unpk.afterGet, hneed, hr, hb]
    simp [sampleBytes, byteSamples, List.flatMap_map, Nat.and_two_pow_sub_one_eq_mod,
      Nat.shiftRight_eq_div_pow]
  case eight =>
    have henough : 1 ≤ s.unpk.buf.length := by simp [hb]
    rw [exec_unpkGet_of_enough hs (by decide) ha (by rwa [Unpk.need_of_depth_eight h]),
      Unpk.takeSamples_of_depth_eight h henough, sampleBytes_map_toNat, hb]
    rfl
  case sixteen =>
    have henough : 2 * 1 ≤ s.unpk.buf.length := by simp [hb]
    rw [exec_unpkGet_of_enough hs (by decide) ha (by rwa [Unpk.need_of_depth_sixteen h]),
      Unpk.takeSamples_of_depth_sixteen h henough, sampleBytes_samplesOf (by simp [hb]), hb]
    rfl

/-! ## UNPK_LOAD (42_bitpack.md R143) -/

/-- Outside the halt UNPK_LOAD runs its body. -/
theorem exec_unpkLoad {s : State} {p : List Byte} (last : Bool) (hs : s.halt = false)
    (hp : p.length ≤ maxPayload) :
    exec (.unpkLoad last (Asm.bytesArgs p)) s =
      if !s.unpk.active then raise s .state
      else if s.unpk.eos then raise s .state
      else if s.unpk.buf.length + p.length > s.params.unpkBufBytes then raise s .capacity
      else respondOk { s with unpk := { s.unpk with buf := s.unpk.buf ++ p, eos := last } } [] :=
  command_body (.inl hs) (framed_bytesArgs hp)

theorem exec_unpkLoad_of_overflow {s : State} {p : List Byte} (last : Bool) (hs : s.halt = false)
    (hp : p.length ≤ maxPayload) (ha : s.unpk.active = true) (heos : s.unpk.eos = false)
    (hover : s.unpk.buf.length + p.length > s.params.unpkBufBytes) :
    exec (.unpkLoad last (Asm.bytesArgs p)) s
      = .next { s with halt := true, errcode := 8#4, resp := some (.err .capacity) } := by
  rw [exec_unpkLoad last hs hp, ha, heos, if_pos hover]
  exact raise_of_not_halted .capacity hs

/-- Settles O35, by the three conditions of the body. -/
theorem loadAppendsOrRefuses : Obligations.LoadAppendsOrRefuses := by
  intro s last p hs hp
  refine ⟨fun hclosed => ?_, fun ha heos => ⟨exec_unpkLoad_of_overflow last hs hp ha heos, fun hfits => ?_⟩⟩
  · have hraise : exec (.unpkLoad last (Asm.bytesArgs p)) s = raise s .state := by
      rw [exec_unpkLoad last hs hp]
      rcases hclosed with h | h <;> simp [h]
    rw [hraise]
    exact raise_of_not_halted .state hs
  · rw [exec_unpkLoad last hs hp, ha, heos, if_neg (Nat.not_lt.mpr hfits)]
    rfl

/-- Settles O42: the queue never holds more than its capacity, and a load that fills the need overflows it. -/
theorem oversizedRequestWaitsForEver : Obligations.OversizedRequestWaitsForEver := by
  rintro s n last p ⟨-, -, ⟨-, -, hbuf, -, -⟩, -, -⟩ hs ha heos hn hneed hp
  constructor
  · rw [exec_unpkGet_of_short hs hn ha (by omega), heos]
    rfl
  · intro hload
    exact exec_unpkLoad_of_overflow last hs hp ha heos (by omega)

/-! ## UNPK_ENDLINE and UNPK_END (42_bitpack.md R146, R147) -/

/-- Outside the halt UNPK_ENDLINE runs its body. -/
theorem exec_unpkEndline {s : State} (hs : s.halt = false) :
    exec Asm.unpkEndline s =
      if !s.unpk.active then raise s .state
      else respondOk { s with unpk := { s.unpk with rem := 0 } } [] :=
  command_body (.inl hs) rfl

theorem exec_unpkEndline_of_active {s : State} (hs : s.halt = false) (ha : s.unpk.active = true) :
    exec Asm.unpkEndline s = .next { s with unpk := { s.unpk with rem := 0 }, resp := some (.ok []) } := by
  rw [exec_unpkEndline hs, ha]
  rfl

/-- Outside the halt UNPK_END runs its body. -/
theorem exec_unpkEnd {s : State} (hs : s.halt = false) :
    exec Asm.unpkEnd s =
      if !s.unpk.active then raise s .state
      else if !s.unpk.eos then raise s .state
      else if s.unpk.buf.length > 0 then raise s .trailing
      else
        respondOk { s with
          unpk := { s.unpk with active := false, depth := 0, eos := false, cur := 0#8, rem := 0 } } [] :=
  command_body (.inl hs) rfl

/-- Settles O38, by the conditions of the two bodies. -/
theorem unpackerRowEndAndClose : Obligations.UnpackerRowEndAndClose := by
  intro s hs
  have hstate := raise_of_not_halted .state hs
  refine ⟨fun ha => ⟨?_, ?_⟩, fun ha => ⟨exec_unpkEndline_of_active hs ha, fun heos => ?_,
    fun heos hne => ?_, fun heos hnil => ?_⟩⟩
  · rw [exec_unpkEndline hs, ha]
    exact hstate
  · rw [exec_unpkEnd hs, ha]
    exact hstate
  · rw [exec_unpkEnd hs, ha, heos]
    exact hstate
  · rw [exec_unpkEnd hs, ha, heos, if_pos (List.length_pos_of_ne_nil hne)]
    exact raise_of_not_halted .trailing hs
  · simp [exec_unpkEnd hs, ha, heos, hnil, respondOk, State.answered]

end Sys2Proof.Machine
end

section
/-! PROOFS. The packer (42_bitpack.md R148-R152): a sample list is one number written in digits of the depth,
the packer's bytes spell that number, and the unpacker reads the digits back. -/

namespace Sys2Proof.Machine

/-! ## Samples as the digits of a number -/

/-- The number that the samples spell behind `v`, each `d` bits wide, the first most significant. -/
def samplesValue (d v : Nat) (l : List Nat) : Nat := l.foldl (fun v x => v * 2 ^ d + x) v

@[simp] theorem samplesValue_cons (d v x : Nat) (l : List Nat) :
    samplesValue d v (x :: l) = samplesValue d (v * 2 ^ d + x) l := rfl

theorem samplesValue_append (d v : Nat) (l m : List Nat) :
    samplesValue d v (l ++ m) = samplesValue d (samplesValue d v l) m := List.foldl_append

theorem samplesValue_replicate_zero (d v n : Nat) :
    samplesValue d v (List.replicate n 0) = v * 2 ^ (d * n) := by
  induction n generalizing v with
  | zero => simp [samplesValue]
  | succ n ih => rw [List.replicate_succ, samplesValue_cons, ih, Nat.mul_succ, pow_add]; ring

theorem samplesValue_eq_ofDigits (d : Nat) (l : List Nat) :
    samplesValue d 0 l = Nat.ofDigits (2 ^ d) l.reverse := by
  induction l using List.reverseRecOn with
  | nil => rfl
  | append_singleton l x ih =>
    rw [samplesValue_append, ih, List.reverse_concat, Nat.ofDigits_cons]
    simp [samplesValue, Nat.add_comm, Nat.mul_comm]

/-- Two lists of the same length that spell the same number are the same. -/
theorem eq_of_samplesValue_eq {d : Nat} {l m : List Nat} (hd : d ≠ 0) (hlen : l.length = m.length)
    (hl : ∀ x ∈ l, x < 2 ^ d) (hm : ∀ x ∈ m, x < 2 ^ d) (h : samplesValue d 0 l = samplesValue d 0 m) :
    l = m := by
  rw [samplesValue_eq_ofDigits, samplesValue_eq_ofDigits] at h
  exact List.reverse_injective (Nat.ofDigits_inj_of_len_eq (Nat.one_lt_two_pow hd) (by simpa using hlen)
    (by simpa using hl) (by simpa using hm) h)

/-- The last `r` samples of a byte spell its low `d * r` bits. -/
theorem samplesValue_byteSamples_drop {d r : Nat} (v : Nat) (b : Byte) (hd : subByte d = true)
    (hr : r ≤ 8 / d) :
    samplesValue d v ((byteSamples d b).drop (8 / d - r)) = v * 2 ^ (d * r) + b.toNat % 2 ^ (d * r) := by
  induction r generalizing v with
  | zero =>
    rw [Nat.sub_zero, List.drop_eq_nil_of_le (length_byteSamples ..).le]
    simp [samplesValue, Nat.mod_one]
  | succ r ih =>
    rw [byteSamples_drop_succ b hd hr, samplesValue_cons, ih _ (by omega), Nat.mul_succ, pow_add,
      Nat.mod_mul, Nat.shiftRight_eq_div_pow]
    ring

theorem samplesValue_byteSamples {d : Nat} (v : Nat) (b : Byte) (hd : subByte d = true) :
    samplesValue d v (byteSamples d b) = v * 256 + b.toNat := by
  have h := samplesValue_byteSamples_drop v b hd (Nat.le_refl _)
  rwa [Nat.sub_self, List.drop_zero, depth_mul_samplesPerByte hd, Nat.mod_eq_of_lt b.isLt] at h

/-- The samples of a byte list spell its big-endian value. -/
theorem samplesValue_flatMap_byteSamples {d : Nat} (hd : subByte d = true) (l : List Byte) :
    samplesValue d 0 (l.flatMap (byteSamples d)) = unBE l := by
  rw [samplesValue, List.foldl_flatMap, unBE]
  exact List.foldl_ext _ _ _ fun v b _ => samplesValue_byteSamples v b hd

theorem lt_of_mem_byteSamples {d x : Nat} {b : Byte} (hx : x ∈ byteSamples d b) : x < 2 ^ d := by
  rw [byteSamples, List.mem_map] at hx
  obtain ⟨k, -, rfl⟩ := hx
  exact Nat.mod_lt _ (Nat.two_pow_pos d)

/-! ## The packer's invariant, clause by clause -/

theorem Pack.Inv.legalDepth {k : Pack} (hk : k.Inv) (ha : k.active = true) :
    Machine.legalDepth k.depth = true := by
  obtain ⟨-, hd, -⟩ := hk
  exact hd ha

theorem Pack.Inv.acc_eq_zero {k : Pack} (hk : k.Inv) (hb : k.bits = 0) : k.acc = 0 := by
  obtain ⟨-, -, -, -, hacc⟩ := hk
  rw [hb] at hacc
  exact Nat.lt_one_iff.mp hacc

/-! ## The loop of PACK_PUT (42_bitpack.md R149) -/

/-- A sample that completes the byte emits it. -/
theorem Pack.put_of_full {k : Pack} (x : Nat) (hd : subByte k.depth = true) (hb : k.bits + k.depth = 8) :
    k.put x = ([BitVec.ofNat 8 (k.acc * 2 ^ k.depth + x)], { k with acc := 0, bits := 0 }) := by
  simp [Pack.put, hd, hb]

/-- Any other sample is kept in the accumulator. -/
theorem Pack.put_of_partial {k : Pack} (x : Nat) (hd : subByte k.depth = true)
    (hb : k.bits + k.depth ≠ 8) :
    k.put x = ([], { k with acc := k.acc * 2 ^ k.depth + x, bits := k.bits + k.depth }) := by
  simp [Pack.put, hd, hb]

/-- Behind any bytes emitted before, what a turn emits and keeps spells the old bits followed by the
sample. -/
theorem Pack.put_spells {k : Pack} {x : Nat} (hd : subByte k.depth = true) (hx : x < 2 ^ k.depth)
    (hk : k.Inv) (out : List Byte) :
    8 * (k.put x).1.length + (k.put x).2.bits = k.bits + k.depth ∧
    unBE (out ++ (k.put x).1) * 2 ^ (k.put x).2.bits + (k.put x).2.acc =
      (unBE out * 2 ^ k.bits + k.acc) * 2 ^ k.depth + x := by
  obtain ⟨-, -, -, -, hacc⟩ := hk
  have hshift : (unBE out * 2 ^ k.bits + k.acc) * 2 ^ k.depth + x =
      unBE out * 2 ^ (k.bits + k.depth) + (k.acc * 2 ^ k.depth + x) := by
    rw [pow_add]
    ring
  rw [hshift]
  by_cases hb : k.bits + k.depth = 8
  · have hlt := appendSample_lt hacc hx
    rw [hb] at hlt
    rw [Pack.put_of_full x hd hb, hb, unBE_append, toNat_of_eq_ofNat rfl hlt]
    exact ⟨rfl, by simp⟩
  · rw [Pack.put_of_partial x hd hb, List.append_nil]
    exact ⟨by simp, rfl⟩

/-- The same of the whole loop: the old bits followed by all the samples. -/
theorem Pack.putAll_spells {k : Pack} {l : List Nat} (ha : k.active = true) (hd : subByte k.depth = true)
    (hl : ∀ x ∈ l, x < 2 ^ k.depth) (hk : k.Inv) (out : List Byte) :
    8 * (k.putAll l).1.length + (k.putAll l).2.bits = k.bits + k.depth * l.length ∧
    unBE (out ++ (k.putAll l).1) * 2 ^ (k.putAll l).2.bits + (k.putAll l).2.acc =
      samplesValue k.depth (unBE out * 2 ^ k.bits + k.acc) l := by
  induction l generalizing k out with
  | nil => simp [Pack.putAll, samplesValue]
  | cons x xs ih =>
    have hx : x < 2 ^ k.depth := hl x (by simp)
    obtain ⟨fa, fd⟩ := k.put_frame x
    obtain ⟨hlen, hval⟩ := Pack.put_spells hd hx hk out
    obtain ⟨hlens, hvals⟩ := ih (fa.trans ha) (fd ▸ hd) (fun y hy => fd ▸ hl y (by simp [hy]))
      (Pack.put_inv ha hx hk) (out ++ (k.put x).1)
    rw [fd] at hlens hvals
    rw [Pack.putAll_cons, samplesValue_cons, ← hval, ← hvals, List.append_assoc]
    refine ⟨?_, rfl⟩
    rw [List.length_append, List.length_cons, Nat.mul_succ]
    dsimp only
    omega

/-- The loop changes nothing but the accumulator. -/
theorem Pack.putAll_eq_with (k : Pack) (l : List Nat) :
    (k.putAll l).2 = { k with acc := (k.putAll l).2.acc, bits := (k.putAll l).2.bits } := by
  obtain ⟨ha, hd⟩ := k.putAll_frame l
  rw [← ha, ← hd]

theorem Pack.putAll_of_depth_eight {k : Pack} (hd : k.depth = 8) (l : List Nat) :
    k.putAll l = (l.map (BitVec.ofNat 8), k) := by
  induction l with
  | nil => rfl
  | cons x xs ih =>
    have hput : k.put x = ([BitVec.ofNat 8 x], k) := by simp [Pack.put, subByte, hd]
    rw [Pack.putAll_cons, hput, ih]
    rfl

theorem Pack.putAll_of_depth_sixteen {k : Pack} (hd : k.depth = 16) (l : List Nat) :
    k.putAll l = (sampleBytes l, k) := by
  induction l with
  | nil => rfl
  | cons x xs ih =>
    have hput : k.put x = (be 2 x, k) := by simp [Pack.put, subByte, hd]
    rw [Pack.putAll_cons, hput, ih]
    rfl

/-! ## The bytes of a row (42_bitpack.md R150, R152) -/

theorem Pack.flush_of_empty {k : Pack} (hb : k.bits = 0) : k.flush = [] := by
  simp [Pack.flush, hb]

theorem Pack.flush_of_pending {k : Pack} (hb : k.bits > 0) :
    k.flush = [BitVec.ofNat 8 (k.acc * 2 ^ (8 - k.bits))] := if_pos hb

/-- The padding of the partial byte is a whole number of zero samples, less than a byte of them. -/
theorem Pack.flush_spells {k : Pack} (hd : subByte k.depth = true) (hk : k.Inv) (out : List Byte) :
    ∃ n, k.depth * n < 8 ∧ 8 * k.flush.length = k.bits + k.depth * n ∧
      unBE (out ++ k.flush) = (unBE out * 2 ^ k.bits + k.acc) * 2 ^ (k.depth * n) := by
  obtain ⟨-, -, hsub, -, hacc⟩ := id hk
  rw [subByte_iff] at hd
  obtain ⟨hmod, hlt⟩ := hsub (by omega)
  rcases Nat.eq_zero_or_pos k.bits with hb | hb
  · refine ⟨0, by simp, by simp [Pack.flush_of_empty hb, hb], ?_⟩
    simp [Pack.flush_of_empty hb, hb, hk.acc_eq_zero hb]
  · have hpad : k.depth * ((8 - k.bits) / k.depth) = 8 - k.bits := by
      rcases hd with hd | hd | hd <;> rw [hd] at hmod ⊢ <;> omega
    have hbyte : k.acc * 2 ^ (8 - k.bits) < 2 ^ 8 :=
      calc k.acc * 2 ^ (8 - k.bits) < 2 ^ k.bits * 2 ^ (8 - k.bits) :=
            Nat.mul_lt_mul_of_pos_right hacc (Nat.two_pow_pos _)
        _ = 2 ^ 8 := by rw [← pow_add, Nat.add_sub_cancel' hlt.le]
    refine ⟨(8 - k.bits) / k.depth, by omega, ?_, ?_⟩
    · rw [Pack.flush_of_pending hb, hpad, List.length_singleton]
      omega
    · rw [Pack.flush_of_pending hb, hpad, unBE_append, toNat_of_eq_ofNat rfl hbyte, Nat.add_mul,
        Nat.mul_assoc, ← pow_add, Nat.add_sub_cancel' hlt.le]
      rfl

/-- The bytes of a row: those PACK_PUT emits for its samples and the one PACK_ENDLINE may add. -/
def Pack.rowBytes (k : Pack) (l : List Nat) : List Byte := (k.putAll l).1 ++ (k.putAll l).2.flush

/-- Below depth 8 the bytes of a row hold its samples and less than a byte of zero samples. -/
theorem Pack.rowBytes_of_subByte {k : Pack} {l : List Nat} (ha : k.active = true)
    (hd : subByte k.depth = true) (hl : ∀ x ∈ l, x < 2 ^ k.depth) (hk : k.Inv) (hb : k.bits = 0) :
    ∃ n, k.depth * n < 8 ∧ 8 * (k.rowBytes l).length = k.depth * (l.length + n) ∧
      (k.rowBytes l).flatMap (byteSamples k.depth) = l ++ List.replicate n 0 := by
  obtain ⟨-, hdepth⟩ := k.putAll_frame l
  obtain ⟨hlen, hval⟩ := Pack.putAll_spells ha hd hl hk []
  obtain ⟨n, hn, hflen, hfval⟩ :=
    Pack.flush_spells (hdepth ▸ hd) (Pack.putAll_inv ha hl hk) (k.putAll l).1
  rw [hdepth] at hn hflen hfval
  have hbytes : 8 * (k.rowBytes l).length = k.depth * (l.length + n) := by
    rw [Pack.rowBytes, List.length_append, Nat.mul_add k.depth]
    omega
  have hacc := hk.acc_eq_zero hb
  refine ⟨n, hn, hbytes, eq_of_samplesValue_eq (d := k.depth) ?depth ?count ?bytesFit ?rowFits ?value⟩
  case depth => exact fun h => by simp [h, subByte] at hd
  case count =>
    have hcount : k.depth * ((k.rowBytes l).length * (8 / k.depth)) = k.depth * (l.length + n) := by
      rw [Nat.mul_left_comm, depth_mul_samplesPerByte hd, Nat.mul_comm, hbytes]
    have hpos : 0 < k.depth := by rw [subByte_iff] at hd; omega
    simpa [List.length_flatMap] using Nat.eq_of_mul_eq_mul_left hpos hcount
  case bytesFit =>
    intro x hx
    obtain ⟨b, -, hx⟩ := List.mem_flatMap.mp hx
    exact lt_of_mem_byteSamples hx
  case rowFits =>
    intro x hx
    rcases List.mem_append.mp hx with hx | hx
    · exact hl x hx
    · rw [List.eq_of_mem_replicate hx]
      exact Nat.two_pow_pos _
  case value =>
    rw [samplesValue_flatMap_byteSamples hd, samplesValue_append, samplesValue_replicate_zero, Pack.rowBytes,
      hfval]
    rw [hb, hacc, List.nil_append] at hval
    rw [hval]
    rfl

theorem Pack.rowBytes_of_depth_eight {k : Pack} (hd : k.depth = 8) (hb : k.bits = 0) (l : List Nat) :
    k.rowBytes l = l.map (BitVec.ofNat 8) := by
  rw [Pack.rowBytes, Pack.putAll_of_depth_eight hd, Pack.flush_of_empty hb, List.append_nil]

theorem Pack.rowBytes_of_depth_sixteen {k : Pack} (hd : k.depth = 16) (hb : k.bits = 0) (l : List Nat) :
    k.rowBytes l = sampleBytes l := by
  rw [Pack.rowBytes, Pack.putAll_of_depth_sixteen hd, Pack.flush_of_empty hb, List.append_nil]

/-- A row of `n` samples has `ceil(n * d / 8)` bytes (42_bitpack.md R153). -/
theorem Pack.length_rowBytes {k : Pack} {l : List Nat} (ha : k.active = true)
    (hl : ∀ x ∈ l, x < 2 ^ k.depth) (hk : k.Inv) (hb : k.bits = 0) :
    (k.rowBytes l).length = (l.length * k.depth + 8 - 1) / 8 := by
  obtain h | h | h := legalDepth_cases (hk.legalDepth ha)
  · obtain ⟨n, hn, hlen, -⟩ := Pack.rowBytes_of_subByte ha h hl hk hb
    rw [Nat.mul_add, Nat.mul_comm k.depth] at hlen
    omega
  · rw [Pack.rowBytes_of_depth_eight h hb, List.length_map, h]
    omega
  · rw [Pack.rowBytes_of_depth_sixteen h hb, length_sampleBytes, h]
    omega

/-- An unpacker whose queue is the bytes of a row takes the row's samples, and the queue with them. -/
theorem Unpk.takeSamples_rowBytes {k : Pack} {u : Unpk} {l : List Nat} (ha : k.active = true)
    (hl : ∀ x ∈ l, x < 2 ^ k.depth) (hk : k.Inv) (hb : k.bits = 0) (hd : u.depth = k.depth)
    (hr : u.rem = 0) (hbuf : u.buf = k.rowBytes l) :
    u.need l.length = u.buf.length ∧ (u.takeSamples l.length).1 = l ∧
      (u.takeSamples l.length).2.buf = [] := by
  obtain h | h | h := legalDepth_cases (hk.legalDepth ha)
  · obtain ⟨n, hn, hlen, hsamples⟩ := Pack.rowBytes_of_subByte ha h hl hk hb
    rw [← hbuf, ← hd] at hlen hsamples
    rw [← hd] at h hn
    have hneed : u.need l.length = u.buf.length := by
      rw [Unpk.need_of_subByte h, hr, ceilDiv]
      rw [subByte_iff] at h
      rcases h with h | h | h <;> rw [h] at hn hlen ⊢ <;> omega
    rw [Unpk.takeSamples_of_subByte h (hr.le.trans (Nat.zero_le _)) hneed.le, Unpk.ahead, hsamples, hr,
      Unpk.afterGet, hneed, Nat.sub_zero, List.drop_eq_nil_of_le (length_byteSamples ..).le]
    exact ⟨rfl, List.take_left, List.drop_length⟩
  · have hrow : u.buf = l.map (BitVec.ofNat 8) := hbuf.trans (Pack.rowBytes_of_depth_eight h hb l)
    have hlen : u.buf.length = l.length := by rw [hrow, List.length_map]
    have hback : (l.map (BitVec.ofNat 8)).map BitVec.toNat = l := by
      rw [List.map_map]
      exact (List.map_congr_left fun x hx => toNat_of_eq_ofNat rfl (by simpa [h] using hl x hx)).trans
        (List.map_id l)
    rw [Unpk.need_of_depth_eight (hd.trans h), Unpk.takeSamples_of_depth_eight (hd.trans h) hlen.ge, ← hlen]
    refine ⟨rfl, ?_, List.drop_length⟩
    rw [List.take_length, hrow, hback]
  · have hrow : u.buf = sampleBytes l := hbuf.trans (Pack.rowBytes_of_depth_sixteen h hb l)
    have hlen : u.buf.length = 2 * l.length := by rw [hrow, length_sampleBytes]
    rw [Unpk.need_of_depth_sixteen (hd.trans h), Unpk.takeSamples_of_depth_sixteen (hd.trans h) hlen.ge,
      ← hlen]
    refine ⟨rfl, ?_, List.drop_length⟩
    rw [List.take_length, hrow, samplesOf_sampleBytes l fun x hx => by simpa [h] using hl x hx]

/-! ## PACK_PUT (42_bitpack.md R149) -/

/-- The arguments of a list of samples pass the framing check of kind E. -/
theorem framed_sampleArgs {l : List Nat} (hl : 2 * l.length ≤ maxPayload) :
    framed .e (Asm.bytesArgs (sampleBytes l)) = true := by
  have hlen : (sampleBytes l).length = 2 * l.length := length_sampleBytes l
  have harg : (Asm.bytesArgs (sampleBytes l)).arg.toNat = 2 * l.length := by
    rw [Asm.bytesArgs, hlen]
    exact toNat_ofNat_twenty hl
  rw [framed_e, harg]
  exact ⟨hlen, Nat.mul_mod_right 2 _⟩

/-- Outside the halt PACK_PUT runs its body on the samples of the form. -/
theorem exec_packPut {s : State} {l : List Nat} (hs : s.halt = false) (hlen : 2 * l.length ≤ maxPayload)
    (hl : ∀ x ∈ l, x < 65536) :
    exec (Asm.packPut l) s =
      if !s.pack.active then raise s .state
      else if l.all (fun x => x < 2 ^ s.pack.depth) then
        respondOk { s with pack := (s.pack.putAll l).2 } (s.pack.putAll l).1
      else raise s .range := by
  refine (command_body (o := .packPut) (.inl hs) (framed_sampleArgs hlen)).trans ?_
  have hsamples : samplesOf (Asm.bytesArgs (l.flatMap (be 2))).payload = l := samplesOf_sampleBytes l hl
  rw [hsamples]

theorem exec_packPut_of_fits {s : State} {l : List Nat} (hs : s.halt = false)
    (hlen : 2 * l.length ≤ maxPayload) (hl : ∀ x ∈ l, x < 65536) (ha : s.pack.active = true)
    (hfits : ∀ x ∈ l, x < 2 ^ s.pack.depth) :
    exec (Asm.packPut l) s = .next { s with
      pack := (s.pack.putAll l).2, resp := some (.ok (s.pack.putAll l).1) } := by
  have hall : l.all (fun x => x < 2 ^ s.pack.depth) = true := by simpa using hfits
  rw [exec_packPut hs hlen hl, ha, hall]
  rfl

/-- Settles O39: below depth 8 the packer spells, and at depths 8 and 16 its loop keeps nothing. -/
theorem putPacksOrRefuses : Obligations.PutPacksOrRefuses := by
  rintro s l ⟨-, -, -, hk, -⟩ hs hlen hl
  refine ⟨fun ha => ?inactive, fun ha hwide => ?range, fun ha hfits => ?_⟩
  case inactive =>
    rw [exec_packPut hs hlen hl, ha]
    exact raise_of_not_halted .state hs
  case range =>
    have hall : l.all (fun x => x < 2 ^ s.pack.depth) = false := by simpa using hwide
    rw [exec_packPut hs hlen hl, ha, hall]
    exact raise_of_not_halted .range hs
  rw [exec_packPut_of_fits hs hlen hl ha hfits]
  refine ⟨fun h => ?eight, fun h => ?sixteen, fun h => ?subByte⟩
  case eight => rw [Pack.putAll_of_depth_eight h]
  case sixteen =>
    rw [Pack.putAll_of_depth_sixteen h]
    rfl
  case subByte =>
    have hd : subByte s.pack.depth = true := (subByte_iff_lt (hk.legalDepth ha)).mpr h
    obtain ⟨-, hdepth⟩ := s.pack.putAll_frame l
    obtain ⟨hcount, hval⟩ := Pack.putAll_spells ha hd hfits hk []
    obtain ⟨-, -, hsub, -, hacc⟩ := Pack.putAll_inv ha hfits hk
    refine ⟨(s.pack.putAll l).2.acc, (s.pack.putAll l).2.bits, (s.pack.putAll l).1, ?_,
      (hsub (hdepth ▸ h)).2, hacc, hcount, ?_⟩
    · rw [← Pack.putAll_eq_with]
    · simpa [unBE, samplesValue] using hval

/-! ## PACK_ENDLINE and PACK_END (42_bitpack.md R150, R151) -/

/-- Outside the halt PACK_ENDLINE runs its body. -/
theorem exec_packEndline {s : State} (hs : s.halt = false) :
    exec Asm.packEndline s =
      if !s.pack.active then raise s .state
      else respondOk { s with pack := { s.pack with acc := 0, bits := 0 } } s.pack.flush :=
  command_body (.inl hs) rfl

theorem exec_packEndline_of_active {s : State} (hs : s.halt = false) (ha : s.pack.active = true) :
    exec Asm.packEndline s = .next { s with
      pack := { s.pack with acc := 0, bits := 0 }, resp := some (.ok s.pack.flush) } := by
  rw [exec_packEndline hs, ha]
  rfl

/-- Outside the halt PACK_END runs its body. -/
theorem exec_packEnd {s : State} (hs : s.halt = false) :
    exec Asm.packEnd s =
      if !s.pack.active then raise s .state
      else if s.pack.bits > 0 then raise s .trailing
      else respondOk { s with pack := { s.pack with active := false, depth := 0 } } [] :=
  command_body (.inl hs) rfl

/-- Settles O40, by the conditions of the two bodies. -/
theorem packerRowEndAndClose : Obligations.PackerRowEndAndClose := by
  intro s hs
  have hstate := raise_of_not_halted .state hs
  refine ⟨fun ha => ⟨?_, ?_⟩, fun ha => ⟨fun hb => ⟨?_, ?_⟩, fun hb => ⟨?_, ?_⟩⟩⟩
  · rw [exec_packEndline hs, ha]
    exact hstate
  · rw [exec_packEnd hs, ha]
    exact hstate
  · rw [exec_packEndline_of_active hs ha, Pack.flush_of_pending hb]
  · rw [exec_packEnd hs, ha, if_pos hb]
    exact raise_of_not_halted .trailing hs
  · rw [exec_packEndline_of_active hs ha, Pack.flush_of_empty hb]
  · rw [exec_packEnd hs, ha, if_neg (Nat.not_lt.mpr hb.le)]
    rfl

/-! ## UNPK_START and PACK_START (42_bitpack.md R142, R148) -/

theorem mem_legalDepth_iff {d : Nat} : d ∈ [1, 2, 4, 8, 16] ↔ legalDepth d = true := by
  simp [legalDepth_iff]

/-- Outside the halt UNPK_START runs its body. -/
theorem exec_unpkStart {s : State} (hs : s.halt = false) :
    exec Asm.unpkStart s =
      if legalDepth s.bitDepth then
        respondOk { s with unpk := { Unpk.reset with active := true, depth := s.bitDepth } } []
      else raise s .format :=
  command_body (.inl hs) rfl

/-- Outside the halt PACK_START runs its body. -/
theorem exec_packStart {s : State} (hs : s.halt = false) :
    exec Asm.packStart s =
      if legalDepth s.bitDepth then
        respondOk { s with pack := { active := true, depth := s.bitDepth, acc := 0, bits := 0 } } []
      else raise s .format :=
  command_body (.inl hs) rfl

/-- Settles O34: both bodies check BITDEPTH and nothing else. -/
theorem bitUnitStartsLatchTheDepth : Obligations.BitUnitStartsLatchTheDepth := by
  intro s hs
  rw [mem_legalDepth_iff, exec_unpkStart hs, exec_packStart hs]
  refine ⟨fun hd => ?_, fun hd => ?_⟩
  · rw [if_pos hd, if_pos hd]
    exact ⟨rfl, rfl⟩
  · rw [if_neg hd, if_neg hd]
    exact ⟨raise_of_not_halted .format hs, raise_of_not_halted .format hs⟩

/-! ## Packing and unpacking a row (42_bitpack.md R152) -/

/-- Settles O41: the two answers of the packer are the bytes of the row, and the unpacker takes the row's
samples from them. -/
theorem unpackingUndoesPacking : Obligations.UnpackingUndoesPacking := by
  rintro s d l ⟨-, -, -, hk, -⟩ hs ha rfl hb hl hlen
  have hl16 : ∀ x ∈ l, x < 65536 := fun x hx =>
    (hl x hx).trans_le (Nat.pow_le_pow_right (n := 2) (by decide) (legalDepth_le (hk.legalDepth ha)))
  obtain ⟨hactive, -⟩ := s.pack.putAll_frame l
  have hput := exec_packPut_of_fits hs hlen hl16 ha hl
  have hend := exec_packEndline_of_active
    (s := { s with pack := (s.pack.putAll l).2, resp := some (.ok (s.pack.putAll l).1) })
    hs (hactive.trans ha)
  refine ⟨_, _, _, _, hput, rfl, hend, rfl, Pack.length_rowBytes ha hl hk hb, ?_⟩
  intro u hu hua hud hur hubuf
  obtain ⟨hneed, hsamples, hempty⟩ := Unpk.takeSamples_rowBytes ha hl hk hb hud hur hubuf
  have hn : l.length < 2 ^ 20 := by rw [maxPayload] at hlen; omega
  have hget := exec_unpkGet_of_enough hu hn hua hneed.le
  obtain ⟨huactive, -⟩ := u.unpk.takeSamples_frame l.length
  rw [hsamples] at hget
  exact ⟨_, _, hget, rfl, hempty, exec_unpkEndline_of_active hu (huactive.trans hua), rfl, rfl, hempty⟩

end Sys2Proof.Machine
end

section
/-! PROOFS. The Adam7 geometry (spec/43_adam7.md R170-R177): what a pass dimension counts, the pass every
pixel of the image belongs to, and the outcomes of the A7 commands. -/

namespace Sys2Proof.Machine

/-! ## The pass dimension (43_adam7.md R172) -/

theorem passDim_of_pos (n o : Nat) {k : Nat} (hk : 0 < k) : passDim n o k = (n - o + k - 1) / k := by
  unfold passDim
  split
  · rfl
  · have hlt : n - o + k - 1 < k := by omega
    exact (Nat.div_eq_of_lt hlt).symm

@[simp] theorem passDim_zero_one (n : Nat) : passDim n 0 1 = n := by
  simp [passDim_of_pos]

theorem lt_passDim_iff (n o x : Nat) {k : Nat} (hk : 0 < k) : x < passDim n o k ↔ o + x * k < n := by
  rw [passDim_of_pos n o hk, Nat.lt_iff_add_one_le, Nat.le_div_iff_mul_le hk, Nat.add_one_mul]
  omega

/-- Settles O44, by the characterisation of the coordinates and the bound on the dimension. -/
theorem passDimensionCountsCoordinates : Obligations.PassDimensionCountsCoordinates :=
  fun n o _ x hk => ⟨lt_passDim_iff n o x hk, passDim_le n o hk⟩

/-- The coordinates of stride `k` are those of stride `2 k` from the first one and from the second one. -/
theorem passDim_add_passDim (n o : Nat) {k : Nat} (hk : 0 < k) :
    passDim n o (2 * k) + passDim n (o + k) (2 * k) = passDim n o k := by
  have hk2 : 0 < 2 * k := by omega
  have heven : passDim n o (2 * k) = (passDim n o k + 1) / 2 := by
    refine eq_of_forall_lt_iff fun x => ?_
    have hx : x * 2 * k = x * (2 * k) := Nat.mul_assoc ..
    have hcount := lt_passDim_iff n o (x * 2) hk
    rw [lt_passDim_iff n o x hk2]
    omega
  have hodd : passDim n (o + k) (2 * k) = passDim n o k / 2 := by
    refine eq_of_forall_lt_iff fun x => ?_
    have hx : (x * 2 + 1) * k = x * (2 * k) + k := by ring
    have hcount := lt_passDim_iff n o (x * 2 + 1) hk
    rw [lt_passDim_iff n (o + k) x hk2]
    omega
  omega

/-! ## The pass list as one table (43_adam7.md R170, R171, R173) -/

/-- The starts and strides `(x0, y0, dx, dy)` of the passes: the Adam7 ROM, or the single pass of an image
that is not interlaced. -/
def passTable (interlaced : Bool) : List (Nat × Nat × Nat × Nat) :=
  if interlaced then adam7Table else [(0, 0, 1, 1)]

/-- The geometry of a pass with the given start and strides. -/
def passGeom (w h : Nat) (e : Nat × Nat × Nat × Nat) : PassGeom :=
  { x0 := e.1, y0 := e.2.1, dx := e.2.2.1, dy := e.2.2.2,
    pw := passDim w e.1 e.2.2.1, ph := passDim h e.2.1 e.2.2.2 }

theorem geometryOf_eq_map (w h : Nat) (b : Bool) : geometryOf w h b = (passTable b).map (passGeom w h) := by
  cases b with
  | false => simp [geometryOf, passTable, passGeom]
  | true => rfl

theorem passTable_starts_lt {b : Bool} {e : Nat × Nat × Nat × Nat} (he : e ∈ passTable b) :
    e.1 < e.2.2.1 ∧ e.2.1 < e.2.2.2 := by
  revert b e
  decide

theorem mem_geometryOf_iff {w h : Nat} {b : Bool} {q : PassGeom} :
    q ∈ geometryOf w h b ↔ ∃ e ∈ passTable b, passGeom w h e = q := by
  rw [geometryOf_eq_map, List.mem_map]

theorem getElem?_geometryOf_iff {w h i : Nat} {b : Bool} {q : PassGeom} :
    (geometryOf w h b)[i]? = some q ↔ ∃ e, (passTable b)[i]? = some e ∧ passGeom w h e = q := by
  rw [geometryOf_eq_map, List.getElem?_map, Option.map_eq_some_iff]

/-- A local coordinate is inside its pass exactly if the pixel it maps to is inside the image
(43_adam7.md R172, R177). -/
theorem lt_geometryOf_iff {w h : Nat} {b : Bool} {q : PassGeom} (hq : q ∈ geometryOf w h b) (x y : Nat) :
    (x < q.pw ↔ q.x0 + x * q.dx < w) ∧ (y < q.ph ↔ q.y0 + y * q.dy < h) := by
  obtain ⟨e, he, rfl⟩ := mem_geometryOf_iff.mp hq
  obtain ⟨hx, hy⟩ := passTable_starts_lt he
  exact ⟨lt_passDim_iff w _ x (Nat.zero_lt_of_lt hx), lt_passDim_iff h _ y (Nat.zero_lt_of_lt hy)⟩

/-! ## The pass of a pixel (43_adam7.md R177) -/

/-- A pixel stands on the grid of a pass, which has the pass's starts and strides. -/
abbrev OnGrid (e : Nat × Nat × Nat × Nat) (fx fy : Nat) : Prop :=
  fx % e.2.2.1 = e.1 ∧ fy % e.2.2.2 = e.2.1

/-- In a tile of 8 by 8 pixels each one stands on the grid of one pass and of no other. -/
theorem passTable_tile (b : Bool) : ∀ fx < 8, ∀ fy < 8, ∃ i < (passTable b).length,
    ∀ k (hk : k < (passTable b).length), OnGrid (passTable b)[k] fx fy ↔ k = i := by
  cases b <;> decide

theorem passTable_strides_dvd {b : Bool} {e : Nat × Nat × Nat × Nat} (he : e ∈ passTable b) :
    e.2.2.1 ∣ 8 ∧ e.2.2.2 ∣ 8 := by
  revert b e
  decide

/-- The grids repeat every 8 pixels. -/
theorem onGrid_mod_eight {b : Bool} {e : Nat × Nat × Nat × Nat} (he : e ∈ passTable b) (fx fy : Nat) :
    OnGrid e (fx % 8) (fy % 8) ↔ OnGrid e fx fy := by
  obtain ⟨hx, hy⟩ := passTable_strides_dvd he
  rw [OnGrid, Nat.mod_mod_of_dvd _ hx, Nat.mod_mod_of_dvd _ hy]

/-- Every pixel stands on the grid of one pass and of no other. -/
theorem exists_pass_onGrid_iff (b : Bool) (fx fy : Nat) : ∃ i < (passTable b).length,
    ∀ k e, (passTable b)[k]? = some e → (OnGrid e fx fy ↔ k = i) := by
  obtain ⟨i, hi, htile⟩ :=
    passTable_tile b (fx % 8) (Nat.mod_lt _ (by decide)) (fy % 8) (Nat.mod_lt _ (by decide))
  refine ⟨i, hi, fun k e he => ?_⟩
  obtain ⟨hk, rfl⟩ := List.getElem?_eq_some_iff.mp he
  rw [← htile k hk, onGrid_mod_eight (List.getElem_mem hk)]

/-- Pixel `(x, y)` of a pass maps to pixel `(fx, fy)` of the image (43_adam7.md R177). -/
def PassGeom.MapsTo (q : PassGeom) (x y fx fy : Nat) : Prop :=
  x < q.pw ∧ y < q.ph ∧ q.x0 + x * q.dx = fx ∧ q.y0 + y * q.dy = fy

/-- The pixels of the image on a pass's grid are those a pixel of the pass maps to. -/
theorem passGeom_mapsTo_iff {w h fx fy : Nat} {b : Bool} {e : Nat × Nat × Nat × Nat} (he : e ∈ passTable b)
    (hfx : fx < w) (hfy : fy < h) (x y : Nat) :
    (passGeom w h e).MapsTo x y fx fy ↔ OnGrid e fx fy ∧ x = fx / e.2.2.1 ∧ y = fy / e.2.2.2 := by
  obtain ⟨hx0, hy0⟩ := passTable_starts_lt he
  have hx := Nat.div_mod_unique (a := fx) (c := e.1) (d := x) (Nat.zero_lt_of_lt hx0)
  have hy := Nat.div_mod_unique (a := fy) (c := e.2.1) (d := y) (Nat.zero_lt_of_lt hy0)
  rw [Nat.mul_comm] at hx hy
  constructor
  · rintro ⟨-, -, hmapx, hmapy⟩
    obtain ⟨hdivx, hmodx⟩ := hx.mpr ⟨hmapx, hx0⟩
    obtain ⟨hdivy, hmody⟩ := hy.mpr ⟨hmapy, hy0⟩
    exact ⟨⟨hmodx, hmody⟩, hdivx.symm, hdivy.symm⟩
  · rintro ⟨⟨hmodx, hmody⟩, hdivx, hdivy⟩
    obtain ⟨hmapx, -⟩ := hx.mp ⟨hdivx.symm, hmodx⟩
    obtain ⟨hmapy, -⟩ := hy.mp ⟨hdivy.symm, hmody⟩
    obtain ⟨hpw, hph⟩ := lt_geometryOf_iff (w := w) (h := h) (mem_geometryOf_iff.mpr ⟨e, he, rfl⟩) x y
    exact ⟨hpw.mpr (hmapx.trans_lt hfx), hph.mpr (hmapy.trans_lt hfy), hmapx, hmapy⟩

/-- Every pixel of the image is hit by exactly one pixel of one pass. -/
theorem existsUnique_mapsTo {w h fx fy : Nat} (b : Bool) (hfx : fx < w) (hfy : fy < h) :
    ∃! t : Nat × Nat × Nat, ∃ q, (geometryOf w h b)[t.1]? = some q ∧ q.MapsTo t.2.1 t.2.2 fx fy := by
  obtain ⟨i, hi, hpass⟩ := exists_pass_onGrid_iff b fx fy
  have hget : (passTable b)[i]? = some (passTable b)[i] := List.getElem?_eq_getElem hi
  refine ⟨(i, fx / (passTable b)[i].2.2.1, fy / (passTable b)[i].2.2.2), ?_, ?_⟩
  · have hmaps := (passGeom_mapsTo_iff (List.getElem_mem hi) hfx hfy _ _).mpr
      ⟨(hpass i _ hget).mpr rfl, rfl, rfl⟩
    exact ⟨_, getElem?_geometryOf_iff.mpr ⟨_, hget, rfl⟩, hmaps⟩
  · rintro ⟨k, x, y⟩ ⟨q, hq, hmaps⟩
    obtain ⟨e, he, rfl⟩ := getElem?_geometryOf_iff.mp hq
    obtain ⟨hgrid, rfl, rfl⟩ := (passGeom_mapsTo_iff (List.mem_of_getElem? he) hfx hfy x y).mp hmaps
    obtain rfl := (hpass k e he).mp hgrid
    obtain rfl := Option.some.inj (hget.symm.trans he)
    rfl

/-! ## The canonical-buffer index (43_adam7.md R176) -/

/-- A row-major index names one pixel. -/
theorem rowMajor_inj {w fx fx' fy fy' : Nat} (hfx : fx < w) (hfx' : fx' < w) :
    fy' * w + fx' = fy * w + fx ↔ fx' = fx ∧ fy' = fy := by
  refine ⟨fun h => ?_, fun ⟨hx, hy⟩ => by rw [hx, hy]⟩
  have hx : fx' = fx := by
    simpa [Nat.mul_add_mod', Nat.mod_eq_of_lt hfx, Nat.mod_eq_of_lt hfx'] using congrArg (· % w) h
  subst hx
  exact ⟨rfl, Nat.eq_of_mul_eq_mul_right (Nat.zero_lt_of_lt hfx) (Nat.add_right_cancel h)⟩

/-- Inside its pass a pixel has the index of exactly the pixel it maps to. -/
theorem offset_eq_iff {w h fx fy x y : Nat} {b : Bool} {q : PassGeom} (hq : q ∈ geometryOf w h b)
    (hfx : fx < w) :
    (x < q.pw ∧ y < q.ph ∧ q.offset w x y = 4 * (fy * w + fx)) ↔ q.MapsTo x y fx fy := by
  refine and_congr_right fun hx => and_congr_right fun _ => ?_
  have hinside : q.x0 + x * q.dx < w := (lt_geometryOf_iff hq x y).1.mp hx
  rw [PassGeom.offset, Nat.mul_comm 4, Nat.mul_left_inj (by decide), rowMajor_inj hfx hinside]

/-! ## The pixel counts of the passes (43_adam7.md R177) -/

/-- Two pixel counts that make up the grid of half the horizontal stride. -/
theorem passDim_mul_add_wider (w n : Nat) {k : Nat} (hk : 0 < k) :
    passDim w 0 (2 * k) * n + passDim w k (2 * k) * n = passDim w 0 k * n := by
  rw [← Nat.add_mul, ← passDim_add_passDim w 0 hk, Nat.zero_add]

/-- Two pixel counts that make up the grid of half the vertical stride. -/
theorem passDim_mul_add_higher (n h : Nat) {k : Nat} (hk : 0 < k) :
    n * passDim h 0 (2 * k) + n * passDim h k (2 * k) = n * passDim h 0 k := by
  rw [← Nat.mul_add, ← passDim_add_passDim h 0 hk, Nat.zero_add]

/-- The passes' pixel counts add to the image's: each pass after the first halves a stride of the grid that
the passes before it make up. -/
theorem sum_pixelCounts (w h : Nat) (b : Bool) :
    ((geometryOf w h b).map fun q => q.pw * q.ph).sum = w * h := by
  cases b with
  | false => simp [geometryOf]
  | true =>
    simp only [geometryOf, adam7Table, if_true, List.map_cons, List.map_nil, List.sum_cons, List.sum_nil,
      Nat.add_zero, ← Nat.add_assoc]
    rw [passDim_mul_add_wider w _ (k := 4) (by decide), passDim_mul_add_higher _ h (k := 4) (by decide),
      passDim_mul_add_wider w _ (k := 2) (by decide), passDim_mul_add_higher _ h (k := 2) (by decide),
      passDim_mul_add_wider w _ (k := 1) (by decide), passDim_mul_add_higher _ h (k := 1) (by decide),
      passDim_zero_one, passDim_zero_one]

/-- Settles O46: a pass's pixels are inside the image by the pass dimension, and the grids of the passes
share the pixels of the image out among them. -/
theorem passesPartitionTheImage : Obligations.PassesPartitionTheImage := by
  intro w h b _ _
  refine ⟨fun q hq x y hx hy => ?_, fun fx fy hfx hfy => existsUnique_mapsTo b hfx hfy,
    fun fx fy hfx hfy => ?_, sum_pixelCounts w h b⟩
  · exact ⟨(lt_geometryOf_iff hq x y).1.mp hx, (lt_geometryOf_iff hq x y).2.mp hy⟩
  · refine (existsUnique_congr fun t => exists_congr fun q => and_congr_right fun hq => ?_).mpr
      (existsUnique_mapsTo b hfx hfy)
    exact offset_eq_iff (List.mem_of_getElem? hq) hfx

/-! ## The tables (43_adam7.md R170; 44_filter_decode.md R190-R192) -/

theorem samplesPerPixel_of_unknown {ct : Nat} (h : ct ∉ [0, 2, 3, 4, 6]) : samplesPerPixel ct = none := by
  unfold samplesPerPixel
  split
  iterate 5 exact absurd (by decide) h
  rfl

/-- The depths that each colour type allows. -/
theorem depthAllowed_iff (d : Nat) :
    (depthAllowed 0 d = true ↔ d ∈ [1, 2, 4, 8, 16]) ∧ (depthAllowed 2 d = true ↔ d ∈ [8, 16]) ∧
    (depthAllowed 3 d = true ↔ d ∈ [1, 2, 4, 8]) ∧ (depthAllowed 4 d = true ↔ d ∈ [8, 16]) ∧
    (depthAllowed 6 d = true ↔ d ∈ [8, 16]) := by
  simp [depthAllowed, or_assoc]

/-- Settles O43: the model's tables are the spec's, row by row. -/
theorem geometryAndPixelTables : Obligations.GeometryAndPixelTables :=
  ⟨fun _ _ => ⟨rfl, rfl⟩, ⟨rfl, rfl, rfl, rfl, rfl, fun _ => samplesPerPixel_of_unknown⟩, depthAllowed_iff,
    fun _ => ⟨rfl, rfl, rfl, rfl, rfl⟩⟩

/-! ## The A7 commands (43_adam7.md R173-R176) -/

theorem geometry_of_zero {s : State} (h : s.width = 0#32 ∨ s.height = 0#32) :
    geometry s = .error .format := by
  rcases h with h | h <;> simp [geometry, h]

theorem geometry_of_ne_zero {s : State} (hw : s.width ≠ 0#32) (hh : s.height ≠ 0#32) :
    geometry s = .ok (geometryOf s.width.toNat s.height.toNat s.interlace) := by
  simp [geometry, hw, hh]

theorem passGeometry_of_error {s : State} {p : BitVec 3} {e : ErrCode} (h : geometry s = .error e) :
    passGeometry s p = .error e := by
  rw [passGeometry, h]

theorem passGeometry_of_none {s : State} {p : BitVec 3} {g : List PassGeom} (h : geometry s = .ok g)
    (hp : g[p.toNat]? = none) : passGeometry s p = .error .range := by
  simp only [passGeometry, h, hp]

theorem passGeometry_of_some {s : State} {p : BitVec 3} {g : List PassGeom} {q : PassGeom}
    (h : geometry s = .ok g) (hp : g[p.toNat]? = some q) : passGeometry s p = .ok q := by
  simp only [passGeometry, h, hp]

theorem checkedOffset_of_error {s : State} {p : BitVec 3} {e : ErrCode} (x y : Nat)
    (h : passGeometry s p = .error e) : checkedOffset s p x y = .error e := by
  rw [checkedOffset, h]

/-- In a pass that exists the coordinates are checked, then the 64-bit limit. -/
theorem checkedOffset_of_ok {s : State} {p : BitVec 3} {q : PassGeom} (x y : Nat)
    (h : passGeometry s p = .ok q) :
    checkedOffset s p x y =
      if q.pw ≤ x ∨ q.ph ≤ y then .error .range
      else if 2 ^ 64 ≤ q.offset s.width.toNat x y then .error .range
      else .ok (q.offset s.width.toNat x y) := by
  simp [checkedOffset, h]

theorem checkedOffset_of_outside {s : State} {p : BitVec 3} {q : PassGeom} {x y : Nat}
    (h : passGeometry s p = .ok q) (hxy : q.pw ≤ x ∨ q.ph ≤ y) : checkedOffset s p x y = .error .range := by
  rw [checkedOffset_of_ok x y h, if_pos hxy]

theorem checkedOffset_of_large {s : State} {p : BitVec 3} {q : PassGeom} {x y : Nat}
    (h : passGeometry s p = .ok q) (hlarge : 2 ^ 64 ≤ q.offset s.width.toNat x y) :
    checkedOffset s p x y = .error .range := by
  rw [checkedOffset_of_ok x y h, if_pos hlarge, ite_self]

theorem checkedOffset_of_fits {s : State} {p : BitVec 3} {q : PassGeom} {x y : Nat}
    (h : passGeometry s p = .ok q) (hx : x < q.pw) (hy : y < q.ph)
    (hfits : q.offset s.width.toNat x y < 2 ^ 64) :
    checkedOffset s p x y = .ok (q.offset s.width.toNat x y) := by
  rw [checkedOffset_of_ok x y h, if_neg (not_or.mpr ⟨hx.not_ge, hy.not_ge⟩), if_neg hfits.not_ge]

/-- Outside the halt A7_PASSES runs its body. -/
theorem exec_a7Passes {s : State} (hs : s.halt = false) :
    exec Asm.a7Passes s =
      orRaise s (geometry s) fun g => respondOk s (g.flatMap fun q => be 4 q.pw ++ be 4 q.ph) :=
  command_body (.inl hs) rfl

/-- Outside the halt A7_PASSINFO runs its body, the starts and strides a byte each. -/
theorem exec_a7Passinfo {s : State} (p : BitVec 3) (hs : s.halt = false) :
    exec (Asm.a7Passinfo p) s =
      orRaise s (passGeometry s p) fun q =>
        respondOk s ([BitVec.ofNat 8 q.x0, BitVec.ofNat 8 q.y0, BitVec.ofNat 8 q.dx, BitVec.ofNat 8 q.dy] ++
          be 4 q.pw ++ be 4 q.ph) :=
  command_body (.inl hs) rfl

/-- Outside the halt A7_OFFSET runs its body on the coordinates in its payload. -/
theorem exec_a7Offset {s : State} (p : BitVec 3) (x y : Word) (hs : s.halt = false) :
    exec (Asm.a7Offset p x y) s =
      orRaise s (checkedOffset s p x.toNat y.toNat) fun off => respondOk s (be 8 off) := by
  refine (command_body (o := .a7Offset) (.inl hs) rfl).trans ?_
  have hx : unBE ((be 4 x.toNat ++ be 4 y.toNat).take 4) = x.toNat := unBE_be 4 _ x.isLt
  have hy : unBE ((be 4 x.toNat ++ be 4 y.toNat).drop 4) = y.toNat := unBE_be 4 _ y.isLt
  rw [Asm.bytesArgs, hx, hy]

/-- Settles O45: the outcomes of the three bodies, check by check. -/
theorem geometryCommandsAnswer : Obligations.GeometryCommandsAnswer := by
  intro s p x y hs
  rw [exec_a7Passes hs, exec_a7Passinfo p hs, exec_a7Offset p x y hs]
  refine ⟨fun hzero => ?_, fun hw hh => ?_⟩
  · have hg := geometry_of_zero hzero
    have hp := passGeometry_of_error (p := p) hg
    rw [hg, hp, checkedOffset_of_error _ _ hp]
    exact ⟨raise_of_not_halted .format hs, raise_of_not_halted .format hs, raise_of_not_halted .format hs⟩
  · have hg := geometry_of_ne_zero hw hh
    have hrange := raise_of_not_halted .range hs
    refine ⟨by rw [hg]; rfl, fun hnone => ?_, fun q hq => ?_⟩
    · have hp := passGeometry_of_none hg hnone
      rw [hp, checkedOffset_of_error _ _ hp]
      exact ⟨hrange, hrange⟩
    · have hp := passGeometry_of_some hg hq
      refine ⟨by rw [hp]; rfl, fun hout => ?_, fun hx hy => ⟨fun hlarge => ?_, fun hfits => ?_⟩⟩
      · rw [checkedOffset_of_outside hp hout]
        exact hrange
      · rw [checkedOffset_of_large hp hlarge]
        exact hrange
      · rw [checkedOffset_of_fits hp hx hy hfits]
        rfl

end Sys2Proof.Machine
end

section
/-! PROOFS. The filter unit and its decode commands (spec/44_filter_decode.md R190-R203): what a session
start latches, the predictors, the decode loop and its inverse, and the advance through the pass list. -/

namespace Sys2Proof.Machine

/-! ## The pass list (44_filter_decode.md R195) -/

theorem rowPasses_cons_of_pos {k : Nat} {q : PassGeom} {g : List PassGeom} (hw : 0 < q.pw) (hh : 0 < q.ph) :
    rowPasses k (q :: g) = ⟨k, q.pw, q.ph⟩ :: rowPasses (k + 1) g := by
  simp [rowPasses, hw, hh]

theorem rowPasses_cons_of_empty {k : Nat} {q : PassGeom} {g : List PassGeom} (h : ¬ (0 < q.pw ∧ 0 < q.ph)) :
    rowPasses k (q :: g) = rowPasses (k + 1) g := by
  rw [rowPasses, if_neg]
  simpa using h

/-- The passes that have rows, each under its number in the geometry. -/
theorem rowPasses_eq_filterMap (k : Nat) (g : List PassGeom) :
    rowPasses k g = (g.zipIdx k).filterMap fun x =>
      if 0 < x.1.pw ∧ 0 < x.1.ph then some ⟨x.2, x.1.pw, x.1.ph⟩ else none := by
  induction g generalizing k with
  | nil => rfl
  | cons q g ih =>
    by_cases hq : 0 < q.pw ∧ 0 < q.ph
    · simp [rowPasses_cons_of_pos hq.1 hq.2, ih, hq]
    · simp [rowPasses_cons_of_empty hq, ih, hq]

theorem exists_mem_rowPasses {g : List PassGeom} {q : PassGeom} (hq : q ∈ g) (hw : 0 < q.pw) (hh : 0 < q.ph) :
    ∃ r ∈ rowPasses 0 g, r.pw = q.pw := by
  obtain ⟨i, hi⟩ := List.mem_iff_getElem?.mp hq
  rw [rowPasses_eq_filterMap]
  exact ⟨⟨i, q.pw, q.ph⟩, List.mem_filterMap.mpr
    ⟨(q, i), List.mk_mem_zipIdx_iff_getElem?.mpr hi, if_pos ⟨hw, hh⟩⟩, rfl⟩

/-- Pass 0 of an image without a zero dimension has rows, so a session starts in it (43_adam7.md R177). -/
theorem rowPasses_geometryOf_eq_cons {w h : Nat} (b : Bool) (hw : 0 < w) (hh : 0 < h) :
    ∃ q rest, rowPasses 0 (geometryOf w h b) = q :: rest ∧ q.idx = 0 := by
  have hpos : ∀ {n : Nat}, 0 < n → 0 < passDim n 0 8 := fun hn =>
    (lt_passDim_iff _ 0 0 (by decide)).mpr (by omega)
  cases b with
  | false => exact ⟨_, _, rowPasses_cons_of_pos hw hh, rfl⟩
  | true => exact ⟨_, _, rowPasses_cons_of_pos (hpos hw) (hpos hh), rfl⟩

/-! ## Set-up (44_filter_decode.md R194) -/

/-- The checks of the size, the colour type and the depth, which all raise FORMAT. -/
theorem setup_of_bad_format {s : State}
    (h : s.width = 0#32 ∨ s.height = 0#32 ∨ samplesPerPixel s.colorType = none ∨
      depthAllowed s.colorType s.bitDepth = false) : setup s = .error .format := by
  by_cases hz : s.width = 0#32 ∨ s.height = 0#32
  · rw [setup, geometry_of_zero hz]
  · obtain ⟨hw, hh⟩ := not_or.mp hz
    have hg := geometry_of_ne_zero hw hh
    obtain h | h | hnone | hdepth := h
    · exact absurd h hw
    · exact absurd h hh
    · simp only [setup, hg, hnone]
    · cases hspp : samplesPerPixel s.colorType with
      | none => simp only [setup, hg, hspp]
      | some bpp => simp [setup, hg, hspp, hdepth]

theorem passList_eq_ite (s : State) (g : List PassGeom) (bpp d : Nat) :
    passList s g bpp d =
      if ∀ q ∈ rowPasses 0 g, byteWidth bpp d q.pw ≤ s.params.maxRowBytes then .ok (rowPasses 0 g)
      else .error .capacity := by
  simp only [passList, List.all_eq_true, decide_eq_true_eq]

/-- After the format checks the widest row decides. -/
theorem setup_of_good_format {s : State} {bpp : Nat} (hw : s.width ≠ 0#32) (hh : s.height ≠ 0#32)
    (hspp : samplesPerPixel s.colorType = some bpp) (hd : depthAllowed s.colorType s.bitDepth = true) :
    setup s =
      if ∀ q ∈ rowPasses 0 (geometryOf s.width.toNat s.height.toNat s.interlace),
          byteWidth bpp s.bitDepth q.pw ≤ s.params.maxRowBytes then
        .ok { passes := rowPasses 0 (geometryOf s.width.toNat s.height.toNat s.interlace), bpp := bpp,
              depth := s.bitDepth, stride := strideOf bpp s.bitDepth }
      else .error .capacity := by
  simp only [setup, geometry_of_ne_zero hw hh, hspp, hd, if_true, passList_eq_ite]
  split_ifs <;> rfl

/-! ## The session starts (44_filter_decode.md R200, 45_filter_encode.md R220) -/

theorem legalFiltSel_iff {sel : BitVec 4} : legalFiltSel sel = true ↔ sel.toNat ≤ 4 ∨ sel = 15#4 := by
  simp [legalFiltSel]

theorem legalFiltSel_of_reserved {sel : BitVec 4} (h : 4 < sel.toNat ∧ sel.toNat < 15) :
    legalFiltSel sel = false := by
  refine Bool.eq_false_iff.mpr fun hlegal => ?_
  rcases legalFiltSel_iff.mp hlegal with hle | rfl
  · omega
  · exact absurd h (by decide)

/-- Outside the halt FDEC_START latches what the set-up answers. -/
theorem exec_fdecStart {s : State} (hs : s.halt = false) :
    exec Asm.fdecStart s =
      orRaise s (setup s) fun c => respondOk { s with filt := s.filt.startSession c 15#4 .decode } [] :=
  command_body (.inl hs) rfl

/-- Outside the halt FENC_START checks the interlace bit and FILTSEL before the set-up. -/
theorem exec_fencStart {s : State} (hs : s.halt = false) :
    exec Asm.fencStart s =
      if s.interlace then raise s .format
      else if legalFiltSel s.filtSel then
        orRaise s (setup s) fun c => respondOk { s with filt := s.filt.startSession c s.filtSel .encode } []
      else raise s .format :=
  command_body (.inl hs) rfl

theorem exec_fencStart_of_accepted {s : State} (hs : s.halt = false) (hi : s.interlace = false)
    (hsel : s.filtSel.toNat ≤ 4 ∨ s.filtSel = 15#4) :
    exec Asm.fencStart s =
      orRaise s (setup s) fun c => respondOk { s with filt := s.filt.startSession c s.filtSel .encode } [] := by
  rw [exec_fencStart hs, if_neg (Bool.eq_false_iff.mp hi), if_pos (legalFiltSel_iff.mpr hsel)]

theorem exec_fencStart_of_refused {s : State} (hs : s.halt = false)
    (h : s.interlace = true ∨ legalFiltSel s.filtSel = false) : exec Asm.fencStart s = raise s .format := by
  rw [exec_fencStart hs]
  rcases h with h | h
  · exact if_pos h
  · rw [if_neg (Bool.eq_false_iff.mp h), ite_self]

/-- Settles O47: the set-up accepts, and a start latches what it answers and enters the first pass. -/
theorem filterStartsLatchTheSession : Obligations.FilterStartsLatchTheSession := by
  intro s bpp l hs hw hh hspp hd hl hfits
  obtain rfl : l = rowPasses 0 (geometryOf s.width.toNat s.height.toNat s.interlace) :=
    hl.trans (rowPasses_eq_filterMap 0 _).symm
  have hset := (setup_of_good_format hw hh hspp hd).trans (if_pos hfits)
  have hpw := BitVec.toNat_pos_of_ne_zero hw
  have hph := BitVec.toNat_pos_of_ne_zero hh
  obtain ⟨q, rest, hq, hidx⟩ := rowPasses_geometryOf_eq_cons s.interlace hpw hph
  refine ⟨⟨q, rest, hq, hidx, ?_⟩, fun hi hsel => ?_⟩
  · rw [exec_fdecStart hs, hset, hq]
    rfl
  · have hone : rowPasses 0 (geometryOf s.width.toNat s.height.toNat s.interlace)
        = [⟨0, s.width.toNat, s.height.toNat⟩] := by
      rw [hi]
      exact rowPasses_cons_of_pos hpw hph
    rw [exec_fencStart_of_accepted hs hi hsel, hset, hone]
    rfl

/-- Settles O48, by the outcomes of the set-up and the two checks of FENC_START in front of it. -/
theorem filterStartsRefuse : Obligations.FilterStartsRefuse := by
  intro s hs
  have hformat := raise_of_not_halted .format hs
  refine ⟨fun hbad => ?_, fun href => ?_, fun bpp hw hh hspp hd ⟨g, hg, hgw, hgh, hwide⟩ => ?_⟩
  · have hset := setup_of_bad_format hbad
    rw [exec_fdecStart hs, exec_fencStart hs, hset, orRaise_error, orRaise_error, ite_self, ite_self]
    exact ⟨hformat, hformat⟩
  · exact (exec_fencStart_of_refused hs (href.imp_right legalFiltSel_of_reserved)).trans hformat
  · obtain ⟨q, hq, hqw⟩ := exists_mem_rowPasses hg hgw hgh
    have hset := (setup_of_good_format hw hh hspp hd).trans
      (if_neg fun hfits => (hfits q hq).not_gt (hqw ▸ hwide))
    have hcap := raise_of_not_halted .capacity hs
    refine ⟨?_, fun hi hsel => ?_⟩
    · rw [exec_fdecStart hs, hset]
      exact hcap
    · rw [exec_fencStart_of_accepted hs hi hsel, hset]
      exact hcap

/-! ## The predictors (44_filter_decode.md R197-R199) -/

/-- The distances the predictor compares are absolute values of the exact differences. -/
theorem paeth_eq_ite {a b c : Byte} {p : Int} (hp : p = (a.toNat : Int) + b.toNat - c.toNat) :
    paeth a b c =
      if |p - a.toNat| ≤ |p - b.toNat| ∧ |p - a.toNat| ≤ |p - c.toNat| then a
      else if |p - b.toNat| ≤ |p - c.toNat| then b else c := by
  subst hp
  simp only [paeth, Bool.and_eq_true, decide_eq_true_eq, Int.natAbs_le_iff_sq_le, sq_le_sq]

/-- Outside the halt FILT_PAETH answers the predictor of its three bytes. -/
theorem exec_filtPaeth {s : State} (a b c : Byte) (hs : s.halt = false) :
    exec (Asm.filtPaeth a b c) s = .next { s with resp := some (.ok [paeth a b c]) } :=
  command_body (.inl hs) rfl

/-- Settles O53, by the two comparisons that pick the byte. -/
theorem paethPicksTheNearest : Obligations.PaethPicksTheNearest := by
  refine fun s a b c hs => ⟨paeth a b c, exec_filtPaeth a b c hs, fun p hp => ?_⟩
  rw [paeth_eq_ite hp]
  by_cases ha : |p - a.toNat| ≤ |p - b.toNat| ∧ |p - a.toNat| ≤ |p - c.toNat|
  · rw [if_pos ha]
    exact ⟨fun _ _ => rfl, fun hn => absurd ha hn, le_rfl, ha.1, ha.2⟩
  · rw [if_neg ha]
    by_cases hb : |p - b.toNat| ≤ |p - c.toNat|
    · rw [if_pos hb]
      refine ⟨fun h1 h2 => absurd ⟨h1, h2⟩ ha, fun _ => ⟨fun _ => rfl, fun hc => absurd hb hc.not_ge⟩,
        ?_, le_rfl, hb⟩
      omega
    · rw [if_neg hb]
      refine ⟨fun h1 h2 => absurd ⟨h1, h2⟩ ha, fun _ => ⟨fun h => absurd h hb, fun _ => rfl⟩, ?_, ?_, le_rfl⟩
      · omega
      · omega

/-- The Average predictor halves the exact sum (44_filter_decode.md R199). -/
theorem toNat_pred_average (a b c : Byte) : (pred .average a b c).toNat = (a.toNat + b.toNat) / 2 := by
  have := a.isLt
  have := b.isLt
  exact toNat_of_eq_ofNat rfl (by omega)

/-- The neighbours of a position, each 0 where there is none (44_filter_decode.md R197). -/
theorem Filt.predict_eq (f : Filt) (t : FilterType) (row : List Byte) (x : Nat) :
    f.predict t row x = pred t
      (if f.stride ≤ x then row.getD (x - f.stride) 0#8 else 0#8)
      (if f.hasPrev then f.prev.getD x 0#8 else 0#8)
      (if f.hasPrev ∧ f.stride ≤ x then f.prev.getD (x - f.stride) 0#8 else 0#8) := by
  simp only [Filt.predict, leftByte, Filt.up, Filt.upLeft, ge_iff_le, ite_and]

/-- The left neighbour of a position is one of the bytes before it. -/
theorem Filt.predict_append {f : Filt} (hs : 0 < f.stride) (t : FilterType) (out l : List Byte) :
    f.predict t (out ++ l) out.length = f.predict t out out.length := by
  have hleft : leftByte (out ++ l) f.stride out.length = leftByte out f.stride out.length := by
    by_cases hx : out.length ≥ f.stride
    · rw [leftByte, leftByte, if_pos hx, if_pos hx, List.getD_append _ _ _ _ (by omega)]
    · rw [leftByte, leftByte, if_neg hx, if_neg hx]
  rw [Filt.predict, Filt.predict, hleft]

/-! ## The decode loop (44_filter_decode.md R201) -/

/-- The loop appends to the row built so far. -/
theorem Filt.unfilterFrom_eq_append (f : Filt) (t : FilterType) (out raw : List Byte) :
    ∃ l, f.unfilterFrom t out raw = out ++ l := by
  induction raw generalizing out with
  | nil => exact ⟨[], (List.append_nil out).symm⟩
  | cons r raw ih =>
    obtain ⟨l, hl⟩ := ih (out ++ [r + f.predict t out out.length])
    exact ⟨_, hl.trans (List.append_assoc ..)⟩

/-- Every byte the loop appends is the raw byte plus the predictor of its neighbours in the whole row. -/
theorem Filt.getElem?_unfilterFrom {f : Filt} (hs : 0 < f.stride) (t : FilterType) (out raw : List Byte)
    {i : Nat} (hi : i < raw.length) :
    (f.unfilterFrom t out raw)[out.length + i]? =
      some (raw.getD i 0#8 + f.predict t (f.unfilterFrom t out raw) (out.length + i)) := by
  induction raw generalizing out i with
  | nil => cases hi
  | cons r raw ih =>
    rw [Filt.unfilterFrom]
    cases i with
    | zero =>
      obtain ⟨l, hl⟩ := f.unfilterFrom_eq_append t (out ++ [r + f.predict t out out.length]) raw
      rw [hl, List.append_assoc, Nat.add_zero, f.predict_append hs]
      simp
    | succ i =>
      have hbyte := ih (out ++ [r + f.predict t out out.length]) (Nat.lt_of_succ_lt_succ hi)
      have hpos : (out ++ [r + f.predict t out out.length]).length + i = out.length + (i + 1) := by
        rw [List.length_append, List.length_singleton, Nat.add_assoc, Nat.add_comm 1]
      rw [hpos] at hbyte
      rw [hbyte, List.getD_cons_succ]

/-- Decoding undoes encoding from any place in the row, for two sessions that predict alike. -/
theorem Filt.unfilterFrom_filterFrom {f g : Filt} {t : FilterType} (hs : 0 < f.stride)
    (hfg : g.predict t = f.predict t) (out rest : List Byte) :
    f.unfilterFrom t out (g.filterFrom t (out ++ rest) out.length rest) = out ++ rest := by
  induction rest generalizing out with
  | nil => exact (List.append_nil out).symm
  | cons r rest ih =>
    have hrest := ih (out ++ [r])
    rw [List.append_assoc, List.length_append] at hrest
    rw [Filt.filterFrom, Filt.unfilterFrom, hfg, f.predict_append hs, BitVec.sub_add_cancel]
    exact hrest

theorem Filt.unfilter_filtered {f g : Filt} {t : FilterType} (hs : 0 < f.stride)
    (hfg : g.predict t = f.predict t) (row : List Byte) : f.unfilter t (g.filtered t row) = row :=
  Filt.unfilterFrom_filterFrom hs hfg [] row

/-! ## FDEC_ROW and FENC_ROW (44_filter_decode.md R201, 45_filter_encode.md R224) -/

theorem exec_fdecRow_outside {s : State} {p : List Byte} (hs : s.halt = false) (hp : p.length ≤ maxPayload)
    (hm : s.filt.mode = .idle ∨ s.filt.mode = .encode) :
    exec (.fdecRow (Asm.bytesArgs p)) s = raise s .state := by
  refine (command_body (o := .fdecRow) (.inl hs) (framed_bytesArgs hp)).trans ?_
  rcases hm with hm | hm <;> rw [hm]

theorem exec_fdecRow_of_done {s : State} {p : List Byte} (hs : s.halt = false) (hp : p.length ≤ maxPayload)
    (hm : s.filt.mode = .done) : exec (.fdecRow (Asm.bytesArgs p)) s = raise s .trailing := by
  refine (command_body (o := .fdecRow) (.inl hs) (framed_bytesArgs hp)).trans ?_
  rw [hm]

/-- In a decode session the length of the row decides first. -/
theorem exec_fdecRow_of_decode {s : State} {p : List Byte} (hs : s.halt = false) (hp : p.length ≤ maxPayload)
    (hm : s.filt.mode = .decode) :
    exec (.fdecRow (Asm.bytesArgs p)) s =
      if p.length = s.filt.bw + 1 then decodeRow s p else raise s .length := by
  refine (command_body (o := .fdecRow) (.inl hs) (framed_bytesArgs hp)).trans ?_
  simp only [hm, Asm.bytesArgs, toNat_ofNat_twenty hp, beq_iff_eq]

theorem exec_fencRow_outside {s : State} {p : List Byte} (hs : s.halt = false) (hp : p.length ≤ maxPayload)
    (hm : s.filt.mode = .idle ∨ s.filt.mode = .decode) : exec (Asm.fencRow p) s = raise s .state := by
  refine (command_body (o := .fencRow) (.inl hs) (framed_bytesArgs hp)).trans ?_
  rcases hm with hm | hm <;> rw [hm]

theorem exec_fencRow_of_done {s : State} {p : List Byte} (hs : s.halt = false) (hp : p.length ≤ maxPayload)
    (hm : s.filt.mode = .done) : exec (Asm.fencRow p) s = raise s .trailing := by
  refine (command_body (o := .fencRow) (.inl hs) (framed_bytesArgs hp)).trans ?_
  rw [hm]

/-- In an encode session the length of the row decides. -/
theorem exec_fencRow_of_encode {s : State} {p : List Byte} (hs : s.halt = false) (hp : p.length ≤ maxPayload)
    (hm : s.filt.mode = .encode) :
    exec (Asm.fencRow p) s = if p.length = s.filt.bw then encodeRow s p else raise s .length := by
  refine (command_body (o := .fencRow) (.inl hs) (framed_bytesArgs hp)).trans ?_
  simp only [hm, Asm.bytesArgs, toNat_ofNat_twenty hp, beq_iff_eq]

theorem FilterType.ofTag?_of_gt {tag : Byte} (h : 4 < tag.toNat) : FilterType.ofTag? tag = Option.none := by
  have hle : ∀ t : FilterType, t.tag.toNat ≤ 4 := fun t => by cases t <;> decide
  rw [Option.eq_none_iff_forall_ne_some]
  intro t ht
  exact h.not_ge (FilterType.ofTag?_some ht ▸ hle t)

theorem decodeRow_of_bad_tag {s : State} {tag : Byte} (raw : List Byte) (h : 4 < tag.toNat) :
    decodeRow s (tag :: raw) = raise s .format := by
  simp only [decodeRow, FilterType.ofTag?_of_gt h]

theorem decodeRow_tag (s : State) (t : FilterType) (raw : List Byte) :
    decodeRow s (t.tag :: raw) =
      .next { s with filt := s.filt.advance (s.filt.unfilter t raw),
                     resp := some (.ok (s.filt.unfilter t raw)) } := by
  simp only [decodeRow, FilterType.ofTag?_tag]
  rfl

/-- Settles O51: the mode decides first, then the length, then the tag. -/
theorem rowCommandsRefuse : Obligations.RowCommandsRefuse := by
  intro s p hs hp
  have herr := fun e => raise_of_not_halted (s := s) e hs
  refine ⟨fun hm => ?_, fun hm => ?_, fun hm => ⟨?_, ?_⟩, fun hm hlen => ?_, fun hm hlen => ?_,
    fun tag raw hm htag hlen hgt => ?_⟩
  · exact (exec_fdecRow_outside hs hp hm).trans (herr .state)
  · exact (exec_fencRow_outside hs hp hm).trans (herr .state)
  · exact (exec_fdecRow_of_done hs hp hm).trans (herr .trailing)
  · exact (exec_fencRow_of_done hs hp hm).trans (herr .trailing)
  · rw [exec_fdecRow_of_decode hs hp hm, if_neg hlen]
    exact herr .length
  · rw [exec_fencRow_of_encode hs hp hm, if_neg hlen]
    exact herr .length
  · rw [exec_fdecRow_of_decode hs hp hm, if_pos hlen, htag, decodeRow_of_bad_tag raw hgt]
    exact herr .format

/-! ## Rows of a session that meets the invariant -/

theorem strideOf_pos {bpp d : Nat} (h : 1 ≤ bpp) : 0 < strideOf bpp d := by
  unfold strideOf
  split
  · omega
  · split <;> omega

theorem Filt.Inv.stride_pos {p : Params} {f : Filt} (h : f.Inv p) (hs : f.mode.inSession = true) :
    0 < f.stride := by
  have hl := h.latched hs
  exact hl.stride ▸ strideOf_pos hl.bpp_pos

/-- A row and its tag fit a payload (00_scope.md R8, 44_filter_decode.md R195). -/
theorem Filt.Inv.bw_succ_le {p : Params} {f : Filt} (h : f.Inv p) (hp : p.Legal)
    (hs : f.mode.inSession = true) : f.bw + 1 ≤ maxPayload := by
  obtain ⟨hpos, -, -, -, hses, hpass, -⟩ := h
  obtain ⟨hi, -⟩ := hpos hs
  obtain ⟨hbw, -⟩ := hses hs
  obtain ⟨-, -, -, -, -, hcap⟩ := hpass _ (Filt.pass_mem hi)
  obtain ⟨-, -, -, hmax⟩ := hp
  rw [maxPayload]
  omega

/-- FDEC_ROW of a tag of the map and a row of the session's width. -/
theorem exec_fdecRow_of_fits {s : State} {raw : List Byte} (t : FilterType) (hs : s.halt = false)
    (hm : s.filt.mode = .decode) (hlen : raw.length = s.filt.bw) (hbw : s.filt.bw + 1 ≤ maxPayload) :
    exec (.fdecRow (Asm.bytesArgs (t.tag :: raw))) s =
      .next { s with filt := s.filt.advance (s.filt.unfilter t raw),
                     resp := some (.ok (s.filt.unfilter t raw)) } := by
  have hp : (t.tag :: raw).length = s.filt.bw + 1 := by rw [List.length_cons, hlen]
  rw [exec_fdecRow_of_decode hs (hp.trans_le hbw) hm, if_pos hp, decodeRow_tag]

/-- Settles O49: the mux and the tags are the spec's tables, and FDEC_ROW answers what its loop builds. -/
theorem decodeRowAddsThePredictor : Obligations.DecodeRowAddsThePredictor := by
  refine ⟨⟨rfl, rfl, rfl, rfl, rfl⟩,
    fun a b c => ⟨rfl, rfl, rfl, toNat_pred_average a b c, fun _ hs => exec_filtPaeth a b c hs⟩,
    fun s t raw hinv hs hm hlen => ?_⟩
  obtain ⟨hlegal, -, -, -, hf⟩ := hinv
  have hses := FiltMode.inSession_iff.mpr (.inl hm)
  refine ⟨s.filt.unfilter t raw, s.filt.unfilter_length t raw,
    exec_fdecRow_of_fits t hs hm hlen (hf.bw_succ_le hlegal hses), fun x hx => ?_⟩
  have hbyte := Filt.getElem?_unfilterFrom (hf.stride_pos hses) t [] raw hx
  rw [List.length_nil, Nat.zero_add, Filt.predict_eq] at hbyte
  exact hbyte

/-! ## Advancing (44_filter_decode.md R196) -/

theorem Filt.pass_of_getElem? {f : Filt} {i : Nat} {q : Pass} (h : f.passes[i]? = some q) : f.pass i = q := by
  rw [Filt.pass, List.getD_eq_getElem?_getD, h, Option.getD_some]

/-- Settles O52, by the three cases of the advance. -/
theorem advanceFollowsThePasses : Obligations.AdvanceFollowsThePasses := by
  intro f r q hq
  rw [← Filt.pass_of_getElem? hq]
  obtain ⟨hrow, hi, he⟩ | ⟨hrow, hi, he⟩ | ⟨hrow, he⟩ := f.advance_cases r
  · refine ⟨fun hne => absurd hrow hne, fun q' _ hq' => ?_, fun _ hnone => ?_⟩
    · rw [he, ← Filt.pass_of_getElem? hq']
      rfl
    · exact absurd (List.getElem?_eq_none_iff.mp hnone) hi.not_ge
  · refine ⟨fun hne => absurd hrow hne, fun q' _ hq' => ?_, fun _ _ => he⟩
    rw [List.getElem?_eq_none hi] at hq'
    cases hq'
  · exact ⟨fun _ => he, fun _ heq => absurd heq hrow, fun heq => absurd heq hrow⟩

/-- The advance does not look at the mode or at FILTSEL, and ends a session in DONE whatever its mode. -/
theorem Filt.advance_with (f : Filt) (m : FiltMode) (k : BitVec 4) (r : List Byte) :
    ∃ m', Filt.advance { f with mode := m, sel := k } r = { f.advance r with mode := m', sel := k } ∧
      ((f.advance r).mode = f.mode ∧ m' = m ∨ (f.advance r).mode = .done ∧ m' = .done) := by
  obtain ⟨hrow, hi, he⟩ | ⟨hrow, hi, he⟩ | ⟨hrow, he⟩ := f.advance_cases r
  · exact ⟨m, he ▸ (if_pos (beq_iff_eq.mpr hrow)).trans (if_pos hi), .inl ⟨he ▸ rfl, rfl⟩⟩
  · exact ⟨.done, he ▸ (if_pos (beq_iff_eq.mpr hrow)).trans (if_neg hi.not_gt), .inr ⟨he ▸ rfl, rfl⟩⟩
  · exact ⟨m, he ▸ if_neg (mt beq_iff_eq.mp hrow), .inl ⟨he ▸ rfl, rfl⟩⟩

/-- Settles O55: the response is the chosen tag and the candidate row, the decode loop undoes the candidate
row, and both sessions advance with the same row. -/
theorem decodingUndoesEncoding : Obligations.DecodingUndoesEncoding := by
  intro e d e' row resp hinv he hd hme hmd hfilt hexec hresp
  obtain ⟨hlegal, -, -, -, hf⟩ := hinv
  have hses := FiltMode.inSession_iff.mpr (.inr hme)
  obtain ⟨s', hc, rfl⟩ := exec_ok hexec hresp
  cases hresp
  obtain ⟨-, hlen, rfl, rfl⟩ := hc
  have hstride : 0 < d.filt.stride := by
    rw [hfilt]
    exact hf.stride_pos hses
  have hbw : d.filt.bw = e.filt.bw := by rw [hfilt]
  have hpred : e.filt.predict (e.filt.choose row) = d.filt.predict (e.filt.choose row) := by
    rw [hfilt]
    rfl
  have hdec := exec_fdecRow_of_fits (raw := e.filt.filtered (e.filt.choose row) row) (e.filt.choose row) hd hmd
    ((Filt.filtered_length ..).trans (hlen.trans hbw.symm)) (hbw ▸ hf.bw_succ_le hlegal hses)
  rw [Filt.unfilter_filtered hstride hpred] at hdec
  obtain ⟨m', hadv, hmode⟩ := e.filt.advance_with .decode d.filt.sel row
  rw [← hfilt] at hadv
  refine ⟨_, hdec, rfl, hd, he, ?_, ?_⟩
  · rw [hadv]
    rfl
  · rw [hadv]
    rcases hmode with ⟨hm, rfl⟩ | ⟨hm, rfl⟩
    · exact .inl ⟨hm.trans hme, rfl⟩
    · exact .inr ⟨hm, rfl⟩

/-! ## The rows left (44_filter_decode.md R203) -/

theorem Filt.rowsLeft_of_inSession {f : Filt} (hs : f.mode.inSession = true) :
    f.rowsLeft = ((f.pass f.pi).ph - f.row) + ((f.passes.drop (f.pi + 1)).map Pass.ph).sum :=
  if_pos hs

/-- The heights from a position on are that pass's height and the heights after it. -/
theorem Filt.sum_heights_drop {f : Filt} {i : Nat} (hi : i < f.passes.length) :
    ((f.passes.drop i).map Pass.ph).sum = (f.pass i).ph + ((f.passes.drop (i + 1)).map Pass.ph).sum := by
  rw [List.drop_eq_getElem_cons hi, List.map_cons, List.sum_cons, Filt.pass, List.getD_eq_getElem _ _ hi]

/-- At the start of a pass every row of it and of the later passes is left. -/
theorem Filt.rowsLeft_enterPass {f : Filt} {i : Nat} (hs : f.mode.inSession = true) (hi : i < f.passes.length) :
    (f.enterPass i).rowsLeft = ((f.passes.drop i).map Pass.ph).sum := by
  rw [Filt.sum_heights_drop hi]
  exact Filt.rowsLeft_of_inSession hs

theorem Filt.rowsLeft_complete (f : Filt) : f.complete.rowsLeft = 0 := rfl

/-- An advance takes one row from those left, and ends the session exactly when none is. -/
theorem Filt.rowsLeft_advance {p : Params} {f : Filt} (r : List Byte) (h : f.Inv p)
    (hs : f.mode.inSession = true) :
    (f.advance r).rowsLeft + 1 = f.rowsLeft ∧ ((f.advance r).rowsLeft = 0 → (f.advance r).mode = .done) ∧
      (0 < (f.advance r).rowsLeft → (f.advance r).mode = f.mode) := by
  have hleft := Filt.rowsLeft_of_inSession hs
  have hl := h.latched hs
  obtain ⟨hpos, -⟩ := h
  obtain ⟨hpi, hrow⟩ := hpos hs
  obtain ⟨heq, hi, he⟩ | ⟨heq, hi, he⟩ | ⟨hne, he⟩ := f.advance_cases r
  · obtain ⟨-, -, hph, -⟩ := hl.passes _ (Filt.pass_mem hi)
    have hsum := Filt.sum_heights_drop hi
    rw [he, Filt.rowsLeft_enterPass hs hi]
    exact ⟨by omega, fun h0 => by omega, fun _ => rfl⟩
  · rw [List.drop_eq_nil_of_le hi] at hleft
    rw [he, Filt.rowsLeft_complete]
    exact ⟨by rw [hleft, List.map_nil, List.sum_nil]; omega, fun _ => rfl, fun h0 => absurd h0 (lt_irrefl 0)⟩
  · have hnext : (f.advance r).rowsLeft =
        ((f.pass f.pi).ph - (f.row + 1)) + ((f.passes.drop (f.pi + 1)).map Pass.ph).sum := by
      rw [he]
      exact Filt.rowsLeft_of_inSession hs
    rw [hnext]
    exact ⟨by omega, fun h0 => by omega, fun _ => by rw [he]⟩

/-- A session starts with all rows of its passes left, and there is at least one. -/
theorem Filt.rowsLeft_startSession {s : State} {c : Setup} {m : FiltMode} (f : Filt) (k : BitVec 4)
    (hc : setup s = .ok c) (hm : m.inSession = true) :
    (f.startSession c k m).rowsLeft = (c.passes.map Pass.ph).sum ∧ 0 < (f.startSession c k m).rowsLeft := by
  have hpos := setup_passes_pos hc
  have hleft : (f.startSession c k m).rowsLeft = (c.passes.map Pass.ph).sum := Filt.rowsLeft_enterPass hm hpos
  obtain ⟨-, -, hph, -⟩ := setup_passes_inv hc _ (List.getElem_mem hpos)
  have hle := List.single_le_sum (fun _ _ => Nat.zero_le _) _ (List.mem_map_of_mem (f := Pass.ph)
    (List.getElem_mem hpos))
  exact ⟨hleft, by omega⟩

/-- Settles O56, by what the row commands and the starts commit. -/
theorem sessionEndsAfterItsRows : Obligations.SessionEndsAfterItsRows := by
  refine ⟨fun s t i d hinv hi hexec hresp => ?_, fun s t i d hi hexec hresp => ?_⟩
  · obtain ⟨-, -, -, -, hf⟩ := hinv
    obtain ⟨s', hc, rfl⟩ := exec_ok hexec hresp
    cases i with
    | fdecRow a =>
      obtain ⟨_, _, hm, -, -, -, rfl⟩ := hc
      exact Filt.rowsLeft_advance _ hf (FiltMode.inSession_iff.mpr (.inl hm))
    | fencRow a =>
      obtain ⟨hm, -, -, rfl⟩ := hc
      exact Filt.rowsLeft_advance _ hf (FiltMode.inSession_iff.mpr (.inr hm))
    | _ => simp [Instr.op] at hi
  · obtain ⟨s', hc, rfl⟩ := exec_ok hexec hresp
    cases i with
    | fdecStart a =>
      obtain ⟨c, hset, -, rfl⟩ := hc
      exact Filt.rowsLeft_startSession _ _ hset rfl
    | fencStart a =>
      obtain ⟨c, -, -, hset, -, rfl⟩ := hc
      exact Filt.rowsLeft_startSession _ _ hset rfl
    | _ => simp [Instr.op] at hi

end Sys2Proof.Machine
end

section
/-! PROOFS. The encode commands of the filter unit (spec/45_filter_encode.md R221-R224): the bytes of a
candidate row, the cost of a row, and the filter type that selection takes. -/

namespace Sys2Proof.Machine

/-! ## Candidate rows (45_filter_encode.md R221) -/

/-- Every byte of the loop's rest is the raw byte minus the predictor at its place in the row. -/
theorem Filt.getElem?_filterFrom (f : Filt) (t : FilterType) (row : List Byte) (x : Nat) (rest : List Byte)
    {i : Nat} (hi : i < rest.length) :
    (f.filterFrom t row x rest)[i]? = some (rest.getD i 0#8 - f.predict t row (x + i)) := by
  induction rest generalizing x i with
  | nil => cases hi
  | cons r rest ih =>
    rw [Filt.filterFrom]
    cases i with
    | zero => rfl
    | succ i =>
      rw [List.getElem?_cons_succ, ih (x + 1) (Nat.lt_of_succ_lt_succ hi), List.getD_cons_succ,
        Nat.add_assoc, Nat.add_comm 1]

/-- The bytes of a candidate row, with the three unfiltered neighbours written out. -/
theorem Filt.getElem?_filtered (f : Filt) (t : FilterType) {row : List Byte} {x : Nat} (hx : x < row.length) :
    (f.filtered t row)[x]? = some (row.getD x 0#8 - pred t
      (if f.stride ≤ x then row.getD (x - f.stride) 0#8 else 0#8)
      (if f.hasPrev then f.prev.getD x 0#8 else 0#8)
      (if f.hasPrev ∧ f.stride ≤ x then f.prev.getD (x - f.stride) 0#8 else 0#8)) := by
  have hbyte := f.getElem?_filterFrom t row 0 row hx
  rwa [Nat.zero_add, Filt.predict_eq] at hbyte

/-! ## The cost of a row (45_filter_encode.md R222) -/

theorem byte_toInt_eq_ite (b : Byte) :
    b.toInt = if b.toNat < 128 then (b.toNat : Int) else (b.toNat : Int) - 256 := by
  rw [BitVec.toInt_eq_toNat_cond]
  split <;> split <;> omega

theorem natAbs_byte_toInt_le (b : Byte) : b.toInt.natAbs ≤ 128 := by
  have hlt := b.isLt
  rw [byte_toInt_eq_ite]
  split <;> omega

/-- The bound of R222, which a row of bytes 0x80 meets. -/
theorem rowCost_le (l : List Byte) : rowCost l ≤ 128 * l.length := by
  have hsum := List.sum_le_card_nsmul (l.map fun b : Byte => b.toInt.natAbs) 128 fun n hn => by
    obtain ⟨b, -, rfl⟩ := List.mem_map.mp hn
    exact natAbs_byte_toInt_le b
  rwa [List.length_map, smul_eq_mul, Nat.mul_comm] at hsum

/-! ## Selection (45_filter_encode.md R223) -/

theorem pinnedFilter_tag (t : FilterType) : pinnedFilter (t.tag.setWidth 4) = some t := by
  cases t <;> rfl

theorem Filt.choose_of_pinned {f : Filt} {t : FilterType} (row : List Byte)
    (h : f.sel = t.tag.setWidth 4) : f.choose row = t := by
  rw [Filt.choose, h, pinnedFilter_tag]

theorem Filt.choose_of_auto {f : Filt} (row : List Byte) (h : f.sel = 15#4) :
    f.choose row = f.chooseAuto row := by
  rw [Filt.choose, h]
  rfl

/-- Selection may take `b` where it could take `t`: `b` costs no more, and less where `t` has the lower
number. -/
abbrev Filt.Prefers (f : Filt) (row : List Byte) (b t : FilterType) : Prop :=
  rowCost (f.filtered b row) ≤ rowCost (f.filtered t row) ∧
    (t.tag.toNat < b.tag.toNat → rowCost (f.filtered b row) < rowCost (f.filtered t row))

/-- The loop of `choose`, from any best so far and over any filter types of ascending number, ends with one
it prefers to all it has seen. A displaced best costs more than what displaced it; a filter type that does
not displace the best has a higher number and costs no less. -/
theorem Filt.foldl_better_prefers (f : Filt) (row : List Byte) {best : FilterType} {l : List FilterType}
    (hl : (best :: l).Pairwise fun t u => t.tag.toNat < u.tag.toNat) :
    ∀ t ∈ best :: l, f.Prefers row (l.foldl (f.better row) best) t := by
  induction l generalizing best with
  | nil =>
    intro t ht
    obtain rfl := List.mem_singleton.mp ht
    exact ⟨le_rfl, fun h => absurd h (lt_irrefl _)⟩
  | cons u l ih =>
    obtain ⟨hbest, hul⟩ := List.pairwise_cons.mp hl
    obtain ⟨hu, hl'⟩ := List.pairwise_cons.mp hul
    have hbu := hbest u List.mem_cons_self
    rw [List.foldl_cons, Filt.better]
    by_cases hcost : rowCost (f.filtered u row) < rowCost (f.filtered best row)
    · rw [if_pos hcost]
      have hpref := ih hul
      have hlt := (hpref u List.mem_cons_self).1.trans_lt hcost
      exact List.forall_mem_cons.mpr ⟨⟨hlt.le, fun _ => hlt⟩, hpref⟩
    · rw [if_neg hcost]
      have hge := not_lt.mp hcost
      obtain ⟨⟨hle, hlow⟩, hrest⟩ := List.forall_mem_cons.mp
        (ih (List.pairwise_cons.mpr ⟨fun t ht => hbest t (List.mem_cons_of_mem u ht), hl'⟩))
      have hpref : f.Prefers row (l.foldl (f.better row) best) u :=
        ⟨hle.trans hge, fun h => (hlow (hbu.trans h)).trans_le hge⟩
      exact List.forall_mem_cons.mpr ⟨⟨hle, hlow⟩, List.forall_mem_cons.mpr ⟨hpref, hrest⟩⟩

theorem Filt.chooseAuto_prefers (f : Filt) (row : List Byte) (t : FilterType) :
    f.Prefers row (f.chooseAuto row) t :=
  f.foldl_better_prefers row (by decide) t (by cases t <;> decide)

/-- Settles O54: each clause is one of the rules for the candidate row, its cost and the selection. -/
theorem selectionMinimisesTheCost : Obligations.SelectionMinimisesTheCost := by
  refine fun f row => ⟨fun t ht => Filt.choose_of_pinned row ht, fun hauto t => ?_, fun t => ?_, fun l => ?_,
    fun t => ⟨f.filtered_length t row, fun x hx => f.getElem?_filtered t hx⟩⟩
  · rw [Filt.choose_of_auto row hauto]
    exact f.chooseAuto_prefers row t
  · exact (rowCost_le _).trans_eq (by rw [Filt.filtered_length])
  · simp only [rowCost, byte_toInt_eq_ite]

/-! ## FENC_ROW (45_filter_encode.md R224) -/

/-- FENC_ROW of a row of the session's width. -/
theorem exec_fencRow_of_fits {s : State} {row : List Byte} (hs : s.halt = false) (hm : s.filt.mode = .encode)
    (hlen : row.length = s.filt.bw) (hbw : s.filt.bw ≤ maxPayload) :
    exec (Asm.fencRow row) s = .next { s with
      filt := s.filt.advance row
      resp := some (.ok ((s.filt.choose row).tag :: s.filt.filtered (s.filt.choose row) row)) } := by
  rw [exec_fencRow_of_encode hs (hlen.trans_le hbw) hm, if_pos hlen]
  rfl

/-- Settles O50: FENC_ROW answers the candidate row of the filter type chosen. -/
theorem encodeRowSubtractsThePredictor : Obligations.EncodeRowSubtractsThePredictor := by
  intro s row hinv hs hm hlen
  obtain ⟨hlegal, -, -, -, hf⟩ := hinv
  have hbw := hf.bw_succ_le hlegal (FiltMode.inSession_iff.mpr (.inr hm))
  exact ⟨_, s.filt.filtered_length _ row, exec_fencRow_of_fits hs hm hlen (Nat.le_of_succ_le hbw),
    fun x hx => s.filt.getElem?_filtered _ hx⟩

end Sys2Proof.Machine
end

section
/-! PROOFS. The error behaviour (60_exceptions.md R241-R250): what a raise leaves on a halted block, which
commands the halt refuses, and everything a step on a pending command can do. -/

namespace Sys2Proof.Machine

/-! ## Raising on a halted block (60_exceptions.md R241, R250) -/

/-- The first error wins: a raise on a halted block only answers. -/
theorem State.raised_of_halted {s : State} (e : ErrCode) (hs : s.halt = true) :
    s.raised e = { s with resp := some (.err e) } := by
  simp [State.raised, ← hs]

theorem raise_of_halted {s : State} (e : ErrCode) (hs : s.halt = true) :
    raise s e = .next { s with resp := some (.err e) } :=
  congrArg Host.Outcome.next (State.raised_of_halted e hs)

/-! ## The commands accepted while halted (60_exceptions.md R243) -/

theorem acceptedWhileHalted_iff {op : BitVec 8} :
    acceptedWhileHalted op = true ↔ op = 0x00#8 ∨ op = 0x01#8 ∨ op = 0x02#8 := by
  simp [acceptedWhileHalted, or_assoc]

theorem acceptedWhileHalted_code_iff {o : Op} :
    acceptedWhileHalted o.code = true ↔ o = .ctlNop ∨ o = .ctlReset ∨ o = .ctlRdreg := by
  cases o <;> decide

/-- An operation that is not accepted while halted runs only on a block that is not halted. -/
theorem halt_eq_false_of_not_accepted {s : State} {o : Op}
    (h : s.halt = false ∨ acceptedWhileHalted o.code = true) (ho : acceptedWhileHalted o.code = false) :
    s.halt = false :=
  h.resolve_right (Bool.eq_false_iff.mp ho)

theorem opcodeField_of_decode {c : Command} {i : Instr} (hd : decode c = .ok i) :
    opcodeField c.header = i.op.code := by
  obtain ⟨hop, -⟩ := Laws.encodedFields_of i
  rwa [decode_eq_ok_iff.mp hd] at hop

/-- Step 1 of R90 refuses a command that does not decode. -/
theorem undecodable_of_refused {c : Command} {why : DecodeError} {s : State} (hs : s.halt = true)
    (hc : acceptedWhileHalted (opcodeField c.header) = false) : undecodable c why s = respondHalted s := by
  simp [undecodable, hs, hc]

/-- Step 2 of R90 raises ILLEGAL on a command that step 1 lets through. -/
theorem undecodable_of_accepted {c : Command} {why : DecodeError} {s : State}
    (hc : acceptedWhileHalted (opcodeField c.header) = true) : undecodable c why s = raise s .illegal := by
  simp [undecodable, hc]

/-- Step 1 of R90 refuses a command by its opcode, decodable or not. -/
theorem step_of_refused {s : State} {c : Command} {rest : List Command} (hp : s.port = c :: rest)
    (hs : s.halt = true) (hc : acceptedWhileHalted (opcodeField c.header) = false) :
    step s = respondHalted { s with port := rest } := by
  have hs' : State.halt { s with port := rest } = true := hs
  cases hd : decode c with
  | error why => rw [step_of_decode_error hp hd, undecodable_of_refused hs' hc]
  | ok i =>
    obtain ⟨body, hb⟩ := exec_eq_command i { s with port := rest }
    rw [opcodeField_of_decode hd] at hc
    rw [step_of_decode_ok hp hd, hb, command_halted hs' hc]

/-! ## Everything a step can do -/

/-- A step on a pending command is refused, raises, waits, or answers OK with the command's writes. The state
in each case is the one without the pending command. -/
theorem step_cases {s t : State} {c : Command} {rest : List Command} (hp : s.port = c :: rest)
    (h : step s = .next t) :
    (s.halt = true ∧ t = State.haltRefused { s with port := rest }) ∨
    (∃ e, (e ≠ .halted ∧ e ≠ .integrity) ∧ t = State.raised { s with port := rest } e) ∨
    (s.halt = false ∧ (∃ a, decode c = .ok (.crcCheck a)) ∧
      t = State.raised { s with port := rest, crcMismatch := true } .integrity) ∨
    (s.halt = false ∧ (∃ a, decode c = .ok (.unpkGet a)) ∧ t = State.waiting { s with port := rest }) ∨
    (∃ i s' d, decode c = .ok i ∧ (s.halt = false ∨ acceptedWhileHalted i.op.code = true) ∧ i.Framed ∧
      Commits i { s with port := rest } s' d ∧ t = s'.answered d) := by
  cases hd : decode c with
  | error why =>
    obtain ⟨hs, -, ht⟩ | ⟨-, ht⟩ := undecodable_cases ((step_of_decode_error hp hd).symm.trans h)
    · exact .inl ⟨hs, ht⟩
    · exact .inr (.inl ⟨.illegal, by decide, ht⟩)
  | ok i =>
    obtain ⟨hs, -, ht⟩ | ⟨hs, he | ⟨⟨a, rfl⟩, -, ht⟩ | ⟨⟨a, rfl⟩, ht⟩ | ⟨hf, s', d, hc, ht⟩⟩ :=
      exec_cases ((step_of_decode_ok hp hd).symm.trans h)
    · exact .inl ⟨hs, ht⟩
    · exact .inr (.inl he)
    · exact .inr (.inr (.inl ⟨halt_eq_false_of_not_accepted hs rfl, ⟨a, rfl⟩, ht⟩))
    · exact .inr (.inr (.inr (.inl ⟨halt_eq_false_of_not_accepted hs rfl, ⟨a, rfl⟩, ht⟩)))
    · exact .inr (.inr (.inr (.inr ⟨i, s', d, rfl, hs, hf, hc, ht⟩)))

/-- Of the commands accepted while halted only CTL_RESET commits a write. -/
theorem Commits.eq_of_accepted {i : Instr} {s s' : State} {d : List Byte} (h : Commits i s s' d)
    (hi : acceptedWhileHalted i.op.code = true) (hr : ∀ a, i ≠ .ctlReset a) : s' = s := by
  rw [acceptedWhileHalted_code_iff] at hi
  cases i with
  | ctlNop | ctlRdreg => exact h.1
  | ctlReset a => exact absurd rfl (hr a)
  | _ => simp [Instr.op] at hi

/-- The one well-framed CTL_RESET has no operand (30_encoding.md R89). -/
theorem eq_noArgs_of_framed_z {a : Args} (h : framed .z a = true) : a = Asm.noArgs := by
  obtain ⟨harg, hpay⟩ := framed_z.mp h
  cases a
  cases harg
  cases hpay
  rfl

/-! ## The obligations -/

/-- Settles O14, by what a step can do: the three cases that answer an error are the refusal of the halt, a
raise on the state without the command, and CRC_CHECK's INTEGRITY with the mismatch flag set. -/
theorem errorsArePrecise : Obligations.ErrorsArePrecise := by
  refine ⟨fun e => by cases e <;> decide, fun s t c rest e hp h hr => ?_⟩
  obtain ⟨hs, rfl⟩ | ⟨e', ⟨-, he⟩, rfl⟩ | ⟨-, hc, rfl⟩ | ⟨-, -, rfl⟩ | ⟨i, s', d, -, -, -, -, rfl⟩ :=
    step_cases hp h
  · cases hr
    exact ⟨by simp [State.haltRefused, ← hs], fun h' => absurd h' (by decide), fun _ => rfl⟩
  · cases hr
    exact ⟨rfl, fun h' => absurd h' he, fun _ => rfl⟩
  · cases hr
    exact ⟨rfl, fun _ => ⟨rfl, hc⟩, fun h' => absurd rfl h'⟩
  · cases hr
  · cases hr

/-- Settles O15: of what a step can do, only an UNPK_GET that waits answers WAIT. -/
theorem waitChangesNothing : Obligations.WaitChangesNothing := by
  intro s t c rest hp h hr
  obtain ⟨-, rfl⟩ | ⟨e, -, rfl⟩ | ⟨-, -, rfl⟩ | ⟨hs, hc, rfl⟩ | ⟨i, s', d, -, -, -, -, rfl⟩ :=
    step_cases hp h
  · cases hr
  · cases hr
  · cases hr
  · exact ⟨rfl, hs, hc⟩
  · cases hr

/-- Settles O16: the reset runs its body, and whatever else a step on a halted block can do leaves all but the
response. -/
theorem onlyResetEndsTheHalt : Obligations.OnlyResetEndsTheHalt := by
  intro s t c rest hs hp h
  have running : s.halt ≠ false := by simp [hs]
  refine ⟨fun hd => ?_, fun hd => ?_⟩
  · obtain ⟨-, hreset⟩ := nopAndResetAnswerInEveryState { s with port := rest }
    cases hreset.symm.trans ((step_of_decode_ok hp hd).symm.trans h)
    rfl
  · obtain ⟨-, rfl⟩ | ⟨e, -, rfl⟩ | ⟨hf, -⟩ | ⟨hf, -⟩ | ⟨i, s', d, hi, hacc, hframed, hc, rfl⟩ :=
      step_cases hp h
    · rfl
    · exact State.raised_of_halted e hs
    · exact absurd hf running
    · exact absurd hf running
    · have notReset : ∀ a, i ≠ .ctlReset a := by
        rintro a rfl
        exact hd (eq_noArgs_of_framed_z hframed ▸ hi)
      rw [hc.eq_of_accepted (hacc.resolve_left running) notReset]
      rfl

/-- Settles O11: the opcode decides the refusal, and the three accepted commands go through framing to their
bodies. -/
theorem haltedBlockRefusesOtherCommands : Obligations.HaltedBlockRefusesOtherCommands := by
  refine ⟨fun s c rest hs hp h0 h1 h2 => ?_, by decide, fun s hs r a => ⟨fun hf => ?_, fun hf => ?_⟩⟩
  · refine step_of_refused hp hs (Bool.eq_false_iff.mpr fun hacc => ?_)
    obtain h | h | h := acceptedWhileHalted_iff.mp hacc
    · exact h0 h
    · exact h1 h
    · exact h2 h
  · exact ⟨command_body (.inr rfl) hf, ⟨_, command_body (.inr rfl) hf, rfl, rfl⟩,
      command_body (.inr rfl) hf⟩
  · have misframed : ∀ {o : Op} {body : Result}, acceptedWhileHalted o.code = true →
        framed o.kind a = false → command o a s body = .next { s with resp := some (.err .length) } :=
      fun hacc hk => (command_misframed (.inr hacc) hk).trans (raise_of_halted .length hs)
    exact ⟨misframed rfl hf, misframed rfl hf, misframed rfl hf⟩

/-- Settles O12: the opcode passes the halt, so the decoder or the framing check raises, and a raise on a
halted block only answers. -/
theorem nestedErrorsKeepTheFirstCode : Obligations.NestedErrorsKeepTheFirstCode := by
  intro s c rest hs hp hop
  have hs' : State.halt { s with port := rest } = true := hs
  have hacc := acceptedWhileHalted_iff.mpr hop
  refine ⟨fun hd => ?_, fun i hd hf => ?_⟩
  · cases hd' : decode c with
    | ok i => exact absurd hd' (hd i)
    | error why =>
      rw [step_of_decode_error hp hd', undecodable_of_accepted hacc]
      exact raise_of_halted .illegal hs'
  · obtain ⟨body, hb⟩ := exec_eq_command i { s with port := rest }
    rw [opcodeField_of_decode hd] at hacc
    rw [step_of_decode_ok hp hd, hb,
      command_misframed (.inr hacc) (Bool.eq_false_iff.mpr fun hk => hf (framed_iff.mp hk))]
    exact raise_of_halted .length hs'

end Sys2Proof.Machine
end

section
/-! PROOFS. The reset state (70_reset_and_hazards.md R271): the view registers read 0, which follows from the
reset values of the units, and the fields of CTRL and FORMAT are those of their reset words. -/

namespace Sys2Proof.Machine

/-! ## The words computed from the reset values (10_state.md R25, R31-R35) -/

/-- Not halted, no error code, no mismatch, every unit idle. -/
theorem statusWord_resetOf (p : Params) : statusWord (State.resetOf p) = 0#32 := by
  simp [statusWord, State.resetOf, Unpk.reset, Pack.reset, Filt.reset, FiltMode.code]

theorem unpkCurWord_reset : unpkCurWord Unpk.reset = 0#32 := rfl

theorem packAccWord_reset : packAccWord Pack.reset = 0#32 := rfl

/-- The reset mode is outside a session, so the three position registers read 0. -/
theorem filtWords_reset :
    filtPosWord Filt.reset = 0#32 ∧ filtRowWord Filt.reset = 0#32 ∧ filtByteWidthWord Filt.reset = 0#32 := by
  have idle : Filt.reset.mode.inSession = false := FiltMode.inSession_eq_false_iff.mpr (.inl rfl)
  simp [filtPosWord, filtRowWord, filtByteWidthWord, idle]

/-! ## The reset value of every slot -/

/-- The column "reset value" of R271 for a register slot. -/
def resetValueOf : Reg → Word
  | .id => 0x44504E47#32
  | .ctrl => 1#32
  | .format => 0x0F000000#32
  | .crcState => 0xFFFFFFFF#32
  | .status | .width | .height | .unpkLevel | .unpkCur | .packAcc | .filtPos | .filtRow
  | .filtByteWidth => 0#32

theorem readReg_resetOf (p : Params) (r : Reg) : readReg (State.resetOf p) r = resetValueOf r := by
  obtain ⟨hpos, hrow, hwidth⟩ := filtWords_reset
  cases r with
  | id | ctrl | width | height | format | crcState | unpkLevel => rfl
  | status => exact statusWord_resetOf p
  | unpkCur => exact unpkCurWord_reset
  | packAcc => exact packAccWord_reset
  | filtPos => exact hpos
  | filtRow => exact hrow
  | filtByteWidth => exact hwidth

/-- The fields of the reset words of CTRL and FORMAT (10_state.md R24, R28): BITDEPTH 0 is no legal depth and
FILTSEL 15 is the automatic choice. -/
theorem State.resetOf_fields (p : Params) :
    (State.resetOf p).checkCrc = true ∧ (State.resetOf p).bitDepth = 0 ∧ (State.resetOf p).colorType = 0 ∧
    (State.resetOf p).interlace = false ∧ (State.resetOf p).filtSel = 15#4 := by
  have hctrl : (State.resetOf p).ctrl = 1#32 := rfl
  have hformat : (State.resetOf p).format = 0x0F000000#32 := rfl
  simp [State.checkCrc, State.bitDepth, State.colorType, State.interlace, State.filtSel, hctrl, hformat]

/-- Settles O22: the slots one by one, the fields of CTRL and FORMAT from their words, and the flags and units
as `State.resetOf` gives them. -/
theorem resetValues : Obligations.ResetValues := by
  intro p
  obtain ⟨hcheck, hdepth, hcolor, hlace, hsel⟩ := State.resetOf_fields p
  have hslots : readReg (State.resetOf p) = resetValueOf := funext (readReg_resetOf p)
  refine ⟨?_, rfl, rfl, rfl, hcheck, hdepth, hcolor, hlace, hsel, rfl, rfl, rfl⟩
  rw [hslots]
  rfl

end Sys2Proof.Machine
end
